-- ==== Sys2Proof/Word.lean ====
section
/-! DEFINITION. The word types and the three data records of the host side (10_state.md R42, R43,
30_encoding.md R108). Plain data, no behaviour. -/

namespace Sys2Proof

/-- One chip register, one burst byte (00_scope.md R6 `REG_WIDTH`, R7). -/
abbrev Byte := BitVec 8

/-- The command word `CW16` (30_encoding.md R100). -/
abbrev CmdWord := BitVec 16

/-- CalendarTime (10_state.md R42): unsigned fields of the widths of decision D5.
`year` counts from 1900; `yday` counts from 0. -/
structure CalendarTime where
  second : Byte
  minute : Byte
  hour : Byte
  mday : Byte
  weekday : Byte
  month : Byte
  year : BitVec 9
  yday : BitVec 9
  isdst : Bool
  deriving DecidableEq, Repr

/-- RawTimeBlock `b[0..6]` (10_state.md R43): the bytes of `REG[0x04..0x0A]` in burst order. -/
structure RawTimeBlock where
  seconds : Byte
  minutes : Byte
  hours : Byte
  days : Byte
  weekdays : Byte
  months : Byte
  years : Byte
  deriving DecidableEq, Repr

/-- The data operand port `opnd` (10_state.md R22, R46). DESIGN CHOICE (log 5): the port carries a
CalendarTime and a RawTimeBlock side by side, and a command reads the one its rule names. -/
structure Operand where
  time : CalendarTime
  block : RawTimeBlock
  deriving DecidableEq, Repr

/-- All fields zero (10_state.md R42; the start values of log 12). -/
def CalendarTime.zero : CalendarTime := ⟨0, 0, 0, 0, 0, 0, 0, 0, false⟩

/-- All bytes zero (the start values of log 12). -/
def RawTimeBlock.zero : RawTimeBlock := ⟨0, 0, 0, 0, 0, 0, 0⟩

/-- The operand of a command that takes none; also the dead value of the latch (log 12). -/
def Operand.zero : Operand := ⟨.zero, .zero⟩

end Sys2Proof
end

