-- ==== Sys2Proof/Machine/Registers.lean ====
section
/-! DEFINITION. The register addresses and the bit masks of the wire protocol (10_state.md R26 to
R40, 30_encoding.md R112) and the power-on contents of the register file. Addresses marked UNVERIFIED
are the spec's own insertions from general knowledge of the chip (D13, log 2). -/

namespace Sys2Proof.Machine

/-- Number of registers, 0x00 to 0x11 (R6, R60). -/
def regCount : Nat := 18

/-- Control register 1 (UNVERIFIED, log 2). -/
def addrCtrl1 : Byte := 0x00
/-- Control register 2 (UNVERIFIED, log 2). -/
def addrCtrl2 : Byte := 0x01
/-- Offset register (UNVERIFIED, log 2). -/
def addrOffset : Byte := 0x02
/-- First byte of the time block (R112 `ADDR_TIME`). -/
def addrTime : Byte := 0x04
/-- Timer-value register (UNVERIFIED, log 2). -/
def addrTimerValue : Byte := 0x10
/-- Timer-mode register (UNVERIFIED, log 2). -/
def addrTimerMode : Byte := 0x11
/-- The register `INIT` reads (41_control.md R160, D15, log 22). -/
def probeAddr : Byte := 0x00
/-- Length of the time block (R6 `BLOCK_LEN`). -/
def blockLen : Nat := 7

/-- R112 `CTRL1_STOP`. -/
def ctrl1Stop : Byte := 0x20
/-- R112 `CTRL1_CAP_SEL`. -/
def ctrl1CapSel : Byte := 0x01
/-- R112 `CTRL2_AIE`. -/
def ctrl2AIE : Byte := 0x80
/-- R112 `CTRL2_AF`. -/
def ctrl2AF : Byte := 0x40
/-- R112 `CTRL2_TF`. -/
def ctrl2TF : Byte := 0x08
/-- R112 `OFFSET_MODE`. -/
def offsetMode : Byte := 0x80
/-- R112 `OFFSET_VALUE`. -/
def offsetValue : Byte := 0x7F
/-- R112 `TMODE_TCF`. -/
def tmodeTCF : Byte := 0x18
/-- R112 `TMODE_TCF_1HZ` (UNVERIFIED, D14, log 20). -/
def tmodeTCF1Hz : Byte := 0x10
/-- R112 `TMODE_TE`. -/
def tmodeTE : Byte := 0x04
/-- R112 `TMODE_TIE`. -/
def tmodeTIE : Byte := 0x02
/-- R112 `TMODE_TI_TP`. -/
def tmodeTITP : Byte := 0x01
/-- R112 `SEC_OS`. -/
def secOS : Byte := 0x80
/-- R112 `SEC_TENS`. -/
def secTens : Byte := 0x70
/-- R112 `BCD_TENS`. -/
def bcdTens : Byte := 0xF0
/-- R112 `BCD_UNITS`. -/
def bcdUnits : Byte := 0x0F
/-- R112 `WEEKDAY_MASK`. -/
def weekdayMask : Byte := 0x07

/-- The masks of `ENCODE` (40_codec.md R138); minutes to years are UNVERIFIED (D7, log 23). -/
def secondsMask : Byte := 0x7F
def minutesMask : Byte := 0x7F
def hoursMask : Byte := 0x3F
def daysMask : Byte := 0x3F
def monthsMask : Byte := 0x1F
def yearsMask : Byte := 0xFF

/-- What a register holds before anything has written it. `OS` = 1 is the spec's (R51); every other
value is PRESUMED, the chip's customary one (93_implementation_defined.md GK9, log 1). -/
def powerOn (a : Nat) : Byte :=
  match a with
  | 0x04 => 0x80
  | 0x07 => 0x01
  | 0x08 => 0x06
  | 0x09 => 0x01
  | 0x0B => 0x80
  | 0x0C => 0x80
  | 0x0D => 0x80
  | 0x0E => 0x80
  | 0x0F => 0x80
  | 0x11 => 0x18
  | _ => 0x00

end Sys2Proof.Machine
end

