-- ==== Sys2Proof/Config.lean ====
section
/-! DEFINITION. What is fixed for one machine (00_scope.md R6, 10_state.md R23) and the values the
spec leaves open. Register addresses and masks stand in Machine/Registers.lean. -/

namespace Sys2Proof.Config

/-- `N_CHANNELS` (R6, R23): no command reads it. -/
def nChannels : Nat := 1

/-- `MAX_TICK` (R6, R23): readable by no command; `GET_TOP` does not return it (45_host_stubs.md R202). -/
def maxTick : Nat := 255

/-- `NOMINAL_FREQ` in Hz (R6, R23). -/
def nominalFreq : Nat := 1

/-- `YEAR_MIN` and `YEAR_MAX` as the `year` field (R6). -/
def yearMin : Nat := 100
def yearMax : Nat := 199

/-- `BUS_ADDR` (R6, R23, D24): OPEN, and no rule depends on it; an opaque constant. DESIGN CHOICE
(log 27): a natural number, because the spec gives neither its value nor its width (N24) and the model
fixes neither. -/
opaque busAddr : Nat

/-- The free `yday` values (40_codec.md R135, D12, U3): the value of the n-th draw. No body, so
nothing is known of it (log 6). -/
opaque freeYday : Nat → BitVec 9

/-- The two reference values of the parameter `CHIP` (20_memory.md R76). -/
inductive Chip where
  /-- the chip never changes `REG` by itself -/
  | static
  /-- the chip makes the moves (i) to (v) of R76 between transactions -/
  | free
  deriving DecidableEq, Repr

/-- The OPEN parameters of the environment (R6): `CHIP`, `FAIR_BUS`, `N_CALLERS`. A parameter
restricts which environment scripts a state may hold (Safety.lean, `State.admitted`); the step
itself follows any script (log 16, log 29). -/
structure Params where
  chip : Chip
  fairBus : Bool
  nCallers : Nat
  deriving DecidableEq, Repr

/-- The launch premises of the programs of 95_test_vectors.md Part 3: `CHIP = Static`,
`N_CALLERS = 1`, every transaction returns. -/
def Params.testBench : Params := ⟨.static, true, 1⟩

end Sys2Proof.Config
end

