-- ==== Sys2Proof/Syntax.lean ====
section
/-! DEFINITION. The 16 commands (30_encoding.md R102), one constructor per row of the opcode table.
Every command carries the two other fields of its word, `chan` and `arg` (R100), also where the
command ignores them (R104, R105): decoding drops no bit, and that an ignored field has no effect is
then a fact about `exec`. -/

namespace Sys2Proof

inductive Instr where
  | encode (chan : BitVec 4) (arg : Byte)
  | decode (chan : BitVec 4) (arg : Byte)
  | init (chan : BitVec 4) (arg : Byte)
  | start (chan : BitVec 4) (arg : Byte)
  | stop (chan : BitVec 4) (arg : Byte)
  | getTime (chan : BitVec 4) (arg : Byte)
  | setTime (chan : BitVec 4) (arg : Byte)
  | setAlarm (chan : BitVec 4) (arg : Byte)
  | cancelAlarm (chan : BitVec 4) (arg : Byte)
  | getPendingInt (chan : BitVec 4) (arg : Byte)
  | setOffsetMode (chan : BitVec 4) (arg : Byte)
  | setOffsetValue (chan : BitVec 4) (arg : Byte)
  | setCapSelect (chan : BitVec 4) (arg : Byte)
  | getTick (chan : BitVec 4) (arg : Byte)
  | setTop (chan : BitVec 4) (arg : Byte)
  | getTop (chan : BitVec 4) (arg : Byte)
  deriving DecidableEq, Repr

end Sys2Proof
end

