-- ==== Sys2Proof/WellFormed.lean ====
section
/-! DEFINITION. Checks on what the host presents. None of them is tested by the hardware: every word
is a command (30_encoding.md R105) and no field is validated (70_reset_and_hazards.md R260). They
name the ranges that rules speak of. -/

namespace Sys2Proof

/-- Well-formed as a command: every value of every field is accepted (30_encoding.md R101, R105). -/
def Instr.wellFormed : Instr → Bool
  | .encode _ _ | .decode _ _ | .init _ _ | .start _ _ | .stop _ _ | .getTime _ _ | .setTime _ _
  | .setAlarm _ _ | .cancelAlarm _ _ | .getPendingInt _ _ | .setOffsetMode _ _
  | .setOffsetValue _ _ | .setCapSelect _ _ | .getTick _ _ | .setTop _ _ | .getTop _ _ => true

/-- The words an assembler writes: every ignored field is 0, and `chan` is 0 except for the two
commands that name a channel (30_encoding.md R105, R109, R110). -/
def Instr.assembled : Instr → Bool
  | .encode chan arg | .decode chan arg | .init chan arg | .start chan arg | .stop chan arg
  | .getTime chan arg | .setTime chan arg | .getPendingInt chan arg | .getTick chan arg
  | .setTop chan arg | .getTop chan arg => chan == 0 && arg == 0
  | .setAlarm _ _ => true
  | .cancelAlarm _ arg => arg == 0
  | .setOffsetMode chan arg | .setCapSelect chan arg => chan == 0 && decide (arg.toNat < 2)
  | .setOffsetValue chan arg => chan == 0 && decide (arg.toNat < 128)

/-- The valid ranges of the fields `ENCODE` reads (10_state.md R42; the premise of 40_codec.md R141). -/
def CalendarTime.valid (t : CalendarTime) : Bool :=
  decide (t.second.toNat ≤ 59) && decide (t.minute.toNat ≤ 59) && decide (t.hour.toNat ≤ 23) &&
  decide (1 ≤ t.mday.toNat) && decide (t.mday.toNat ≤ 31) && decide (t.weekday.toNat ≤ 6) &&
  decide (1 ≤ t.month.toNat) && decide (t.month.toNat ≤ 12) &&
  decide (100 ≤ t.year.toNat) && decide (t.year.toNat ≤ 199)

/-- A two-digit BCD byte whose value lies between `lo` and `hi`. -/
def bcdWithin (lo hi : Nat) (b : Byte) : Bool :=
  let tens := b.toNat / 16
  let units := b.toNat % 16
  decide (units ≤ 9) && decide (tens ≤ 9) && decide (lo ≤ tens * 10 + units) &&
  decide (tens * 10 + units ≤ hi)

/-- Valid register contents of a time block with `OS` = 0 (10_state.md R31 to R37). -/
def RawTimeBlock.validContents (b : RawTimeBlock) : Bool :=
  bcdWithin 0 59 b.seconds && bcdWithin 0 59 b.minutes && bcdWithin 0 23 b.hours &&
  bcdWithin 1 31 b.days && decide (b.weekdays.toNat ≤ 6) && bcdWithin 1 12 b.months &&
  bcdWithin 0 99 b.years

end Sys2Proof
end

