-- ==== Sys2Proof/Decode.lean ====
section
/-! DEFINITION. Decoding and encoding of the command word (30_encoding.md R100 to R105). Decoding a
16-bit word is total; what is not one 16-bit word is rejected by name. -/

namespace Sys2Proof

/-- `op = cmd[15:12]` (R100, R101). -/
def opOf (w : CmdWord) : BitVec 4 := w.extractLsb' 12 4

/-- `chan = cmd[11:8]` (R100, R101). -/
def chanOf (w : CmdWord) : BitVec 4 := w.extractLsb' 8 4

/-- `arg = cmd[7:0]` (R100, R101, R103). -/
def argOf (w : CmdWord) : Byte := w.extractLsb' 0 8

/-- The opcode map (R102): the command with operation number `op`. -/
def instrOfOp (op chan : BitVec 4) (arg : Byte) : Instr :=
  match op with
  | 0x0 => .encode chan arg
  | 0x1 => .decode chan arg
  | 0x2 => .init chan arg
  | 0x3 => .start chan arg
  | 0x4 => .stop chan arg
  | 0x5 => .getTime chan arg
  | 0x6 => .setTime chan arg
  | 0x7 => .setAlarm chan arg
  | 0x8 => .cancelAlarm chan arg
  | 0x9 => .getPendingInt chan arg
  | 0xA => .setOffsetMode chan arg
  | 0xB => .setOffsetValue chan arg
  | 0xC => .setCapSelect chan arg
  | 0xD => .getTick chan arg
  | 0xE => .setTop chan arg
  | _ => .getTop chan arg  -- 0xF, the one value that is left: no encoding is reserved (R105)

/-- The decoder dispatches on `op` alone (R101). -/
def decode (w : CmdWord) : Instr := instrOfOp (opOf w) (chanOf w) (argOf w)

/-- Why something is not a command word. The only length is 16 bits (R100). -/
inductive DecodeReject where
  /-- more than 16 bits are given for one word -/
  | tooLong
  /-- the number does not fit a 16-bit word -/
  | tooWide
  deriving DecidableEq, Repr

/-- Decoding of `nbits` bits whose value is `w`, bits above them 0: total, rejecting by name. -/
def decodeSized (nbits w : Nat) : Except DecodeReject Instr :=
  if nbits > 16 then .error .tooLong
  else if w ≥ 2 ^ 16 then .error .tooWide
  else .ok (decode (BitVec.ofNat 16 w))

/-- The instruction the decoder reads from an instruction of the opcode table's numbering (bit 0 the
least significant bit of the one word). -/
def decodeTableWord (nbits w : Nat) : Option Instr :=
  match decodeSized nbits w with
  | .ok i => some i
  | .error _ => none

/-- The operation number of a command (R102). -/
def Instr.op : Instr → BitVec 4
  | .encode _ _ => 0x0
  | .decode _ _ => 0x1
  | .init _ _ => 0x2
  | .start _ _ => 0x3
  | .stop _ _ => 0x4
  | .getTime _ _ => 0x5
  | .setTime _ _ => 0x6
  | .setAlarm _ _ => 0x7
  | .cancelAlarm _ _ => 0x8
  | .getPendingInt _ _ => 0x9
  | .setOffsetMode _ _ => 0xA
  | .setOffsetValue _ _ => 0xB
  | .setCapSelect _ _ => 0xC
  | .getTick _ _ => 0xD
  | .setTop _ _ => 0xE
  | .getTop _ _ => 0xF

/-- The channel field of a command (R100, R104). -/
def Instr.chan : Instr → BitVec 4
  | .encode c _ | .decode c _ | .init c _ | .start c _ | .stop c _ | .getTime c _ | .setTime c _
  | .setAlarm c _ | .cancelAlarm c _ | .getPendingInt c _ | .setOffsetMode c _
  | .setOffsetValue c _ | .setCapSelect c _ | .getTick c _ | .setTop c _ | .getTop c _ => c

/-- The immediate field of a command (R100, R103). -/
def Instr.arg : Instr → Byte
  | .encode _ a | .decode _ a | .init _ a | .start _ a | .stop _ a | .getTime _ a | .setTime _ a
  | .setAlarm _ a | .cancelAlarm _ a | .getPendingInt _ a | .setOffsetMode _ a
  | .setOffsetValue _ a | .setCapSelect _ a | .getTick _ a | .setTop _ a | .getTop _ a => a

/-- The command word of a command: `op`, `chan`, `arg` from the high bits down (R100). -/
def encode (i : Instr) : CmdWord := i.op ++ i.chan ++ i.arg

end Sys2Proof
end

