-- ==== Sys2Proof/Machine/State.lean ====
section
/-! DEFINITION. The state of the machine as plain data: the block's transient latches (10_state.md
R22), its host side (R46), its bus side (R24, 00_scope.md R13), the chip's register file (R25) and the
script of what the environment does (20_memory.md R65, R74, R76). Every type here is data; the
operations stand in Memory.lean and Ops.lean. -/

namespace Sys2Proof.Machine

/-- The three error kinds (60_exceptions.md R210). -/
inductive ErrorKind where
  | notReady
  | ioError
  | integrityError
  deriving DecidableEq, Repr

/-- The payload of an `Ok` response (30_encoding.md R107). -/
inductive Payload where
  | none
  | block (b : RawTimeBlock)
  | time (t : CalendarTime)
  | flag (f : Bool)
  | value (v : Byte)
  deriving DecidableEq, Repr

/-- The response to one command (R106, R107): an error carries no payload. -/
inductive Response where
  | ok (p : Payload)
  | error (k : ErrorKind)
  deriving DecidableEq, Repr

/-- One bus transaction (20_memory.md R61): kind, start register address, and the number of bytes
read or the bytes written. -/
inductive Txn where
  | read (a : Byte) (n : Nat)
  | write (a : Byte) (data : List Byte)
  deriving DecidableEq, Repr

/-- The outcome of a transaction as the trace shows it (R61, 00_scope.md R13). -/
inductive TxnOutcome where
  | okRead (bytes : List Byte)
  | okWrite
  | fail
  /-- issued, and not returned (R79) -/
  | pending
  deriving DecidableEq, Repr

/-- One line of the trace (00_scope.md R13). -/
structure TxnRecord where
  txn : Txn
  outcome : TxnOutcome
  deriving DecidableEq, Repr

/-- A transaction the block has issued and that has not returned (20_memory.md R79), and whether the
chip has lost power since it was issued (60_exceptions.md R229). -/
structure InFlight where
  txn : Txn
  powerLost : Bool
  deriving DecidableEq, Repr

/-- The moves (i) to (v) the chip may make by itself between transactions under `CHIP = Free`
(20_memory.md R76). -/
inductive ChipMove where
  /-- (i) the time block but for `OS` takes any values -/
  | clock (b : RawTimeBlock)
  /-- (ii) `TF` rises -/
  | raiseTF
  /-- (iii) `AF` rises -/
  | raiseAF
  /-- (iv) `OS` rises -/
  | raiseOS
  /-- (v) the timer-value register takes any value -/
  | countdown (v : Byte)
  deriving DecidableEq, Repr

/-- What an agent other than the block can do between two transactions of the block. -/
inductive EnvEvent where
  /-- a move of the chip (R76) -/
  | chip (m : ChipMove)
  /-- a transaction of another caller or bus master, numbered 1, 2, … (R74, 60_exceptions.md R226).
  `failed = none`: it returned `Ok`; `failed = some landed`: it failed, and `landed` says which of
  its bytes reached the chip (R66). -/
  | foreign (caller : Nat) (t : Txn) (failed : Option (List Bool))
  /-- the transport changes `BUS_READY` (10_state.md R24) -/
  | busReady (b : Bool)
  /-- a power event of the chip (R51, 60_exceptions.md R229): all registers take any contents,
  `OS` becomes 1; a transaction in flight then fails or never returns (R229). DESIGN CHOICE (log 18):
  it is an event of its own, no move of R76. -/
  | powerEvent (contents : Vector Byte 18)
  deriving DecidableEq, Repr

/-- What the transport answers to one transaction of the block (20_memory.md R65, R66, R79). -/
inductive BusAnswer where
  /-- the transaction completes -/
  | ok
  /-- the transaction fails; `landed` says which bytes of a write reached the chip all the same -/
  | fail (landed : List Bool)
  /-- the transaction has not returned yet: the command waits in it (R79). DESIGN CHOICE (log 9): no
  byte of a write is stored, and none of a read is taken, while the block waits for an answer that comes
  later. -/
  | noAnswer
  /-- the transaction never returns: the command hangs in it (R79, 70_reset_and_hazards.md R266,
  93_implementation_defined.md U13). DESIGN CHOICE (log 9): `landed` says which bytes of a write have
  reached the chip all the same; the spec does not say. -/
  | never (landed : List Bool)
  /-- the block is reset while the transaction is in flight (10_state.md R50) -/
  | blockReset (landed : List Bool)
  deriving DecidableEq, Repr

/-- The environment's part in one transaction: what other agents do after the previous one and
before this one (while it is in flight, where the slot before left it unanswered), and the transport's
answer. -/
structure Slot where
  before : List EnvEvent
  answer : BusAnswer
  deriving DecidableEq, Repr

/-- No agent moves and the transport answers `Ok`. -/
def Slot.quiet : Slot := ⟨[], .ok⟩

/-- A transaction that hangs for good, everything it does to the registers done (R79). -/
def Slot.hung : Slot := ⟨[], .never []⟩

/-- What happens while the block is idle (10_state.md R46, R50, 20_memory.md R74, R76). -/
inductive Input where
  /-- the host presents a command word and the data operand port -/
  | command (w : CmdWord) (o : Operand)
  /-- the same, and the block is reset during the command: after its first `n` steps and before the
  next step, or before the response where it has `n` steps (R50, log 10) -/
  | commandCut (w : CmdWord) (o : Operand) (n : Nat)
  /-- an event of another agent -/
  | env (e : EnvEvent)
  /-- the block is reset -/
  | blockReset
  deriving DecidableEq, Repr

/-- The register file as a sparse list of (address, byte) cells; what an address that is not listed
reads as is `Memory.unlisted` (Memory.lean). -/
abbrev Memory := List Host.Cell

structure State where
  /-- a command is in progress (R21, R50) -/
  busy : Bool
  /-- R22 `cmd`: the latched command word -/
  cmd : CmdWord
  /-- R22 `opnd`: the latched data operand -/
  opnd : Operand
  /-- R21, R22 `step`: how many steps of the command have returned `Ok`, at transaction
  granularity (log 11) -/
  step : Nat
  /-- R22 `tmp`: the byte read by the read half of an `Update` -/
  tmp : Byte
  /-- R22 `blk`: the time block between the codec and the bus -/
  blk : RawTimeBlock
  /-- the model's own: the position at which the block is reset during the command in progress, none
  if it is not reset between steps (R50, log 10) -/
  cut : Option Nat
  /-- 00_scope.md R13, 20_memory.md R79, 60_exceptions.md R229: the transaction the block has issued
  and that has not returned, none if it waits for none -/
  inFlight : Option InFlight
  /-- R46: the response to the last command, none while one is in progress (log 26) -/
  rsp : Option Response
  /-- 00_scope.md R13: the transactions of the command in progress or last ended that have returned or
  that a block reset cut (log 26); with `inFlight` they are those issued, `State.issued` (Ops.lean) -/
  trace : List TxnRecord
  /-- R24 `BUS_READY` -/
  busReady : Bool
  /-- R25 `REG[0x00..0x11]`, the chip's registers -/
  mem : Memory
  /-- the model's own: what the host and other agents do next while the block is idle (log 4) -/
  inputs : List Input
  /-- the model's own: the environment's part in the coming transactions (log 3) -/
  slots : List Slot
  /-- the model's own: how many free `yday` values have been drawn (log 6) -/
  draws : Nat
  deriving DecidableEq, Repr

/-- Stops of the model that the spec asks for as accesses that do not exist. -/
inductive Fault where
  /-- Raised by a transaction of the block itself that breaks the precondition of 20_memory.md R62
  and R63 (an address outside 0x00 to 0x11, a burst past 0x11, no byte). No command issues one
  (R69). Safe: the machine stops where the spec gives no meaning (log 15). -/
  | outsideRegisterMap
  deriving DecidableEq, Repr

/-- Reasons to give no meaning. -/
inductive Refusal where
  /-- Raised by exec's arm of an instruction that has no meaning yet. Safe. -/
  | notModelled (mnemonic : String)
  /-- Raised by an event in which another agent's transaction leaves the register map: the spec asks
  a model to refuse it (20_memory.md R81, 93_implementation_defined.md U8). Safe (log 14). -/
  | foreignOutsideMap
  deriving DecidableEq, Repr

/-- What a step or a meaning answers. -/
abbrev Result := Host.Outcome State Fault Refusal

/-- The machine right after reset (R50 to R52): idle, the transient latches dead, nothing answered,
the register file as `Memory.unlisted` gives it, no command presented. The values the spec does not
give are named in log 1, log 3, log 4, log 6, log 12, log 13. -/
def State.reset : State where
  busy := false
  cmd := 0
  opnd := .zero
  step := 0
  tmp := 0
  blk := .zero
  cut := none
  inFlight := none
  rsp := none
  trace := []
  busReady := true
  mem := []
  inputs := []
  slots := []
  draws := 0

end Sys2Proof.Machine
end

