-- ==== Sys2Proof/Machine/Memory.lean ====
section
/-! DEFINITION. The register file as memory (20_memory.md R60 to R72): reading and writing one cell,
bursts in ascending address order, and what a transaction reads and stores. -/

namespace Sys2Proof.Machine

/-- What an address that is not listed reads as. -/
def Memory.unlisted (a : Nat) : Byte := powerOn a

/-- `REG[a]`. -/
def Memory.get (m : Memory) (a : Nat) : Byte := (m.lookup a).getD (Memory.unlisted a)

/-- Put a cell in front of the first cell with a greater address. -/
def Memory.insertCell (c : Host.Cell) : Memory → Memory
  | [] => [c]
  | d :: ds => if c.1 < d.1 then c :: d :: ds else d :: Memory.insertCell c ds

/-- `REG[a] <- v` (R63: all 8 bits stored as written), keeping the canonical form. -/
def Memory.set (m : Memory) (a : Nat) (v : Byte) : Memory :=
  let others := m.filter (fun c => c.1 != a)
  if v = Memory.unlisted a then others else Memory.insertCell (a, v) others

/-- The canonical form: addresses strictly rising and inside the register map, no cell that holds
what an unlisted address reads as. -/
def Memory.wf (m : Memory) : Bool :=
  decide (m.Pairwise (fun c d => c.1 < d.1)) &&
  m.all (fun c => decide (c.1 < regCount) && decide (c.2 ≠ Memory.unlisted c.1))

/-- The `n` bytes from address `a` upward (R62, R67). -/
def Memory.readBytes (m : Memory) (a : Nat) : Nat → List Byte
  | 0 => []
  | n + 1 => m.get a :: Memory.readBytes m (a + 1) n

/-- Store bytes from address `a` upward (R63, R67). -/
def Memory.storeBytes (m : Memory) (a : Nat) : List Byte → Memory
  | [] => m
  | v :: vs => Memory.storeBytes (m.set a v) (a + 1) vs

/-- What a failed write leaves (R66): byte `k` is stored where `landed` has `true` at `k`, and the
cell keeps its value elsewhere. -/
def Memory.storeLanded (m : Memory) (a : Nat) (landed : List Bool) : List Byte → Memory
  | [] => m
  | v :: vs =>
    Memory.storeLanded (if landed.headD false then m.set a v else m) (a + 1) landed.tail vs

/-- The precondition of `MemRead` and `MemWrite` (R62, R63; `n >= 1` R61). -/
def Txn.inMap : Txn → Bool
  | .read a n => decide (1 ≤ n) && decide (a.toNat + n ≤ regCount)
  | .write a data => decide (1 ≤ data.length) && decide (a.toNat + data.length ≤ regCount)

/-- The bytes a transaction delivers when it completes (R62); a write delivers none. -/
def Txn.bytesRead (t : Txn) (m : Memory) : List Byte :=
  match t with
  | .read a n => m.readBytes a.toNat n
  | .write _ _ => []

/-- The register file after a transaction that completed (R63; a read changes nothing, R72). -/
def Txn.store (t : Txn) (m : Memory) : Memory :=
  match t with
  | .read _ _ => m
  | .write a data => m.storeBytes a.toNat data

/-- The register file after a transaction that failed (R66). -/
def Txn.storePart (t : Txn) (landed : List Bool) (m : Memory) : Memory :=
  match t with
  | .read _ _ => m
  | .write a data => m.storeLanded a.toNat landed data

/-- The outcome the trace records for a transaction that completed (R61). -/
def Txn.okOutcome (t : Txn) (m : Memory) : TxnOutcome :=
  match t with
  | .read a n => .okRead (m.readBytes a.toNat n)
  | .write _ _ => .okWrite

/-- `REG[a]` of a state. -/
def State.reg (s : State) (a : Byte) : Byte := s.mem.get a.toNat

end Sys2Proof.Machine
end

