-- ==== Sys2Proof/Machine/Flags.lean ====
section
/-! DEFINITION. The status flags and the named fields of the chip's registers (10_state.md R27 to
R41). There are no condition codes: every flag is a bit of a register, and each test or change of a
flag is written here once. -/

namespace Sys2Proof.Machine

/-- Some bit of `b` under `mask` is 1. -/
def bitSet (b mask : Byte) : Bool := b &&& mask != 0

/-- `b` with the bits of `mask` set. -/
def setBits (b mask : Byte) : Byte := b ||| mask

/-- The integrity check of a seconds byte: bit 7 (R31, 40_codec.md R139). -/
def osOf (seconds : Byte) : Bool := bitSet seconds secOS

/-- The timer flag of a control register 2 byte: bit 3 (R28, 43_alarm.md R182). -/
def tfOf (ctrl2 : Byte) : Bool := bitSet ctrl2 ctrl2TF

/-- `OS`, `TF`, `AF`, `STOP` of a state (R41). -/
def State.OS (s : State) : Bool := osOf (s.reg addrTime)
def State.TF (s : State) : Bool := tfOf (s.reg addrCtrl2)
def State.AF (s : State) : Bool := bitSet (s.reg addrCtrl2) ctrl2AF
def State.STOP (s : State) : Bool := bitSet (s.reg addrCtrl1) ctrl1Stop

/-- `AIE` (R28) and `CAP_SEL` (R27). -/
def State.AIE (s : State) : Bool := bitSet (s.reg addrCtrl2) ctrl2AIE
def State.CAP_SEL (s : State) : Bool := bitSet (s.reg addrCtrl1) ctrl1CapSel

/-- `MODE` and `OFFSET` (R29); the offset is a pattern, read as a signed number by `offsetSigned`. -/
def State.MODE (s : State) : Bool := bitSet (s.reg addrOffset) offsetMode
def State.OFFSET (s : State) : BitVec 7 := (s.reg addrOffset).extractLsb' 0 7

/-- The signed offset, -64 to +63 (R29): no command computes with it. -/
def offsetSigned (pattern : BitVec 7) : Int := pattern.toInt

/-- `TIMER_VALUE`, `TCF`, `TE`, `TIE`, `TI_TP` (R39, R40). -/
def State.TIMER_VALUE (s : State) : Byte := s.reg addrTimerValue
def State.TCF (s : State) : BitVec 2 := (s.reg addrTimerMode).extractLsb' 3 2
def State.TE (s : State) : Bool := bitSet (s.reg addrTimerMode) tmodeTE
def State.TIE (s : State) : Bool := bitSet (s.reg addrTimerMode) tmodeTIE
def State.TI_TP (s : State) : Bool := bitSet (s.reg addrTimerMode) tmodeTITP

/-- The time block `REG[0x04..0x0A]` (R26, R43). -/
def Memory.timeBlock (m : Memory) : RawTimeBlock :=
  ⟨m.get 0x04, m.get 0x05, m.get 0x06, m.get 0x07, m.get 0x08, m.get 0x09, m.get 0x0A⟩

end Sys2Proof.Machine
end

