-- ==== Sys2Proof/Machine/Operands.lean ====
section
/-! DEFINITION. How a command reads its immediate (30_encoding.md R103) and the value it puts under
the mask of its `Update` (R113). The channel field has no reading (R104). -/

namespace Sys2Proof.Machine

/-- `SET_ALARM`: `ticks = arg`, all 8 bits, raw (R103). -/
def ticksOf (arg : Byte) : Byte := arg

/-- `SET_OFFSET_MODE`: `mode = arg[0]` (R103). -/
def modeOf (arg : Byte) : BitVec 1 := arg.extractLsb' 0 1

/-- `SET_OFFSET_VALUE`: `value = arg[6:0]`, a 7-bit two's-complement pattern (R103). -/
def valueOf (arg : Byte) : BitVec 7 := arg.extractLsb' 0 7

/-- `SET_CAP_SELECT`: `sel = arg[0]` (R103). -/
def selOf (arg : Byte) : BitVec 1 := arg.extractLsb' 0 1

/-- `val = mode << 7` (R103, R113). -/
def modeVal (mode : BitVec 1) : Byte := mode.zeroExtend 8 <<< 7

/-- `val = value` (R113). -/
def valueVal (value : BitVec 7) : Byte := value.zeroExtend 8

/-- `val = sel` (R113). -/
def selVal (sel : BitVec 1) : Byte := sel.zeroExtend 8

/-- The mask of step (c) of `SET_ALARM`: `TCF`, `TE`, `TIE` (43_alarm.md R180, D14, log 20). -/
def armMask : Byte := tmodeTCF ||| tmodeTE ||| tmodeTIE

/-- The value of step (c) of `SET_ALARM`: 1 Hz, enabled, interrupt enabled (R180, D14, log 20). -/
def armVal : Byte := tmodeTCF1Hz ||| tmodeTE ||| tmodeTIE

/-- The mask of step (b) of `CANCEL_ALARM`: `TE`, `TIE`, `TI_TP` (R181). -/
def disarmMask : Byte := tmodeTE ||| tmodeTIE ||| tmodeTITP

/-- The new byte of an `Update`: `(tmp & ~mask) | (val & mask)` (20_memory.md R64). -/
def mergeBits (tmp mask val : Byte) : Byte := (tmp &&& ~~~mask) ||| (val &&& mask)

end Sys2Proof.Machine
end

