-- ==== Sys2Proof/Machine/Records.lean ====
section
/-! DEFINITION. The byte order and the packed forms of the data records (20_memory.md R67,
30_encoding.md R108). -/

namespace Sys2Proof

/-- `b[0..6]` in burst order (10_state.md R43). -/
def RawTimeBlock.toBytes (b : RawTimeBlock) : List Byte :=
  [b.seconds, b.minutes, b.hours, b.days, b.weekdays, b.months, b.years]

/-- The time block a burst of seven bytes delivers (20_memory.md R67). -/
def RawTimeBlock.ofBytes (v : List Byte) : RawTimeBlock :=
  ⟨v.getD 0 0, v.getD 1 0, v.getD 2 0, v.getD 3 0, v.getD 4 0, v.getD 5 0, v.getD 6 0⟩

/-- The 56-bit packed block, `b[0]` in bits 7:0 (R108). -/
def RawTimeBlock.pack (b : RawTimeBlock) : BitVec 56 :=
  b.years ++ b.months ++ b.weekdays ++ b.days ++ b.hours ++ b.minutes ++ b.seconds

/-- The block of a 56-bit packed form (R108). -/
def RawTimeBlock.unpack (v : BitVec 56) : RawTimeBlock :=
  ⟨v.extractLsb' 0 8, v.extractLsb' 8 8, v.extractLsb' 16 8, v.extractLsb' 24 8,
    v.extractLsb' 32 8, v.extractLsb' 40 8, v.extractLsb' 48 8⟩

/-- The 67-bit packed CalendarTime, `second` in bits 7:0 (R108). -/
def CalendarTime.pack (t : CalendarTime) : BitVec 67 :=
  BitVec.ofBool t.isdst ++ t.yday ++ t.year ++ t.month ++ t.weekday ++ t.mday ++ t.hour ++
    t.minute ++ t.second

/-- The CalendarTime of a 67-bit packed form (R108). -/
def CalendarTime.unpack (v : BitVec 67) : CalendarTime where
  second := v.extractLsb' 0 8
  minute := v.extractLsb' 8 8
  hour := v.extractLsb' 16 8
  mday := v.extractLsb' 24 8
  weekday := v.extractLsb' 32 8
  month := v.extractLsb' 40 8
  year := v.extractLsb' 48 9
  yday := v.extractLsb' 57 9
  isdst := v.getLsbD 66

end Sys2Proof
end

