-- ==== Sys2Proof/Machine/Ops.lean ====
section
/-! DEFINITION. The shared operations: what other agents do (20_memory.md R74, R76), one transaction
with the transport's answer (R62, R63, R65, R66, R79), how a command ends, with a response or with an
error (60_exceptions.md R214, R216), the reset of the block (10_state.md R50), and the sequencer that
runs a command's steps in order (R21, R70). -/

namespace Sys2Proof.Machine

/-! ### Other agents -/

/-- A move of the chip by itself (R76 `Free`). -/
def ChipMove.apply (c : ChipMove) (m : Memory) : Memory :=
  match c with
  | .clock b =>
    m.storeBytes addrTime.toNat
      (RawTimeBlock.toBytes { b with
        seconds := mergeBits (m.get addrTime.toNat) (~~~secOS) b.seconds })
  | .raiseTF => m.set addrCtrl2.toNat (setBits (m.get addrCtrl2.toNat) ctrl2TF)
  | .raiseAF => m.set addrCtrl2.toNat (setBits (m.get addrCtrl2.toNat) ctrl2AF)
  | .raiseOS => m.set addrTime.toNat (setBits (m.get addrTime.toNat) secOS)
  | .countdown v => m.set addrTimerValue.toNat v

/-- The register file after a power event of the chip (R51, R229, log 18). -/
def powerUp (contents : Vector Byte 18) (m : Memory) : Memory :=
  let m' := m.storeBytes 0 contents.toList
  m'.set addrTime.toNat (setBits (m'.get addrTime.toNat) secOS)

/-- The chip loses power while the transaction is in flight (R229). -/
def InFlight.losePower (x : InFlight) : InFlight := { x with powerLost := true }

/-- One event of another agent; `none` where the spec asks a model to refuse it (R81, U8). -/
def EnvEvent.apply (e : EnvEvent) (s : State) : Option State :=
  match e with
  | .chip c => some { s with mem := c.apply s.mem }
  | .foreign _ t failed =>
    if t.inMap then
      match failed with
      | none => some { s with mem := t.store s.mem }
      | some landed => some { s with mem := t.storePart landed s.mem }
    else none
  | .busReady b => some { s with busReady := b }
  | .powerEvent contents =>
    some { s with
      mem := powerUp contents s.mem, inFlight := s.inFlight.map InFlight.losePower }

/-- Events in order (R73). -/
def applyEvents : List EnvEvent → State → Option State
  | [], s => some s
  | e :: es, s =>
    match e.apply s with
    | some s' => applyEvents es s'
    | none => none

/-! ### How a command ends -/

/-- Discard the transient state (R216 (2), R20): the latches take their dead values (log 12). -/
def State.dropTransient (s : State) : State :=
  { s with
    busy := false, cmd := 0, opnd := .zero, step := 0, tmp := 0, blk := .zero, cut := none,
    inFlight := none }

/-- Taking an exception (R216, 00_scope.md R10): the command ends at once with the error's code and
no payload; nothing is undone, saved or entered. There is no return from it (R218). -/
def raise (k : ErrorKind) (s : State) : State :=
  { s.dropTransient with rsp := some (.error k) }

/-- `respond Ok(payload)` (00_scope.md R10). -/
def respondOk (p : Payload) (s : State) : State :=
  { s.dropTransient with rsp := some (.ok p) }

/-- Reset of the block (10_state.md R50): idle, no response, no transaction, `REG` untouched. DESIGN
CHOICE (log 10, log 26): R50 speaks only of a command in progress; a reset of an idle block, too,
empties the response of the last command and keeps its trace. -/
def blockReset (s : State) : State :=
  { s.dropTransient with rsp := none }

/-- The result code of a response (30_encoding.md R106). -/
def Response.code : Response → BitVec 2
  | .ok _ => 0
  | .error .notReady => 1
  | .error .ioError => 2
  | .error .integrityError => 3

/-- Accept a command (R21, R22, R46): latch it, set the position to the first step, take away the
last response and the last trace (log 26). -/
def accept (w : CmdWord) (o : Operand) (s : State) : State :=
  { s with
    busy := true, cmd := w, opnd := o, step := 0, cut := none, inFlight := none, rsp := none,
    trace := [] }

/-- Let a block reset come during the command in progress, when `n` steps have returned (R50). -/
def State.cutAt (n : Nat) (s : State) : State := { s with cut := some n }

/-- The block is reset now, before the next step or the response (R50). -/
def State.isCut (s : State) : Bool := s.cut == some s.step

/-! ### One transaction -/

/-- What performing one step of a command leads to. -/
inductive StepEnd where
  /-- the step returned `Ok` -/
  | done (s : State)
  /-- the step raises an error -/
  | raised (k : ErrorKind) (s : State)
  /-- the transaction has not returned -/
  | waiting (s : State)
  /-- the block was reset during the transaction -/
  | abandoned (s : State)
  /-- the transaction would leave the register map -/
  | outsideMap
  /-- another agent's transaction would leave the register map -/
  | foreignOutside
  deriving DecidableEq, Repr

/-- The environment's part in the next transaction; a script that has run out answers `Ok` and
moves nothing (log 3). -/
def State.nextSlot (s : State) : Slot := s.slots.headD .quiet

/-- A transaction that returned, or that a block reset cut: it goes from in flight to the trace
(00_scope.md R13). -/
def State.record (t : Txn) (o : TxnOutcome) (s : State) : State :=
  { s with inFlight := none, trace := s.trace ++ [⟨t, o⟩] }

/-- Whether the chip has lost power since the transaction in flight was issued (60_exceptions.md
R229). -/
def State.powerLost (s : State) : Bool := s.inFlight.any (·.powerLost)

/-- A transaction that was issued and has not returned stays in flight (R79, R13). -/
def State.hold (t : Txn) (s : State) : State := { s with inFlight := some ⟨t, s.powerLost⟩ }

/-- What can be observed of the transactions of the command in progress or last ended (00_scope.md
R13): all that were issued, in order, the one in flight with the outcome `pending`. -/
def State.issued (s : State) : List TxnRecord :=
  s.trace ++ (s.inFlight.map fun x => ⟨x.txn, .pending⟩).toList

/-- What an answer of the script stands for when the chip has lost power under the transaction: it
fails or never returns (60_exceptions.md R229). DESIGN CHOICE (log 18): the answer `ok` stands for a
failure. DEDUCED (log 18): nothing of a write is stored after the power event, whose `OS` = 1 stays
until a SET_TIME succeeds. -/
def BusAnswer.afterPowerLoss : BusAnswer → BusAnswer
  | .ok | .fail _ => .fail []
  | .noAnswer => .noAnswer
  | .never _ => .never []
  | .blockReset _ => .blockReset []

/-- The answer the block gets. -/
def State.answerFrom (s : State) (answer : BusAnswer) : BusAnswer :=
  if s.powerLost then answer.afterPowerLoss else answer

/-- The end of a transaction, given the transport's answer, at the instant it takes effect (R71).
`take` latches the bytes that were read. DESIGN CHOICE (log 9): that instant is the return, after the
events of the wait, for a read and for a write: a read that waited delivers the registers as they are when
it returns; while a write has not returned, none of its bytes is stored; where it never returns, `landed` says which are, and the slot stays in front of
the script for good. -/
def settle (t : Txn) (take : List Byte → State → State) (answer : BusAnswer) (s : State) : StepEnd :=
  match answer with
  | .ok =>
    .done (take (t.bytesRead s.mem)
      { s.record t (t.okOutcome s.mem) with mem := t.store s.mem })
  | .fail landed => .raised .ioError { s.record t .fail with mem := t.storePart landed s.mem }
  | .noAnswer => .waiting (s.hold t)
  | .never landed =>
    .waiting { s.hold t with mem := t.storePart landed s.mem, slots := .hung :: s.slots }
  | .blockReset landed => .abandoned { s.record t .fail with mem := t.storePart landed s.mem }

/-- One transaction of the block: other agents act, then the transport answers (R62, R63, R65, R70,
R74, R79). A power event of the chip among those events, while the transaction waits (a `noAnswer` slot
before), leaves it in flight with its power lost, and it fails or never returns (60_exceptions.md R229).
DESIGN CHOICE (log 18): one before the transaction is issued leaves its outcome free (R65). -/
def transact (t : Txn) (take : List Byte → State → State) (s : State) : StepEnd :=
  if t.inMap then
    match applyEvents s.nextSlot.before { s with slots := s.slots.tail } with
    | none => .foreignOutside
    | some s' => settle t take (s'.answerFrom s.nextSlot.answer) s'
  else .outsideMap

/-! ### The steps of a command -/

/-- The steps commands are made of; each but `sampleReady` is one transaction (R64, log 11). -/
inductive CmdStep where
  /-- test `BUS_READY` (41_control.md R160) -/
  | sampleReady
  /-- read one byte and discard it (R160) -/
  | probe (a : Byte)
  /-- read one byte into `tmp`: the first half of an `Update`, or the read of a poll -/
  | readTmp (a : Byte)
  /-- the second half of an `Update`: write `tmp` back, changed under the mask -/
  | writeBack (a mask val : Byte)
  /-- a plain write of one byte -/
  | writeByte (a v : Byte)
  /-- the burst read of the time block into `blk` -/
  | readBlock (a : Byte)
  /-- the burst write of `blk` -/
  | writeBlock (a : Byte)
  deriving DecidableEq, Repr

/-- Perform one step. -/
def CmdStep.perform (c : CmdStep) (s : State) : StepEnd :=
  match c with
  | .sampleReady => if s.busReady then .done s else .raised .notReady s
  | .probe a => transact (.read a 1) (fun _ s => s) s
  | .readTmp a => transact (.read a 1) (fun v s => { s with tmp := v.headD 0 }) s
  | .writeBack a mask val => transact (.write a [mergeBits s.tmp mask val]) (fun _ s => s) s
  | .writeByte a v => transact (.write a [v]) (fun _ s => s) s
  | .readBlock a => transact (.read a blockLen) (fun v s => { s with blk := .ofBytes v }) s
  | .writeBlock a => transact (.write a s.blk.toBytes) (fun _ s => s) s

/-- `Update(a, mask, val)`: the two steps of a read-modify-write (20_memory.md R64). The write is
always issued when the read succeeded. -/
def update (a mask val : Byte) : List CmdStep := [.readTmp a, .writeBack a mask val]

/-- One step forward (R21). -/
def State.advance (s : State) : State := { s with step := s.step + 1 }

/-- Run steps in order, one at a time; the first that does not return `Ok` ends or suspends the
command (R70, R214, R216, R217), and a block reset that comes before a step or before the response
abandons it (R50). `finish` gives the response when all have returned `Ok`. -/
def runSteps (finish : State → State) : List CmdStep → State → Result
  | [], s => if s.isCut then .next (blockReset s) else .next (finish s)
  | c :: rest, s =>
    if s.isCut then .next (blockReset s)
    else
      match c.perform s with
      | .done s' => runSteps finish rest s'.advance
      | .raised k s' => .next (raise k s')
      | .waiting s' => .next s'
      | .abandoned s' => .next (blockReset s')
      | .outsideMap => .fault .outsideRegisterMap
      | .foreignOutside => .refused .foreignOutsideMap

/-- Run a command's steps from the position it has reached: from the first after `accept`, from the
transaction it waits in otherwise (R21, R79). -/
def runCommand (steps : List CmdStep) (finish : State → State) (s : State) : Result :=
  runSteps finish (steps.drop s.step) s

end Sys2Proof.Machine
end

