-- ==== Sys2Proof/Machine/Alarm.lean ====
section
/-! DEFINITION. SET_ALARM, CANCEL_ALARM, GET_PENDING_INT (43_alarm.md): the countdown timer. -/

namespace Sys2Proof.Machine

/-- SET_ALARM (R180): (a) clear `TF`, (b) write the tick count, (c) arm the timer. The order of the
five transactions is normative (70_reset_and_hazards.md R257). -/
def execSetAlarm (_chan : BitVec 4) (arg : Byte) (s : State) : Result :=
  runCommand
    (update addrCtrl2 ctrl2TF 0x00 ++ [.writeByte addrTimerValue (ticksOf arg)] ++
      update addrTimerMode armMask armVal)
    (respondOk .none) s

/-- CANCEL_ALARM (R181): (a) clear `TF`, (b) disarm the timer. -/
def execCancelAlarm (_chan : BitVec 4) (_arg : Byte) (s : State) : Result :=
  runCommand (update addrCtrl2 ctrl2TF 0x00 ++ update addrTimerMode disarmMask 0x00)
    (respondOk .none) s

/-- GET_PENDING_INT (R182): answer `TF` of control register 2; nothing is cleared. -/
def execGetPendingInt (_chan : BitVec 4) (_arg : Byte) (s : State) : Result :=
  runCommand [.readTmp addrCtrl2] (fun s' => respondOk (.flag (tfOf s'.tmp)) s') s

end Sys2Proof.Machine
end

