-- ==== Sys2Proof/Machine/Calibration.lean ====
section
/-! DEFINITION. SET_OFFSET_MODE, SET_OFFSET_VALUE, SET_CAP_SELECT (44_calibration.md). -/

namespace Sys2Proof.Machine

/-- SET_OFFSET_MODE (R190): bit 7 of the offset register becomes `arg[0]`. -/
def execSetOffsetMode (_chan : BitVec 4) (arg : Byte) (s : State) : Result :=
  runCommand (update addrOffset offsetMode (modeVal (modeOf arg))) (respondOk .none) s

/-- SET_OFFSET_VALUE (R191): bits 6:0 of the offset register become `arg[6:0]`. -/
def execSetOffsetValue (_chan : BitVec 4) (arg : Byte) (s : State) : Result :=
  runCommand (update addrOffset offsetValue (valueVal (valueOf arg))) (respondOk .none) s

/-- SET_CAP_SELECT (R192): bit 0 of control register 1 becomes `arg[0]`. -/
def execSetCapSelect (_chan : BitVec 4) (arg : Byte) (s : State) : Result :=
  runCommand (update addrCtrl1 ctrl1CapSel (selVal (selOf arg))) (respondOk .none) s

end Sys2Proof.Machine
end

