-- ==== Sys2Proof/Machine/Codec.lean ====
section
/-! DEFINITION. The Register Codec (40_codec.md): its helper functions and the commands ENCODE and
DECODE. All arithmetic is on naturals and narrowed at the end (R142). -/

namespace Sys2Proof.Machine

/-- `bcd_pack` (R130): tens in the high nibble, units in the low one, truncated to 8 bits. -/
def bcdPack (v : Nat) : Byte := BitVec.ofNat 8 ((v / 10) <<< 4 ||| v % 10)

/-- `bcd_unpack` (R131): no nibble is checked. -/
def bcdUnpack (b : Byte) : Nat := (b &&& bcdUnits).toNat + ((b &&& bcdTens) >>> 4).toNat * 10

/-- `bcd_unpack_sec` (R132): the tens digit of the seconds byte has 3 bits. -/
def bcdUnpackSec (b : Byte) : Nat := (b &&& bcdUnits).toNat + ((b &&& secTens) >>> 4).toNat * 10

/-- `is_leap` of a Gregorian year (R133). -/
def isLeap (y : Nat) : Bool := (y % 4 == 0 && y % 100 != 0) || y % 400 == 0

/-- `CUM_COMMON` (R134). -/
def cumCommon : List Nat := [0, 31, 59, 90, 120, 151, 181, 212, 243, 273, 304, 334]

/-- `CUM_LEAP` (R134). -/
def cumLeap : List Nat := [0, 31, 60, 91, 121, 152, 182, 213, 244, 274, 305, 335]

/-- `day_of_year` (R135), used only where `ydayDefined` holds. -/
def dayOfYear (y month mday : Nat) : Nat :=
  (if isLeap y then cumLeap else cumCommon).getD (month - 1) 0 + (mday - 1)

/-- Where `day_of_year` is defined (R135): month 1 to 12 and day at least 1. -/
def ydayDefined (month mday : Nat) : Bool :=
  decide (1 ≤ month) && decide (month ≤ 12) && decide (1 ≤ mday)

/-- The RawTimeBlock `ENCODE` computes (R136, masks R138); out-of-range fields follow the formula
(R145, log 7). `yday` and `isdst` are ignored. -/
def encodeTime (t : CalendarTime) : RawTimeBlock where
  seconds := bcdPack t.second.toNat &&& secondsMask
  minutes := bcdPack t.minute.toNat &&& minutesMask
  hours := bcdPack t.hour.toNat &&& hoursMask
  days := bcdPack t.mday.toNat &&& daysMask
  weekdays := t.weekday &&& weekdayMask
  months := bcdPack t.month.toNat &&& monthsMask
  years := bcdPack (t.year.toNat % 100) &&& yearsMask

/-- The month and the day of month a block decodes to (R137). -/
def monthOf (b : RawTimeBlock) : Nat := bcdUnpack b.months
def mdayOf (b : RawTimeBlock) : Nat := bcdUnpack b.days

/-- The Gregorian year a block decodes to, `Y = 2000 + bcd_unpack(b[6])` (R133, R137). -/
def gregorianOf (b : RawTimeBlock) : Nat := 2000 + bcdUnpack b.years

/-- Whether the block's `yday` is defined (R135). -/
def blockYdayDefined (b : RawTimeBlock) : Bool := ydayDefined (monthOf b) (mdayOf b)

/-- The CalendarTime `DECODE` computes from a block whose `OS` is 0 (R137, R143, R144); `free` is
the value of `yday` where the spec leaves it unspecified (log 6). -/
def calendarOf (b : RawTimeBlock) (free : BitVec 9) : CalendarTime where
  second := BitVec.ofNat 8 (bcdUnpackSec b.seconds)
  minute := BitVec.ofNat 8 (bcdUnpack b.minutes)
  hour := BitVec.ofNat 8 (bcdUnpack b.hours)
  mday := BitVec.ofNat 8 (mdayOf b)
  weekday := b.weekdays &&& weekdayMask
  month := BitVec.ofNat 8 (monthOf b)
  year := BitVec.ofNat 9 (bcdUnpack b.years + 100)
  yday :=
    if blockYdayDefined b then BitVec.ofNat 9 (dayOfYear (gregorianOf b) (monthOf b) (mdayOf b))
    else free
  isdst := false

/-- End a command with the decoding of a block (R137, R139): the integrity check comes first; a free
`yday` is drawn only where the spec states none. -/
def respondDecoded (b : RawTimeBlock) (s : State) : State :=
  if osOf b.seconds then raise .integrityError s
  else if blockYdayDefined b then respondOk (.time (calendarOf b 0)) s
  else respondOk (.time (calendarOf b (Config.freeYday s.draws))) { s with draws := s.draws + 1 }

/-- ENCODE (R136). -/
def execEncode (_chan : BitVec 4) (_arg : Byte) (s : State) : Result :=
  runCommand [] (fun s' => respondOk (.block (encodeTime s'.opnd.time)) s') s

/-- DECODE (R137). -/
def execDecode (_chan : BitVec 4) (_arg : Byte) (s : State) : Result :=
  runCommand [] (fun s' => respondDecoded s'.opnd.block s') s

end Sys2Proof.Machine
end

