-- ==== Sys2Proof/Machine/Control.lean ====
section
/-! DEFINITION. INIT, START, STOP (41_control.md). -/

namespace Sys2Proof.Machine

/-- INIT (R160): `NotReady` before any transaction, else one probe read whose byte is discarded. -/
def execInit (_chan : BitVec 4) (_arg : Byte) (s : State) : Result :=
  runCommand [.sampleReady, .probe probeAddr] (respondOk .none) s

/-- START (R161): clear `STOP`, keep the rest of control register 1. -/
def execStart (_chan : BitVec 4) (_arg : Byte) (s : State) : Result :=
  runCommand (update addrCtrl1 ctrl1Stop 0x00) (respondOk .none) s

/-- STOP (R162): set `STOP`, keep the rest of control register 1. -/
def execStop (_chan : BitVec 4) (_arg : Byte) (s : State) : Result :=
  runCommand (update addrCtrl1 ctrl1Stop ctrl1Stop) (respondOk .none) s

end Sys2Proof.Machine
end

