-- ==== Sys2Proof/Machine/Stubs.lean ====
section
/-! DEFINITION. GET_TICK, SET_TOP, GET_TOP (45_host_stubs.md): no transaction, success, value 0
(decision D20, log 19). -/

namespace Sys2Proof.Machine

/-- GET_TICK (R200). -/
def execGetTick (_chan : BitVec 4) (_arg : Byte) (s : State) : Result :=
  runCommand [] (respondOk (.value 0)) s

/-- SET_TOP (R201): takes no operand and stores nothing. -/
def execSetTop (_chan : BitVec 4) (_arg : Byte) (s : State) : Result :=
  runCommand [] (respondOk .none) s

/-- GET_TOP (R202): 0, not `MAX_TICK`. -/
def execGetTop (_chan : BitVec 4) (_arg : Byte) (s : State) : Result :=
  runCommand [] (respondOk (.value 0)) s

end Sys2Proof.Machine
end

