-- ==== Sys2Proof/Machine/Time.lean ====
section
/-! DEFINITION. GET_TIME, SET_TIME (42_time.md). -/

namespace Sys2Proof.Machine

/-- GET_TIME (R170): one burst read, then the decoding of the block that was read. -/
def execGetTime (_chan : BitVec 4) (_arg : Byte) (s : State) : Result :=
  runCommand [.readBlock addrTime] (fun s' => respondDecoded s'.blk s') s

/-- SET_TIME (R171): encode the operand into `blk`, then one burst write. -/
def execSetTime (_chan : BitVec 4) (_arg : Byte) (s : State) : Result :=
  runCommand [.writeBlock addrTime] (respondOk .none) { s with blk := encodeTime s.opnd.time }

end Sys2Proof.Machine
end

