-- ==== Sys2Proof/Machine/Dispatch.lean ====
section
/-! DEFINITION. exec: one arm per command (30_encoding.md R102). -/

namespace Sys2Proof.Machine

def exec (i : Instr) (s : State) : Host.Outcome State Fault Refusal :=
  match i with
  | .encode chan arg => Sys2Proof.Machine.execEncode chan arg s
  | .decode chan arg => Sys2Proof.Machine.execDecode chan arg s
  | .init chan arg => Sys2Proof.Machine.execInit chan arg s
  | .start chan arg => Sys2Proof.Machine.execStart chan arg s
  | .stop chan arg => Sys2Proof.Machine.execStop chan arg s
  | .getTime chan arg => Sys2Proof.Machine.execGetTime chan arg s
  | .setTime chan arg => Sys2Proof.Machine.execSetTime chan arg s
  | .setAlarm chan arg => Sys2Proof.Machine.execSetAlarm chan arg s
  | .cancelAlarm chan arg => Sys2Proof.Machine.execCancelAlarm chan arg s
  | .getPendingInt chan arg => Sys2Proof.Machine.execGetPendingInt chan arg s
  | .setOffsetMode chan arg => Sys2Proof.Machine.execSetOffsetMode chan arg s
  | .setOffsetValue chan arg => Sys2Proof.Machine.execSetOffsetValue chan arg s
  | .setCapSelect chan arg => Sys2Proof.Machine.execSetCapSelect chan arg s
  | .getTick chan arg => Sys2Proof.Machine.execGetTick chan arg s
  | .setTop chan arg => Sys2Proof.Machine.execSetTop chan arg s
  | .getTop chan arg => Sys2Proof.Machine.execGetTop chan arg s

end Sys2Proof.Machine
end

