-- ==== Sys2Proof/Machine/HostSide.lean ====
section
/-! DEFINITION. The host side between commands (10_state.md R46, R50, R52): what one input does when it
is no command, and how one command word is put in front of the host's script. -/

namespace Sys2Proof.Machine

/-- An event of another agent, or a refusal (20_memory.md R81). -/
def takeEvent (e : EnvEvent) (s : State) : Result :=
  match e.apply s with
  | some s' => .next s'
  | none => .refused .foreignOutsideMap

/-- Present one command word in front of everything else: the block is idle (a command in progress
is dropped) and the data operand port carries what the operand latch holds (log 4). -/
def presentCommand (w : CmdWord) (s : State) : State :=
  { s.dropTransient with inputs := .command w s.opnd :: s.inputs }

end Sys2Proof.Machine
end

