-- ==== Sys2Proof/Machine/Step.lean ====
section
/-! DEFINITION. One step of the machine: a command in progress goes on from the transaction it waits
in (20_memory.md R79); an idle block takes the next input, accepting a command (10_state.md R46) and
running it, or waits (R52). -/

namespace Sys2Proof.Machine

def step (s : State) : Host.Outcome State Fault Refusal :=
  if s.busy then exec (decode s.cmd) s
  else
    match s.inputs with
    | [] => .next s
    | .command w o :: rest => exec (decode w) (accept w o { s with inputs := rest })
    | .commandCut w o n :: rest =>
      exec (decode w) ((accept w o { s with inputs := rest }).cutAt n)
    | .env e :: rest => takeEvent e { s with inputs := rest }
    | .blockReset :: rest => .next (blockReset { s with inputs := rest })

/-- The state in which the host presents the command word `w` next (bits above `nbits` are 0). -/
def State.withFetchWord (s : State) (nbits w : Nat) : State :=
  presentCommand (BitVec.ofNat 16 (w % 2 ^ nbits)) s

end Sys2Proof.Machine
end

