-- ==== Sys2Proof/Machine/Assembler.lean ====
section
/-! DEFINITION. The assembler's operand forms and the host interface's names (30_encoding.md R109,
R110), above the level of text: a line is its mnemonic with its operands (log 30). -/

namespace Sys2Proof.Machine

/-- One line of a program (R109); `ch` is the optional channel. -/
inductive AsmLine where
  | encode (t : CalendarTime)
  | decode (b : RawTimeBlock)
  | init
  | start
  | stop
  | getTime
  | setTime (t : CalendarTime)
  | setAlarm (ch : Option Nat) (ticks : Nat)
  | cancelAlarm (ch : Option Nat)
  | getPendingInt
  | setOffsetMode (mode : Nat)
  | setOffsetValue (n : Int)
  | setCapSelect (sel : Nat)
  | getTick
  | setTop
  | getTop
  deriving DecidableEq, Repr

/-- The channel field: the `ch=` value or 0 (R109). -/
def chanField (ch : Option Nat) : Option (BitVec 4) :=
  let c := ch.getD 0
  if c < 16 then some (BitVec.ofNat 4 c) else none

/-- An unsigned immediate below `bound`. -/
def argField (bound n : Nat) : Option Byte := if n < bound then some (BitVec.ofNat 8 n) else none

/-- The immediate of `SET_OFFSET_VALUE n`: `n + 128` for negative `n`, so that `arg[6:0]` is the
two's-complement pattern and `arg[7]` is 0 (R110). -/
def offsetField (n : Int) : Option Byte :=
  if -64 ≤ n ∧ n ≤ 63 then
    some (BitVec.ofNat 8 (if n < 0 then n + 128 else n).toNat)
  else none

/-- The command and the data operand a line stands for; `none` where an operand does not fit.
Every ignored field is 0 (R109). -/
def assemble (l : AsmLine) : Option (Instr × Operand) :=
  match l with
  | .encode t => some (.encode 0 0, ⟨t, .zero⟩)
  | .decode b => some (.decode 0 0, ⟨.zero, b⟩)
  | .init => some (.init 0 0, .zero)
  | .start => some (.start 0 0, .zero)
  | .stop => some (.stop 0 0, .zero)
  | .getTime => some (.getTime 0 0, .zero)
  | .setTime t => some (.setTime 0 0, ⟨t, .zero⟩)
  | .setAlarm ch ticks =>
    (chanField ch).bind fun c => (argField 256 ticks).map fun a => (.setAlarm c a, .zero)
  | .cancelAlarm ch => (chanField ch).map fun c => (.cancelAlarm c 0, .zero)
  | .getPendingInt => some (.getPendingInt 0 0, .zero)
  | .setOffsetMode mode => (argField 2 mode).map fun a => (.setOffsetMode 0 a, .zero)
  | .setOffsetValue n => (offsetField n).map fun a => (.setOffsetValue 0 a, .zero)
  | .setCapSelect sel => (argField 2 sel).map fun a => (.setCapSelect 0 a, .zero)
  | .getTick => some (.getTick 0 0, .zero)
  | .setTop => some (.setTop 0 0, .zero)
  | .getTop => some (.getTop 0 0, .zero)

/-- The host counter interface's operations (R110). -/
inductive HostCall where
  | start
  | stop
  | getCurrentTick
  | setAlarm (channel ticks : Nat)
  | cancelAlarm (channel : Nat)
  | setTopValue
  | getPendingInterrupt
  | getTopValue
  deriving DecidableEq, Repr

/-- Each is another name of a command (R110). -/
def HostCall.line : HostCall → AsmLine
  | .start => .start
  | .stop => .stop
  | .getCurrentTick => .getTick
  | .setAlarm channel ticks => .setAlarm (some channel) ticks
  | .cancelAlarm channel => .cancelAlarm (some channel)
  | .setTopValue => .setTop
  | .getPendingInterrupt => .getPendingInt
  | .getTopValue => .getTop

end Sys2Proof.Machine
end

