-- ==== Sys2Proof/Safety.lean ====
section
/-! DEFINITION. The terms claims are stated in: which environment scripts the open parameters admit,
scripts in which nobody interferes, the transactions a command is allowed, and the invariant of the
machine. -/

namespace Sys2Proof.Machine

/-! ### The open parameters (00_scope.md R6) as restrictions of the script -/

/-- The events the parameters admit: chip moves under `CHIP = Free` (20_memory.md R76), callers
numbered below `N_CALLERS` where the block is number 0 (R74). A power event is no move of R76 and is
admitted by none (log 18). -/
def EnvEvent.admitted (p : Config.Params) : EnvEvent → Bool
  | .chip _ => p.chip == .free
  | .foreign caller _ _ => decide (1 ≤ caller) && decide (caller < p.nCallers)
  | .busReady _ => true
  | .powerEvent _ => false

/-- Under `FAIR_BUS` every transaction returns in the end (R79): a late one is admitted, one that never
returns is not. -/
def BusAnswer.admitted (p : Config.Params) : BusAnswer → Bool
  | .never _ => !p.fairBus
  | .ok | .fail _ | .noAnswer | .blockReset _ => true

def Slot.admitted (p : Config.Params) (sl : Slot) : Bool :=
  sl.before.all (·.admitted p) && sl.answer.admitted p

def Input.admitted (p : Config.Params) : Input → Bool
  | .env e => e.admitted p
  | .command _ _ | .commandCut _ _ _ | .blockReset => true

/-- The environment script of a state is one the parameters admit. -/
def State.admitted (p : Config.Params) (s : State) : Bool :=
  s.inputs.all (·.admitted p) && s.slots.all (·.admitted p)

/-! ### Scripts -/

/-- No agent acts between the block's transactions. -/
def State.silent (s : State) : Bool := s.slots.all (fun sl => sl.before == [])

/-- The next `k` transactions are answered `Ok` and nobody acts before them. -/
def State.quietFor (k : Nat) (s : State) : Prop := ∀ j, j < k → s.slots.getD j .quiet = .quiet

/-- The next `k` transactions are answered `Ok`, whatever agents do between them. -/
def State.answeredOk (k : Nat) (s : State) : Prop :=
  ∀ j, j < k → (s.slots.getD j .quiet).answer = .ok

/-- The `k` next transactions are quiet and the one after them has the answer `x`, nobody acting
before it. -/
def State.quietThen (k : Nat) (x : BusAnswer) (s : State) : Prop :=
  s.quietFor k ∧ s.slots.getD k .quiet = ⟨[], x⟩

/-- An event that stays inside the register map. -/
def EnvEvent.inMap : EnvEvent → Bool
  | .foreign _ t _ => t.inMap
  | .chip _ | .busReady _ | .powerEvent _ => true

/-- An event that is a move of the chip or a change of `BUS_READY` (`N_CALLERS` = 1, `CHIP` = Free). -/
def EnvEvent.chipOnly : EnvEvent → Bool
  | .chip _ | .busReady _ => true
  | .foreign _ _ _ | .powerEvent _ => false

/-- A power event of the chip (60_exceptions.md R229). -/
def EnvEvent.isPowerEvent : EnvEvent → Bool
  | .powerEvent _ => true
  | .chip _ | .foreign _ _ _ | .busReady _ => false

def Input.events : Input → List EnvEvent
  | .env e => [e]
  | .command _ _ | .commandCut _ _ _ | .blockReset => []

/-- Every event of the script satisfies `p`. -/
def State.everyEvent (p : EnvEvent → Bool) (s : State) : Bool :=
  s.inputs.all (fun x => x.events.all p) && s.slots.all (fun sl => sl.before.all p)

/-- The state in which the block has ended a command (or has been reset): idle, latches dead, no
transaction in flight. -/
def State.atRest (s : State) : Prop :=
  s.busy = false ∧ s.cmd = 0 ∧ s.opnd = .zero ∧ s.step = 0 ∧ s.tmp = 0 ∧ s.blk = .zero ∧
  s.cut = none ∧ s.inFlight = none

/-- A command stands at its first step, is not going to be cut by a block reset between steps, and
waits for no transaction. -/
def State.begun (s : State) : Prop := s.step = 0 ∧ s.cut = none ∧ s.inFlight = none

/-- `t` is what the end of a command in `s` leaves, but for the response, the trace, the registers,
the part of the script that was used and the draws: at rest, `BUS_READY` and the host's script as
they were. -/
def State.endedFrom (s t : State) : Prop :=
  t.atRest ∧ t.busReady = s.busReady ∧ t.inputs = s.inputs

/-! ### The transactions of a command (10_state.md R49) -/

/-- A transaction but for the bytes written: whether it writes, its address, its length. -/
structure TxnShape where
  writes : Bool
  addr : Byte
  len : Nat
  deriving DecidableEq, Repr

def Txn.shape : Txn → TxnShape
  | .read a n => ⟨false, a, n⟩
  | .write a data => ⟨true, a, data.length⟩

def readShape (a : Byte) : TxnShape := ⟨false, a, 1⟩
def writeShape (a : Byte) : TxnShape := ⟨true, a, 1⟩

/-- The access matrix (R49): the transactions of a command, in order. -/
def accesses : Instr → List TxnShape
  | .encode _ _ | .decode _ _ | .getTick _ _ | .setTop _ _ | .getTop _ _ => []
  | .init _ _ => [readShape 0x00]
  | .start _ _ | .stop _ _ | .setCapSelect _ _ => [readShape 0x00, writeShape 0x00]
  | .getTime _ _ => [⟨false, 0x04, 7⟩]
  | .setTime _ _ => [⟨true, 0x04, 7⟩]
  | .setAlarm _ _ =>
    [readShape 0x01, writeShape 0x01, writeShape 0x10, readShape 0x11, writeShape 0x11]
  | .cancelAlarm _ _ => [readShape 0x01, writeShape 0x01, readShape 0x11, writeShape 0x11]
  | .getPendingInt _ _ => [readShape 0x01]
  | .setOffsetMode _ _ | .setOffsetValue _ _ => [readShape 0x02, writeShape 0x02]

/-- The transactions the block issues and no other (20_memory.md R69). -/
def TxnShape.issuable (t : TxnShape) : Bool :=
  t ∈ [readShape 0x00, readShape 0x01, readShape 0x02, readShape 0x11, writeShape 0x00,
    writeShape 0x01, writeShape 0x02, writeShape 0x10, writeShape 0x11, ⟨false, 0x04, 7⟩,
    ⟨true, 0x04, 7⟩]

/-- Some transaction of the shapes writes the register at address `a`. -/
def writesCell (l : List TxnShape) (a : Nat) : Bool :=
  l.any fun x => x.writes && decide (x.addr.toNat ≤ a) && decide (a < x.addr.toNat + x.len)

/-- The commands that sample or reach the bus (60_exceptions.md R210): those that can raise `IoError`. -/
def usesBus (i : Instr) : Bool := !(accesses i).isEmpty

/-! ### Words of the statements -/

/-- The command with its two other fields replaced. -/
def withFields (i : Instr) (c : BitVec 4) (a : Byte) : Instr :=
  match i with
  | .encode _ _ => .encode c a
  | .decode _ _ => .decode c a
  | .init _ _ => .init c a
  | .start _ _ => .start c a
  | .stop _ _ => .stop c a
  | .getTime _ _ => .getTime c a
  | .setTime _ _ => .setTime c a
  | .setAlarm _ _ => .setAlarm c a
  | .cancelAlarm _ _ => .cancelAlarm c a
  | .getPendingInt _ _ => .getPendingInt c a
  | .setOffsetMode _ _ => .setOffsetMode c a
  | .setOffsetValue _ _ => .setOffsetValue c a
  | .setCapSelect _ _ => .setCapSelect c a
  | .getTick _ _ => .getTick c a
  | .setTop _ _ => .setTop c a
  | .getTop _ _ => .getTop c a

/-- The bits of `arg` a command reads (30_encoding.md R103). -/
def argMask : Instr → Byte
  | .setAlarm _ _ => 0xFF
  | .setOffsetMode _ _ | .setCapSelect _ _ => 0x01
  | .setOffsetValue _ _ => 0x7F
  | .encode _ _ | .decode _ _ | .init _ _ | .start _ _ | .stop _ _ | .getTime _ _ | .setTime _ _
  | .cancelAlarm _ _ | .getPendingInt _ _ | .getTick _ _ | .setTop _ _ | .getTop _ _ => 0x00

/-- Units plus ten times tens, no nibble checked (40_codec.md R131). -/
def digitsOf (b : Byte) : Nat := b.toNat % 16 + b.toNat / 16 * 10

/-- Month lengths of the Gregorian calendar (R133, R134). -/
def monthDays (y m : Nat) : Nat :=
  if m = 2 then
    if (y % 4 = 0 ∧ y % 100 ≠ 0) ∨ y % 400 = 0 then 29 else 28
  else if m = 4 ∨ m = 6 ∨ m = 9 ∨ m = 11 then 30
  else 31

/-- Days of the year before a date, by a calendar that adds up month lengths (R134, R135). -/
def calendarYday (y m d : Nat) : Nat :=
  ((List.range (m - 1)).map (fun k => monthDays y (k + 1))).sum + (d - 1)

/-- In `t` a command begun in `s` has ended with response `r` after the transactions `recs`: the
block is at rest, and nothing but the registers, the trace, the response and the used part of the
script has changed. -/
def State.endsWith (s t : State) (r : Response) (recs : List TxnRecord) : Prop :=
  s.endedFrom t ∧ t.rsp = some r ∧ t.trace = s.trace ++ recs ∧ t.slots = s.slots.drop recs.length ∧
  t.draws = s.draws

/-- Command `i` is one `Update(a, mask, val)` (20_memory.md R64) with the response `Ok`: what it does
when both transactions are answered `Ok`, when the read fails, when the write fails, and that it
answers no other kind of response. -/
def isUpdateCommand (i : Instr) (a mask val : Byte) : Prop :=
  (∀ s : State, s.begun →
    let old := s.mem.get a.toNat
    let new := (old &&& ~~~mask) ||| (val &&& mask)
    (s.quietFor 2 → ∃ t, exec i s = .next t ∧
      s.endsWith t (.ok .none) [⟨.read a 1, .okRead [old]⟩, ⟨.write a [new], .okWrite⟩] ∧
      ∀ x, t.mem.get x = if x = a.toNat then new else s.mem.get x) ∧
    (∀ l, s.quietThen 0 (.fail l) → ∃ t, exec i s = .next t ∧
      s.endsWith t (.error .ioError) [⟨.read a 1, .fail⟩] ∧ t.mem = s.mem) ∧
    (∀ l, s.quietThen 1 (.fail l) → ∃ t, exec i s = .next t ∧
      s.endsWith t (.error .ioError) [⟨.read a 1, .okRead [old]⟩, ⟨.write a [new], .fail⟩] ∧
      (t.mem.get a.toNat = old ∨ t.mem.get a.toNat = new) ∧
      ∀ x, x ≠ a.toNat → t.mem.get x = s.mem.get x)) ∧
  ∀ s t : State, exec i s = .next t → s.rsp = none →
    t.rsp = none ∨ t.rsp = some (.ok .none) ∨ t.rsp = some (.error .ioError)

/-- The commands that are one `Update` (R161, R162, R190 to R192): its address, mask and value. -/
def updateOf : Instr → Option (Byte × Byte × Byte)
  | .start _ _ => some (0x00, 0x20, 0x00)
  | .stop _ _ => some (0x00, 0x20, 0x20)
  | .setOffsetMode _ arg => some (0x02, 0x80, if arg.getLsbD 0 then 0x80 else 0x00)
  | .setOffsetValue _ arg => some (0x02, 0x7F, arg &&& 0x7F)
  | .setCapSelect _ arg => some (0x00, 0x01, if arg.getLsbD 0 then 0x01 else 0x00)
  | .encode _ _ | .decode _ _ | .init _ _ | .getTime _ _ | .setTime _ _ | .setAlarm _ _
  | .cancelAlarm _ _ | .getPendingInt _ _ | .getTick _ _ | .setTop _ _ | .getTop _ _ => none

/-- How many steps of a command come before its first transaction: INIT samples `BUS_READY`
(10_state.md R21, log 11). -/
def leadSteps : Instr → Nat
  | .init _ _ => 1
  | .encode _ _ | .decode _ _ | .start _ _ | .stop _ _ | .getTime _ _ | .setTime _ _
  | .setAlarm _ _ | .cancelAlarm _ _ | .getPendingInt _ _ | .setOffsetMode _ _
  | .setOffsetValue _ _ | .setCapSelect _ _ | .getTick _ _ | .setTop _ _ | .getTop _ _ => 0

/-- A script of `k` transactions that succeed and one that fails with `landed`, nobody acting. -/
def failingAfter (k : Nat) (landed : List Bool) : List Slot :=
  List.replicate k .quiet ++ [⟨[], .fail landed⟩]

/-! ### The invariant -/

/-- What every reachable state satisfies: the register file in canonical form (memory), an idle block
that keeps nothing from a command (10_state.md R20, R50), no response before the command ends (R46),
the position inside the command (R21), at most five transactions issued (20_memory.md R79), only
transactions of R69, a transaction in flight being the one of the position (00_scope.md R13), and the
agreement of the response with the trace (60_exceptions.md R214). -/
structure State.Inv (s : State) : Prop where
  memory : s.mem.wf = true
  idleDead : s.busy = false → s.atRest
  noEarlyResponse : s.busy = true → s.rsp = none
  position : s.busy = true → s.trace.length ≤ s.step ∧ s.step ≤ 5
  issuedShort : s.issued.length ≤ 5
  issuedIssuable : ∀ r ∈ s.issued, r.txn.shape.issuable = true
  inFlightAtPosition : ∀ x, s.inFlight = some x → leadSteps (decode s.cmd) ≤ s.step ∧
    (accesses (decode s.cmd))[s.step - leadSteps (decode s.cmd)]? = some x.txn.shape
  busyTraceOk : s.busy = true → ∀ r ∈ s.trace, r.outcome ≠ .fail
  okTraceOk : ∀ p, s.rsp = some (.ok p) → ∀ r ∈ s.trace, r.outcome ≠ .fail
  ioErrorFailed : s.rsp = some (.error .ioError) →
    ∃ l r, s.trace = l ++ [r] ∧ r.outcome = .fail ∧ ∀ q ∈ l, q.outcome ≠ .fail
  otherErrorOk : s.rsp = some (.error .notReady) ∨ s.rsp = some (.error .integrityError) →
    ∀ r ∈ s.trace, r.outcome ≠ .fail
  notReadyNoTxn : s.rsp = some (.error .notReady) → s.trace = []

end Sys2Proof.Machine
end

