-- ==== Sys2Proof/Certificates/Slice0/Obligations.lean ====
section
/-! DEFINITION. The statements for the provers. R<n> is a rule of spec/; "log n" is
notes/assumptions/n.md. `s.quietFor k`: the next `k` transactions are answered `Ok` and nobody acts
between them; `s.quietThen k x`: `k` quiet transactions, then the answer `x`; `s.silent`: nobody acts
between the block's transactions, whatever the transport answers; `s.begun`: the command stands at its
first step, no block reset is to cut it between steps (what such a reset does is stated by
ResetAtAnyPointAbandonsTheCommand) and it waits for no transaction (what a waiting command does is stated
by WaitingCommandResumes); `s.cut = none`, `s.inFlight = none`: these two alone. -/

open Sys2Proof Sys2Proof.Machine

/-! ### The command word -/

/-- All 26 command words of 95_test_vectors.md 2.4, ignored fields and operand bits included. -/
def Obligations.SpecWordsDecodeAsListed : Prop :=
  decode 0x0000 = .encode 0 0 ∧ decode 0x1000 = .decode 0 0 ∧ decode 0x2000 = .init 0 0 ∧
  decode 0x2ABC = .init 0xA 0xBC ∧ decode 0x3000 = .start 0 0 ∧ decode 0x4000 = .stop 0 0 ∧
  decode 0x5000 = .getTime 0 0 ∧ decode 0x6000 = .setTime 0 0 ∧ decode 0x701E = .setAlarm 0 30 ∧
  decode 0x7F1E = .setAlarm 15 30 ∧ decode 0x7000 = .setAlarm 0 0 ∧
  decode 0x70FF = .setAlarm 0 255 ∧ decode 0x8000 = .cancelAlarm 0 0 ∧
  decode 0x8500 = .cancelAlarm 5 0 ∧ decode 0x9000 = .getPendingInt 0 0 ∧
  decode 0xA001 = .setOffsetMode 0 1 ∧ decode 0xA0FE = .setOffsetMode 0 0xFE ∧
  decode 0xB07D = .setOffsetValue 0 0x7D ∧ decode 0xB0FD = .setOffsetValue 0 0xFD ∧
  decode 0xB040 = .setOffsetValue 0 0x40 ∧ decode 0xB03F = .setOffsetValue 0 0x3F ∧
  decode 0xC001 = .setCapSelect 0 1 ∧ decode 0xD000 = .getTick 0 0 ∧
  decode 0xE000 = .setTop 0 0 ∧ decode 0xE0FF = .setTop 0 0xFF ∧ decode 0xF000 = .getTop 0 0

/-- R101 (an encoding of decision D3): the three fields, and the operation number alone selects the
command. -/
def Obligations.DecodeSplitsTheWordAndDispatchesOnOp : Prop :=
  (∀ w : CmdWord, (decode w).op = w.extractLsb' 12 4 ∧ (decode w).chan = w.extractLsb' 8 4 ∧
    (decode w).arg = w.extractLsb' 0 8) ∧
  ∀ w w' : CmdWord, w.extractLsb' 12 4 = w'.extractLsb' 12 4 →
    decode w' = withFields (decode w) (w'.extractLsb' 8 4) (w'.extractLsb' 0 8)

/-- Encoding and decoding are inverse on all commands and all words (R100, R105: no word is illegal
and no bit is dropped). -/
def Obligations.DecodeAndEncodeAgree : Prop :=
  (∀ i : Instr, i.wellFormed = true ∧ decode (encode i) = i) ∧ ∀ w : CmdWord, encode (decode w) = w

/-- The packed forms of R108 (decision D5) hold every record, each field at its place. -/
def Obligations.PackedRecordsRoundTrip : Prop :=
  (∀ t : CalendarTime, CalendarTime.unpack t.pack = t ∧
    t.pack.extractLsb' 0 8 = t.second ∧ t.pack.extractLsb' 8 8 = t.minute ∧
    t.pack.extractLsb' 16 8 = t.hour ∧ t.pack.extractLsb' 24 8 = t.mday ∧
    t.pack.extractLsb' 32 8 = t.weekday ∧ t.pack.extractLsb' 40 8 = t.month ∧
    t.pack.extractLsb' 48 9 = t.year ∧ t.pack.extractLsb' 57 9 = t.yday ∧
    t.pack.getLsbD 66 = t.isdst) ∧
  (∀ v : BitVec 67, (CalendarTime.unpack v).pack = v) ∧
  (∀ b : RawTimeBlock, RawTimeBlock.unpack b.pack = b ∧
    b.pack.extractLsb' 0 8 = b.seconds ∧ b.pack.extractLsb' 8 8 = b.minutes ∧
    b.pack.extractLsb' 16 8 = b.hours ∧ b.pack.extractLsb' 24 8 = b.days ∧
    b.pack.extractLsb' 32 8 = b.weekdays ∧ b.pack.extractLsb' 40 8 = b.months ∧
    b.pack.extractLsb' 48 8 = b.years) ∧
  ∀ v : BitVec 56, (RawTimeBlock.unpack v).pack = v

/-- What the assembler accepts has every ignored field 0 (R109, R110, decision D32), and the immediate
of `SET_OFFSET_VALUE n` is the pattern of `n` with `arg[7]` = 0, for exactly -64..63. -/
def Obligations.AssembledLinesAreCanonicalWords : Prop :=
  (∀ l i o, assemble l = some (i, o) → i.assembled = true) ∧
  ∀ n : Int,
    if -64 ≤ n ∧ n ≤ 63 then
      ∃ arg : Byte, assemble (.setOffsetValue n) = some (.setOffsetValue 0 arg, .zero) ∧
        offsetSigned (valueOf arg) = n ∧ arg.toNat < 128
    else assemble (.setOffsetValue n) = none

/-- R104: `chan` has no effect on any command. -/
def Obligations.ChannelFieldHasNoEffect : Prop :=
  ∀ (i : Instr) (c : BitVec 4) (s : State), exec (withFields i c i.arg) s = exec i s

/-- R103, R105 (decisions D19, D31): only the operand bits of `arg` have an effect. -/
def Obligations.IgnoredArgBitsHaveNoEffect : Prop :=
  ∀ (i : Instr) (a : Byte) (s : State), a &&& argMask i = i.arg &&& argMask i →
    exec (withFields i i.chan a) s = exec i s

/-! ### The codec -/

/-- R136 with the masks of R138 (decisions D7, D8, D9; log 7, log 23): ENCODE always answers `Ok` with
the packed fields, issues no transaction and changes nothing else. -/
def Obligations.EncodeAnswersPackedFields : Prop :=
  ∀ (chan : BitVec 4) (arg : Byte) (s : State), s.cut = none → ∃ (t : State) (b : RawTimeBlock),
    let c := s.opnd.time
    let packed := fun (v : Nat) => BitVec.ofNat 8 (v / 10 * 16 + v % 10)
    exec (.encode chan arg) s = .next t ∧ s.endsWith t (.ok (.block b)) [] ∧ t.mem = s.mem ∧
    b.seconds = packed c.second.toNat &&& 0x7F ∧ b.minutes = packed c.minute.toNat &&& 0x7F ∧
    b.hours = packed c.hour.toNat &&& 0x3F ∧ b.days = packed c.mday.toNat &&& 0x3F ∧
    b.weekdays.toNat = c.weekday.toNat % 8 ∧ b.months = packed c.month.toNat &&& 0x1F ∧
    b.years = packed (c.year.toNat % 100) ∧ b.seconds.toNat < 128

/-- DECODE (R137, R139; the weekday's mask and the unchecked nibbles are R143's decision D29, log 24; the
day of the year is that of R133 to R135, decisions D10 and D11, log 31): with the integrity bit set it answers
`IntegrityError` and nothing else, whatever the other bits hold; with the bit clear it answers `Ok` with every field by its formula, no
byte being checked; `yday` is the day of the year where month and day are valid and is left open
elsewhere. No transaction, no register changed. -/
def Obligations.DecodeComputesEveryFieldOrRefuses : Prop :=
  (∀ w : CmdWord, opOf w = 0x1 → decode w = .decode (chanOf w) (argOf w)) ∧
  ∀ (chan : BitVec 4) (arg : Byte) (s : State), s.cut = none →
    (s.opnd.block.seconds.getLsbD 7 = true → ∃ t, exec (.decode chan arg) s = .next t ∧
      s.endsWith t (.error .integrityError) [] ∧ t.mem = s.mem) ∧
    (s.opnd.block.seconds.getLsbD 7 = false → ∃ (t : State) (c : CalendarTime),
      let b := s.opnd.block
      exec (.decode chan arg) s = .next t ∧ t.rsp = some (.ok (.time c)) ∧
      s.endedFrom t ∧ t.mem = s.mem ∧ t.trace = s.trace ∧ t.slots = s.slots ∧
      c.second.toNat = digitsOf b.seconds ∧ c.minute.toNat = digitsOf b.minutes ∧
      c.hour.toNat = digitsOf b.hours ∧ c.mday.toNat = digitsOf b.days ∧
      c.weekday.toNat = b.weekdays.toNat % 8 ∧ c.month.toNat = digitsOf b.months ∧
      c.year.toNat = digitsOf b.years + 100 ∧ c.isdst = false ∧
      (1 ≤ digitsOf b.months ∧ digitsOf b.months ≤ 12 ∧ 1 ≤ digitsOf b.days →
        c.yday.toNat = calendarYday (2000 + digitsOf b.years) (digitsOf b.months) (digitsOf b.days) ∧
        t.draws = s.draws))

/-- The model's choice for the `yday` that R135 leaves unspecified (log 6): the next free value, and
one draw used up. It holds whatever the free values are. -/
def Obligations.DecodeDrawsAFreeYday : Prop :=
  ∀ (chan : BitVec 4) (arg : Byte) (s : State), s.cut = none →
    s.opnd.block.seconds.getLsbD 7 = false →
    digitsOf s.opnd.block.months = 0 ∨ 12 < digitsOf s.opnd.block.months ∨
      digitsOf s.opnd.block.days = 0 →
    ∃ (t : State) (c : CalendarTime), exec (.decode chan arg) s = .next t ∧
      t.rsp = some (.ok (.time c)) ∧ c.yday = Config.freeYday s.draws ∧ t.draws = s.draws + 1

/-- R141, both directions: a valid time comes back from ENCODE and DECODE with the calendar's `yday`
and `isdst` 0, and a block of valid contents comes back from DECODE and ENCODE. -/
def Obligations.RoundTripOfValidTimes : Prop :=
  (∀ (s s' : State) (ch ch' : BitVec 4) (a a' : Byte), s.cut = none → s'.cut = none →
    s.opnd.time.valid = true →
    ∃ t b, exec (.encode ch a) s = .next t ∧ t.rsp = some (.ok (.block b)) ∧
      (s'.opnd.block = b → ∃ t', exec (.decode ch' a') s' = .next t' ∧
        t'.rsp = some (.ok (.time { s.opnd.time with
          isdst := false,
          yday := BitVec.ofNat 9 (calendarYday (1900 + s.opnd.time.year.toNat)
            s.opnd.time.month.toNat s.opnd.time.mday.toNat) })))) ∧
  ∀ (s s' : State) (ch ch' : BitVec 4) (a a' : Byte), s.cut = none → s'.cut = none →
    s.opnd.block.validContents = true →
    ∃ t c, exec (.decode ch a) s = .next t ∧ t.rsp = some (.ok (.time c)) ∧ c.valid = true ∧
      (s'.opnd.time = c → ∃ t', exec (.encode ch' a') s' = .next t' ∧
        t'.rsp = some (.ok (.block s.opnd.block)))

/-- The tables of R134 and the function of R135 (decision D11) count days as a calendar that adds up
month lengths does; 1 March is day 60 of a leap year and 59 of another. -/
def Obligations.DayOfYearCountsCalendarDays : Prop :=
  (∀ y m d : Nat, 1 ≤ m → m ≤ 12 → 1 ≤ d → dayOfYear y m d = calendarYday y m d) ∧
  ∀ y : Nat, dayOfYear y 3 1 = if (y % 4 = 0 ∧ y % 100 ≠ 0) ∨ y % 400 = 0 then 60 else 59

/-! ### Probe and oscillator -/

/-- INIT (R160; the probed register is decision D15, log 22): `NotReady` before any transaction;
otherwise one probe read whose byte is not examined; the registers stay. -/
def Obligations.InitProbesOrReportsNotReady : Prop :=
  ∀ (chan : BitVec 4) (arg : Byte) (s : State), s.begun →
    (s.busReady = false → ∃ t, exec (.init chan arg) s = .next t ∧
      s.endsWith t (.error .notReady) [] ∧ t.mem = s.mem) ∧
    (s.busReady = true → s.quietFor 1 → ∃ t, exec (.init chan arg) s = .next t ∧
      s.endsWith t (.ok .none) [⟨.read 0x00 1, .okRead [s.mem.get 0]⟩] ∧ t.mem = s.mem) ∧
    (∀ l, s.busReady = true → s.quietThen 0 (.fail l) → ∃ t, exec (.init chan arg) s = .next t ∧
      s.endsWith t (.error .ioError) [⟨.read 0x00 1, .fail⟩] ∧ t.mem = s.mem) ∧
    ∀ t, exec (.init chan arg) s = .next t → s.rsp = none → t.rsp = none ∨
      t.rsp = some (.ok .none) ∨ t.rsp = some (.error .notReady) ∨ t.rsp = some (.error .ioError)

/-- START (R161): one `Update` of 0x00 that clears bit 5 and keeps the rest; `BUS_READY` plays no
part; `NotReady` and `IntegrityError` are never answered. That a failed write leaves the register old
or new is R66's decision D17 (log 8). -/
def Obligations.StartClearsStopAndKeepsTheRest : Prop :=
  (∀ w : CmdWord, opOf w = 0x3 → decode w = .start (chanOf w) (argOf w)) ∧
  (∀ (chan : BitVec 4) (arg : Byte), isUpdateCommand (.start chan arg) 0x00 0x20 0x00) ∧
  ∀ (chan : BitVec 4) (arg : Byte) (s : State), s.begun → s.quietFor 2 →
    ∃ t, exec (.start chan arg) s = .next t ∧ t.STOP = false ∧ t.CAP_SEL = s.CAP_SEL ∧
      t.reg 0x00 &&& 0xDF = s.reg 0x00 &&& 0xDF ∧ t.OS = s.OS

/-- STOP (R162, where the read-modify-write is the spec's own inference): one `Update` of 0x00 that
sets bit 5 and keeps the rest; a failed write leaves it old or new (R66, decision D17, log 8). -/
def Obligations.StopSetsStopAndKeepsTheRest : Prop :=
  (∀ w : CmdWord, opOf w = 0x4 → decode w = .stop (chanOf w) (argOf w)) ∧
  (∀ (chan : BitVec 4) (arg : Byte), isUpdateCommand (.stop chan arg) 0x00 0x20 0x20) ∧
  ∀ (chan : BitVec 4) (arg : Byte) (s : State), s.begun → s.quietFor 2 →
    ∃ t, exec (.stop chan arg) s = .next t ∧ t.STOP = true ∧ t.CAP_SEL = s.CAP_SEL ∧
      t.reg 0x00 &&& 0xDF = s.reg 0x00 &&& 0xDF

/-! ### Time -/

/-- GET_TIME (R170): one burst of seven bytes, then exactly what DECODE answers for them; a failed
burst is `IoError` and decodes nothing; the registers, `OS` among them, stay. Where month or day is
invalid the spec leaves `yday` unspecified (R135, R146); that both commands then answer the same free
value of the present draw, and the count of draws, is the model's choice (log 6). -/
def Obligations.GetTimeReadsOneBurstAndDecodes : Prop :=
  (∀ w : CmdWord, opOf w = 0x5 → decode w = .getTime (chanOf w) (argOf w)) ∧
  ∀ (chan : BitVec 4) (arg : Byte) (s : State), s.begun →
    (s.quietFor 1 → ∃ t d, exec (.getTime chan arg) s = .next t ∧
      exec (.decode chan arg) { s with opnd := ⟨.zero, s.mem.timeBlock⟩ } = .next d ∧
      t.rsp = d.rsp ∧ (t.rsp = some (.error .integrityError) ↔ s.OS = true) ∧
      t.mem = s.mem ∧ s.endedFrom t ∧ t.slots = s.slots.drop 1 ∧ t.draws = d.draws ∧
      t.trace = s.trace ++ [⟨.read 0x04 7, .okRead [s.mem.get 4, s.mem.get 5, s.mem.get 6,
        s.mem.get 7, s.mem.get 8, s.mem.get 9, s.mem.get 10]⟩]) ∧
    (∀ l, s.quietThen 0 (.fail l) → ∃ t, exec (.getTime chan arg) s = .next t ∧
      s.endsWith t (.error .ioError) [⟨.read 0x04 7, .fail⟩] ∧ t.mem = s.mem) ∧
    ∀ t, exec (.getTime chan arg) s = .next t → s.rsp = none → t.rsp ≠ some (.error .notReady)

/-- SET_TIME (R171; that the byte's bit 7 clears `OS` is the spec's inference): one burst write of the
block ENCODE answers, `OS` becomes 0; a failed burst is `IoError` and leaves each of the seven
registers old or new (R66, decision D17, log 8). -/
def Obligations.SetTimeWritesOneBurst : Prop :=
  (∀ w : CmdWord, opOf w = 0x6 → decode w = .setTime (chanOf w) (argOf w)) ∧
  ∀ (chan : BitVec 4) (arg : Byte) (s : State), s.begun →
    ∃ e b, exec (.encode chan arg) s = .next e ∧ e.rsp = some (.ok (.block b)) ∧
    (s.quietFor 1 → ∃ t, exec (.setTime chan arg) s = .next t ∧
      s.endsWith t (.ok .none) [⟨.write 0x04 b.toBytes, .okWrite⟩] ∧ t.OS = false ∧
      t.mem.timeBlock = b ∧ ∀ x, x < 4 ∨ 10 < x → t.mem.get x = s.mem.get x) ∧
    (∀ l, s.quietThen 0 (.fail l) → ∃ t, exec (.setTime chan arg) s = .next t ∧
      s.endsWith t (.error .ioError) [⟨.write 0x04 b.toBytes, .fail⟩] ∧
      (∀ k, k < 7 → t.mem.get (4 + k) = s.mem.get (4 + k) ∨ t.mem.get (4 + k) = b.toBytes.getD k 0) ∧
      ∀ x, x < 4 ∨ 10 < x → t.mem.get x = s.mem.get x) ∧
    ∀ t, exec (.setTime chan arg) s = .next t → s.rsp = none →
      t.rsp = none ∨ t.rsp = some (.ok .none) ∨ t.rsp = some (.error .ioError)

/-- R171 under `CHIP = Static` with one caller: two steps of an idle machine that is given SET_TIME
with a valid time and then GET_TIME answer that time (R141). -/
def Obligations.SetTimeThenGetTimeReturnsTheTime : Prop :=
  ∀ (s : State) (w w' : CmdWord) (o o' : Operand) (rest : List Input), s.busy = false →
    opOf w = 0x6 → opOf w' = 0x5 → s.inputs = .command w o :: .command w' o' :: rest →
    s.quietFor 2 → o.time.valid = true →
    ∃ t u, step s = .next t ∧ t.rsp = some (.ok .none) ∧ step t = .next u ∧ u.inputs = rest ∧
      u.rsp = some (.ok (.time { o.time with
        isdst := false,
        yday := BitVec.ofNat 9 (calendarYday (1900 + o.time.year.toNat) o.time.month.toNat
          o.time.mday.toNat) }))

/-- R213, R253: while nobody writes the time, GET_TIME with `OS` = 1 answers `IntegrityError`, takes no
corrective action, and so does the next GET_TIME. -/
def Obligations.IntegrityErrorPersists : Prop :=
  ∀ (s : State) (w w' : CmdWord) (o o' : Operand) (rest : List Input), s.busy = false →
    opOf w = 0x5 → opOf w' = 0x5 → s.inputs = .command w o :: .command w' o' :: rest →
    s.quietFor 2 → s.OS = true →
    ∃ t u, step s = .next t ∧ t.rsp = some (.error .integrityError) ∧ t.mem = s.mem ∧
      t.trace.length = 1 ∧
      step t = .next u ∧ u.rsp = some (.error .integrityError) ∧ u.mem = s.mem

/-! ### The countdown alarm -/

/-- SET_ALARM when every transaction is answered `Ok` (R180; mask and 1 Hz code are decision D14,
log 20): the five transactions in order and the three registers. -/
def Obligations.SetAlarmArmsTheTimer : Prop :=
  ∀ (chan : BitVec 4) (arg : Byte) (s : State), s.begun → s.quietFor 5 →
    let new01 := s.mem.get 0x01 &&& 0xF7
    let new11 := (s.mem.get 0x11 &&& 0xE1) ||| 0x16
    ∃ t, exec (.setAlarm chan arg) s = .next t ∧
      s.endsWith t (.ok .none)
        [⟨.read 0x01 1, .okRead [s.mem.get 0x01]⟩, ⟨.write 0x01 [new01], .okWrite⟩,
          ⟨.write 0x10 [arg], .okWrite⟩, ⟨.read 0x11 1, .okRead [s.mem.get 0x11]⟩,
          ⟨.write 0x11 [new11], .okWrite⟩] ∧
      (∀ x, t.mem.get x = if x = 0x01 then new01 else if x = 0x10 then arg
        else if x = 0x11 then new11 else s.mem.get x) ∧
      t.TF = false ∧ t.AF = s.AF ∧ t.TIMER_VALUE = arg ∧ t.TCF = 0b10 ∧ t.TE = true ∧
      t.TIE = true ∧ t.TI_TP = s.TI_TP

/-- SET_ALARM's table of partial failures (R180, R217; a failed write leaves its register old or new by
R66's decision D17, log 8): the first failing transaction ends it with `IoError`, after exactly the
transactions before it, and nothing is undone. -/
def Obligations.SetAlarmPartialFailures : Prop :=
  ∀ (chan : BitVec 4) (arg : Byte) (s : State) (k : Nat) (l : List Bool), s.begun → k < 5 →
    s.quietThen k (.fail l) →
    let old := fun x => s.mem.get x
    let new01 := s.mem.get 0x01 &&& 0xF7
    let new11 := (s.mem.get 0x11 &&& 0xE1) ||| 0x16
    let txns : List TxnRecord :=
      [⟨.read 0x01 1, .okRead [old 0x01]⟩, ⟨.write 0x01 [new01], .okWrite⟩,
        ⟨.write 0x10 [arg], .okWrite⟩, ⟨.read 0x11 1, .okRead [old 0x11]⟩,
        ⟨.write 0x11 [new11], .okWrite⟩]
    ∃ t r, txns[k]? = some r ∧ exec (.setAlarm chan arg) s = .next t ∧
      s.endsWith t (.error .ioError) (txns.take k ++ [⟨r.txn, .fail⟩]) ∧
      (k = 0 → t.mem.get 0x01 = old 0x01) ∧
      (k = 1 → t.mem.get 0x01 = old 0x01 ∨ t.mem.get 0x01 = new01) ∧
      (2 ≤ k → t.mem.get 0x01 = new01) ∧
      (k < 2 → t.mem.get 0x10 = old 0x10) ∧
      (k = 2 → t.mem.get 0x10 = old 0x10 ∨ t.mem.get 0x10 = arg) ∧
      (3 ≤ k → t.mem.get 0x10 = arg) ∧
      (k < 4 → t.mem.get 0x11 = old 0x11) ∧
      (k = 4 → t.mem.get 0x11 = old 0x11 ∨ t.mem.get 0x11 = new11) ∧
      ∀ x, x ≠ 0x01 → x ≠ 0x10 → x ≠ 0x11 → t.mem.get x = old x

/-- CANCEL_ALARM when every transaction is answered `Ok` (R181, whose read-modify-writes are the
spec's inference): the four transactions in order and the two registers. -/
def Obligations.CancelAlarmDisarmsTheTimer : Prop :=
  ∀ (chan : BitVec 4) (arg : Byte) (s : State), s.begun → s.quietFor 4 →
    let new01 := s.mem.get 0x01 &&& 0xF7
    let new11 := s.mem.get 0x11 &&& 0xF8
    ∃ t, exec (.cancelAlarm chan arg) s = .next t ∧
      s.endsWith t (.ok .none)
        [⟨.read 0x01 1, .okRead [s.mem.get 0x01]⟩, ⟨.write 0x01 [new01], .okWrite⟩,
          ⟨.read 0x11 1, .okRead [s.mem.get 0x11]⟩, ⟨.write 0x11 [new11], .okWrite⟩] ∧
      (∀ x, t.mem.get x = if x = 0x01 then new01 else if x = 0x11 then new11 else s.mem.get x) ∧
      t.TF = false ∧ t.AF = s.AF ∧ t.TE = false ∧ t.TIE = false ∧ t.TI_TP = false ∧
      t.TCF = s.TCF ∧ t.TIMER_VALUE = s.TIMER_VALUE

/-- CANCEL_ALARM's table of partial failures (R181, R217; R66's decision D17, log 8). -/
def Obligations.CancelAlarmPartialFailures : Prop :=
  ∀ (chan : BitVec 4) (arg : Byte) (s : State) (k : Nat) (l : List Bool), s.begun → k < 4 →
    s.quietThen k (.fail l) →
    let old := fun x => s.mem.get x
    let new01 := s.mem.get 0x01 &&& 0xF7
    let new11 := s.mem.get 0x11 &&& 0xF8
    let txns : List TxnRecord :=
      [⟨.read 0x01 1, .okRead [old 0x01]⟩, ⟨.write 0x01 [new01], .okWrite⟩,
        ⟨.read 0x11 1, .okRead [old 0x11]⟩, ⟨.write 0x11 [new11], .okWrite⟩]
    ∃ t r, txns[k]? = some r ∧ exec (.cancelAlarm chan arg) s = .next t ∧
      s.endsWith t (.error .ioError) (txns.take k ++ [⟨r.txn, .fail⟩]) ∧
      (k = 0 → t.mem.get 0x01 = old 0x01) ∧
      (k = 1 → t.mem.get 0x01 = old 0x01 ∨ t.mem.get 0x01 = new01) ∧
      (2 ≤ k → t.mem.get 0x01 = new01) ∧
      (k < 3 → t.mem.get 0x11 = old 0x11) ∧
      (k = 3 → t.mem.get 0x11 = old 0x11 ∨ t.mem.get 0x11 = new11) ∧
      ∀ x, x ≠ 0x01 → x ≠ 0x11 → t.mem.get x = old x

/-- GET_PENDING_INT (R182): one read of 0x01, the answer is bit 3 alone, nothing is cleared; a failed
read is `IoError`. -/
def Obligations.GetPendingIntAnswersTimerFlag : Prop :=
  (∀ w : CmdWord, opOf w = 0x9 → decode w = .getPendingInt (chanOf w) (argOf w)) ∧
  ∀ (chan : BitVec 4) (arg : Byte) (s : State), s.begun →
    (s.quietFor 1 → ∃ t, exec (.getPendingInt chan arg) s = .next t ∧
      s.endsWith t (.ok (.flag ((s.mem.get 0x01).getLsbD 3)))
        [⟨.read 0x01 1, .okRead [s.mem.get 0x01]⟩] ∧ t.mem = s.mem) ∧
    (∀ l, s.quietThen 0 (.fail l) → ∃ t, exec (.getPendingInt chan arg) s = .next t ∧
      s.endsWith t (.error .ioError) [⟨.read 0x01 1, .fail⟩] ∧ t.mem = s.mem) ∧
    ∀ t, exec (.getPendingInt chan arg) s = .next t → s.rsp = none →
      t.rsp = none ∨ (∃ f, t.rsp = some (.ok (.flag f))) ∨ t.rsp = some (.error .ioError)

/-- R183 (2), R221 (R183 is the spec's inference): whatever the transport answers and the chip does by
itself, a set `TF` stays set through every command but the two that clear it in their step (a). That the
chip itself never clears `TF` is R76's `Free`, decision D22 (log 16). -/
def Obligations.TimerFlagStaysUntilAlarmCommands : Prop :=
  ∀ (i : Instr) (s t : State), s.everyEvent EnvEvent.chipOnly = true → s.TF = true →
    i.op ≠ 0x7 → i.op ≠ 0x8 → exec i s = .next t → t.TF = true

/-- R183, one arm cycle as seven steps of an idle machine: after SET_ALARM the poll answers false,
after the chip raises `TF` it answers true, and true again; after CANCEL_ALARM it answers false. -/
def Obligations.ArmCycleIsReported : Prop :=
  ∀ (s : State) (wA wP wP' wP'' wC wP3 : CmdWord) (o : Operand) (rest : List Input),
    s.busy = false → s.quietFor 13 →
    opOf wA = 0x7 → opOf wP = 0x9 → opOf wP' = 0x9 → opOf wP'' = 0x9 → opOf wC = 0x8 → opOf wP3 = 0x9 →
    s.inputs = [.command wA o, .command wP o, .env (.chip .raiseTF), .command wP' o,
      .command wP'' o, .command wC o, .command wP3 o] ++ rest →
    ∃ s1 s2 s3 s4 s5 s6 s7, step s = .next s1 ∧ step s1 = .next s2 ∧ step s2 = .next s3 ∧
      step s3 = .next s4 ∧ step s4 = .next s5 ∧ step s5 = .next s6 ∧ step s6 = .next s7 ∧
      s1.rsp = some (.ok .none) ∧ s2.rsp = some (.ok (.flag false)) ∧
      s4.rsp = some (.ok (.flag true)) ∧ s5.rsp = some (.ok (.flag true)) ∧
      s6.rsp = some (.ok .none) ∧ s7.rsp = some (.ok (.flag false)) ∧ s7.inputs = rest

/-! ### Calibration -/

/-- SET_OFFSET_MODE (R190; that the operand is the bit itself is decision D19): one `Update` of bit 7
of 0x02; a failed write leaves it old or new (R66, decision D17, log 8). -/
def Obligations.SetOffsetModeWritesBitSeven : Prop :=
  (∀ w : CmdWord, opOf w = 0xA → decode w = .setOffsetMode (chanOf w) (argOf w)) ∧
  ∀ (chan : BitVec 4) (arg : Byte),
    isUpdateCommand (.setOffsetMode chan arg) 0x02 0x80 (if arg.getLsbD 0 then 0x80 else 0x00) ∧
    ∀ s : State, s.begun → s.quietFor 2 → ∃ t, exec (.setOffsetMode chan arg) s = .next t ∧
      t.MODE = arg.getLsbD 0 ∧ t.OFFSET = s.OFFSET

/-- SET_OFFSET_VALUE (R191): one `Update` of bits 6:0 of 0x02; `arg[7]` does not reach the register and
the mode is kept; a failed write leaves the register old or new (R66, decision D17, log 8). -/
def Obligations.SetOffsetValueWritesLowSevenBits : Prop :=
  (∀ w : CmdWord, opOf w = 0xB → decode w = .setOffsetValue (chanOf w) (argOf w)) ∧
  ∀ (chan : BitVec 4) (arg : Byte),
    isUpdateCommand (.setOffsetValue chan arg) 0x02 0x7F (arg &&& 0x7F) ∧
    ∀ s : State, s.begun → s.quietFor 2 → ∃ t, exec (.setOffsetValue chan arg) s = .next t ∧
      t.OFFSET = arg.extractLsb' 0 7 ∧ t.MODE = s.MODE ∧
      t.reg 0x02 = (s.reg 0x02 &&& 0x80) ||| (arg &&& 0x7F)

/-- SET_CAP_SELECT (R192): one `Update` of bit 0 of 0x00; `STOP` is written back as read; a failed write
leaves the register old or new (R66, decision D17, log 8). -/
def Obligations.SetCapSelectWritesBitZero : Prop :=
  (∀ w : CmdWord, opOf w = 0xC → decode w = .setCapSelect (chanOf w) (argOf w)) ∧
  ∀ (chan : BitVec 4) (arg : Byte),
    isUpdateCommand (.setCapSelect chan arg) 0x00 0x01 (if arg.getLsbD 0 then 0x01 else 0x00) ∧
    ∀ s : State, s.begun → s.quietFor 2 → ∃ t, exec (.setCapSelect chan arg) s = .next t ∧
      t.CAP_SEL = arg.getLsbD 0 ∧ t.STOP = s.STOP ∧
      t.reg 0x00 = (s.reg 0x00 &&& 0xFE) ||| (if arg.getLsbD 0 then 0x01 else 0x00)

/-! ### The stubs -/

/-- GET_TICK (R200): always `Ok` with value 0, no transaction, nothing read or changed. -/
def Obligations.GetTickAnswersZero : Prop :=
  (∀ w : CmdWord, opOf w = 0xD → decode w = .getTick (chanOf w) (argOf w)) ∧
  ∀ (chan : BitVec 4) (arg : Byte) (s : State), s.cut = none → ∃ t, exec (.getTick chan arg) s = .next t ∧
    s.endsWith t (.ok (.value 0)) [] ∧ t.mem = s.mem

/-- SET_TOP and GET_TOP (R201, R202; success and the value 0 are decision D20, log 19): no transaction,
nothing stored; `GET_TOP` is not `MAX_TICK`. -/
def Obligations.TopStubsAnswerOk : Prop :=
  ∀ (chan : BitVec 4) (arg : Byte) (s : State), s.cut = none →
    (∃ t, exec (.setTop chan arg) s = .next t ∧ s.endsWith t (.ok .none) [] ∧ t.mem = s.mem) ∧
    ∃ t, exec (.getTop chan arg) s = .next t ∧ s.endsWith t (.ok (.value 0)) [] ∧ t.mem = s.mem ∧
      t.rsp ≠ some (.ok (.value (BitVec.ofNat 8 Config.maxTick)))

/-! ### Transactions and the register file -/

/-- R62, for a transaction that is issued now: a burst read that completes delivers the registers in ascending order and changes none; one
that fails changes none and raises `IoError`. -/
def Obligations.ReadDeliversRegistersAndChangesNone : Prop :=
  ∀ (a : Byte) (n : Nat) (take : List Byte → State → State) (s : State), 1 ≤ n → a.toNat + n ≤ 18 →
    s.inFlight = none →
    (s.nextSlot = .quiet → ∃ v u, transact (.read a n) take s = .done (take v u) ∧ v.length = n ∧
      (∀ k, k < n → v.getD k 0 = s.mem.get (a.toNat + k)) ∧ u.mem = s.mem ∧
      u.trace = s.trace ++ [⟨.read a n, .okRead v⟩]) ∧
    ∀ l, s.nextSlot = ⟨[], .fail l⟩ → ∃ u, transact (.read a n) take s = .raised .ioError u ∧
      u = { s with slots := s.slots.tail, trace := s.trace ++ [⟨.read a n, .fail⟩] }

/-- R63, for a transaction that is issued now (the chip model stores the byte and does nothing else, decision D22, log 16): a burst write that
completes stores its bytes at ascending addresses and nothing else. -/
def Obligations.WriteStoresItsBytesOnly : Prop :=
  ∀ (a : Byte) (data : List Byte) (take : List Byte → State → State) (s : State),
    1 ≤ data.length → a.toNat + data.length ≤ 18 → s.inFlight = none → s.nextSlot = .quiet →
    ∃ u, transact (.write a data) take s = .done (take [] u) ∧
      (∀ k, k < data.length → u.mem.get (a.toNat + k) = data.getD k 0) ∧
      ∀ x, x < a.toNat ∨ a.toNat + data.length ≤ x → u.mem.get x = s.mem.get x

/-- R66 (decision D17, log 8), for a transaction that is issued now: after a failed write each target register is old or new, each
independently, and no other changes. -/
def Obligations.FailedWriteLeavesOldOrNew : Prop :=
  ∀ (a : Byte) (data : List Byte) (take : List Byte → State → State) (s : State) (l : List Bool),
    1 ≤ data.length → a.toNat + data.length ≤ 18 → s.inFlight = none → s.nextSlot = ⟨[], .fail l⟩ →
    ∃ u, transact (.write a data) take s = .raised .ioError u ∧
      (∀ k, k < data.length → u.mem.get (a.toNat + k) =
        if l.getD k false then data.getD k 0 else s.mem.get (a.toNat + k)) ∧
      ∀ x, x < a.toNat ∨ a.toNat + data.length ≤ x → u.mem.get x = s.mem.get x

/-- R72: reading twice gives the same bytes, writing the same bytes twice leaves the registers as
writing them once. -/
def Obligations.RepeatedTransactionsAreIdempotent : Prop :=
  ∀ (t : Txn) (m : Memory), t.inMap = true →
    t.bytesRead (t.store m) = t.bytesRead m ∧
    (∀ x, (t.store (t.store m)).get x = (t.store m).get x) ∧
    ∀ n a, t = .read a n → t.store m = m

/-- The canonical form determines the data: two register files in it that read alike are equal. -/
def Obligations.CanonicalRegistersAreDetermined : Prop :=
  ∀ m m' : Memory, m.wf = true → m'.wf = true → (∀ a, a < 18 → m.get a = m'.get a) → m = m'

/-! ### The step -/

/-- A step of an idle block that is given a command is exec of the decoded command in the state that
has accepted it (R46, R101); a block with a command in progress goes on with that command (R79). The
model's own choices: acceptance takes away the last response and trace (log 26); a command given with a
block reset at position `n` is the same with that position latched (log 10); `withFetchWord`, the spec
fetching nothing (R21), presents one word with the latched operand to a block made idle (log 4). -/
def Obligations.StepRunsTheDecodedCommand : Prop :=
  (∀ (s : State) (w : CmdWord) (o : Operand) (rest : List Input) (i : Instr), s.busy = false →
    s.inputs = .command w o :: rest → decode w = i → i.wellFormed = true →
    step s = exec i { s with
      busy := true, cmd := w, opnd := o, step := 0, cut := none, inFlight := none, rsp := none,
      trace := [], inputs := rest }) ∧
  (∀ (s : State) (w : CmdWord) (o : Operand) (n : Nat) (rest : List Input) (i : Instr),
    s.busy = false → s.inputs = .commandCut w o n :: rest → decode w = i → i.wellFormed = true →
    step s = exec i { s with
      busy := true, cmd := w, opnd := o, step := 0, cut := some n, inFlight := none, rsp := none,
      trace := [], inputs := rest }) ∧
  (∀ s : State, s.busy = true → step s = exec (decode s.cmd) s) ∧
  ∀ (s : State) (w : Nat), w < 2 ^ 16 → s.busy = false →
    step (s.withFetchWord 16 w) = exec (decode (BitVec.ofNat 16 w))
      (accept (BitVec.ofNat 16 w) s.opnd s.dropTransient)

/-- R50, R52, for an idle block, which waits for no transaction (StepKeepsInvariant): with nothing
presented it waits; a reset of it performs no transaction, answers nothing and changes no register, and
(the model's choice, log 10, log 26) takes away the last response and keeps the last trace. An event of another agent inside the map happens
between commands and touches nothing else (R74, R76): here what it does is the model's own `apply`, and
two events are spelled out, a change of `BUS_READY` (R24, log 13) and a power event of the chip (R51,
R229, log 18), which leaves `OS` = 1 and any contents elsewhere. -/
def Obligations.IdleBlockWaitsAndResets : Prop :=
  ∀ s : State, s.busy = false → s.inFlight = none →
    (s.inputs = [] → step s = .next s) ∧
    (∀ rest, s.inputs = .blockReset :: rest → ∃ t, step s = .next t ∧ t.atRest ∧ t.rsp = none ∧
      t.mem = s.mem ∧ t.trace = s.trace ∧ t.slots = s.slots ∧ t.inputs = rest ∧
      t.busReady = s.busReady ∧ t.draws = s.draws) ∧
    (∀ e rest, s.inputs = .env e :: rest → e.inMap = true →
      ∃ u, e.apply { s with inputs := rest } = some u ∧ step s = .next u ∧
        u = { s with inputs := rest, mem := u.mem, busReady := u.busReady }) ∧
    (∀ b rest, s.inputs = .env (.busReady b) :: rest →
      step s = .next { s with inputs := rest, busReady := b }) ∧
    ∀ (contents : Vector Byte 18) rest, s.inputs = .env (.powerEvent contents) :: rest →
      ∃ u, step s = .next u ∧ u = { s with inputs := rest, mem := u.mem } ∧ u.OS = true ∧
        ∀ (x : Nat) (h : x < 18),
          u.mem.get x = if x = 0x04 then contents[x] ||| 0x80 else contents[x]

/-- R50 (decision D23, log 10): a block reset during a command abandons it without a response; the
transactions before it keep their effect and the one in flight has the effect of a failed one, which for
a write is old or new (R66, decision D17, log 8). Here: every command that is one `Update` (R64), its
read in flight or its write in flight. -/
def Obligations.ResetDuringUpdateAbandonsIt : Prop :=
  ∀ (i : Instr) (a mask val : Byte) (s : State) (l : List Bool), updateOf i = some (a, mask, val) →
    s.begun →
    let old := s.mem.get a.toNat
    let new := (old &&& ~~~mask) ||| (val &&& mask)
    (s.quietThen 0 (.blockReset l) → ∃ t, exec i s = .next t ∧ s.endedFrom t ∧ t.rsp = none ∧
      t.trace = s.trace ++ [⟨.read a 1, .fail⟩] ∧ t.mem = s.mem) ∧
    (s.quietThen 1 (.blockReset l) → ∃ t, exec i s = .next t ∧ s.endedFrom t ∧ t.rsp = none ∧
      t.trace = s.trace ++ [⟨.read a 1, .okRead [old]⟩, ⟨.write a [new], .fail⟩] ∧
      (t.mem.get a.toNat = old ∨ t.mem.get a.toNat = new) ∧
      ∀ x, x ≠ a.toNat → t.mem.get x = s.mem.get x)

/-- R50 (decision D23, log 10): a block reset at any point of any command, nobody else acting, abandons
it without a response. In transaction `k`, the registers and the trace are those of the command failing
in `k`. After `n` steps (before the next one is issued, or, after the last, before the response), the
trace holds the transactions of those steps alone, and the registers are those of a run whose next
transaction fails with nothing stored; a command without a transaction can be abandoned too. -/
def Obligations.ResetAtAnyPointAbandonsTheCommand : Prop :=
  (∀ (i : Instr) (s : State) (k : Nat) (l : List Bool), s.begun → s.busReady = true →
    k < (accesses i).length → s.quietThen k (.blockReset l) →
    ∃ t u, exec i s = .next t ∧ exec i { s with slots := failingAfter k l } = .next u ∧
      s.endedFrom t ∧ t.rsp = none ∧ u.rsp = some (.error .ioError) ∧ t.mem = u.mem ∧
      t.trace = u.trace ∧ t.slots = s.slots.drop (k + 1)) ∧
  ∀ (i : Instr) (s : State) (n : Nat), s.step = 0 → s.cut = some n → s.inFlight = none →
    s.busReady = true ∨ n = 0 →
    n ≤ leadSteps i + (accesses i).length → s.quietFor (n - leadSteps i) →
    ∃ t u, exec i s = .next t ∧
      exec i { s with cut := none, busReady := true, slots := failingAfter (n - leadSteps i) [] } =
        .next u ∧
      s.endedFrom t ∧ t.rsp = none ∧ t.mem = u.mem ∧ t.slots = s.slots.drop (n - leadSteps i) ∧
      t.draws = s.draws ∧ t.trace = s.trace ++ (u.trace.drop s.trace.length).take (n - leadSteps i) ∧
      t.trace.length = s.trace.length + (n - leadSteps i)

/-- Reset (R50 to R52): idle, nothing answered, and `OS` = 1, the one register fact the spec derives.
That the dead latches `cmd`, `opnd`, `step`, `tmp`, `blk` hold 0 (`atRest`) is the model's choice
(log 12), that no cut is due is log 10, that no trace is held is log 26, and that a step then waits rests
on the empty script of log 4. The other registers (log 1) and `BUS_READY` (log 13) are not stated here. -/
def Obligations.ResetIsIdleWithLostIntegrity : Prop :=
  State.reset.atRest ∧ State.reset.rsp = none ∧ State.reset.trace = [] ∧ State.reset.OS = true ∧
  step State.reset = .next State.reset

/-- The invariant holds at reset. -/
def Obligations.ResetSatisfiesInvariant : Prop := State.reset.Inv

/-- The invariant is kept by every step: canonical registers, a block at rest between commands
(R20), no early response (R46), at most five transactions issued (R79), only those of R69, a transaction
in flight being the one of the command's position (R13), and the agreement of response and trace (R214). -/
def Obligations.StepKeepsInvariant : Prop :=
  ∀ s t : State, s.Inv → step s = .next t → t.Inv

/-! ### Whole-machine rules -/

/-- R214: a command answers `Ok` only after all its transactions succeeded, an error other than
`IntegrityError` and `NotReady` only after one failed, and stops at that one. -/
def Obligations.ResponseAgreesWithTransactions : Prop :=
  ∀ (i : Instr) (s t : State), s.step = 0 → s.rsp = none → s.trace = [] → exec i s = .next t →
    (∀ p, t.rsp = some (.ok p) →
      t.trace.length = (accesses i).length ∧ ∀ r ∈ t.trace, r.outcome ≠ .fail) ∧
    (t.rsp = some (.error .ioError) →
      ∃ l r, t.trace = l ++ [r] ∧ r.outcome = .fail ∧ ∀ q ∈ l, q.outcome ≠ .fail) ∧
    (t.rsp = some (.error .integrityError) →
      t.trace.length = (accesses i).length ∧ ∀ r ∈ t.trace, r.outcome ≠ .fail) ∧
    (t.rsp = some (.error .notReady) → t.trace = [])

/-- R210 (the code numbers are decision D4): which command can raise which error, and the code and the
absent payload of each. -/
def Obligations.ErrorKindsPerCommand : Prop :=
  (∀ (i : Instr) (s t : State), s.rsp = none → exec i s = .next t →
    (t.rsp = some (.error .notReady) → i.op = 0x2) ∧
    (t.rsp = some (.error .ioError) → usesBus i = true) ∧
    (t.rsp = some (.error .integrityError) → i.op = 0x1 ∨ i.op = 0x5)) ∧
  (∀ p, (Response.ok p).code = 0) ∧ (Response.error .notReady).code = 1 ∧
  (Response.error .ioError).code = 2 ∧ (Response.error .integrityError).code = 3

/-- R216: a step that raises ends the command at once: no further transaction (the script moves by one
slot at most), the transient state discarded, the error's code, no payload, everything else as the
failing step left it. -/
def Obligations.RaisingEndsTheCommand : Prop :=
  ∀ (finish : State → State) (c : CmdStep) (rest : List CmdStep) (s u : State) (k : ErrorKind),
    s.isCut = false → c.perform s = .raised k u →
    ∃ t, runSteps finish (c :: rest) s = .next t ∧ t.atRest ∧ t.rsp = some (.error k) ∧
      t.mem = u.mem ∧ t.trace = u.trace ∧ t.slots = u.slots ∧ t.busReady = u.busReady ∧
      t.inputs = s.inputs ∧ t.draws = s.draws ∧ (t.slots = s.slots ∨ t.slots = s.slots.tail)

/-- R69: no step ever reaches outside the register map, from any state and under any script. -/
def Obligations.NoStepFaults : Prop :=
  ∀ (s : State) (f : Fault), step s ≠ .fault f

/-- A script whose events stay inside the register map never stops the machine: every step answers a
next state, whatever the transport answers. -/
def Obligations.ScriptsInsideTheMapAlwaysStep : Prop :=
  ∀ s : State, s.everyEvent EnvEvent.inMap = true →
    ∃ t, step s = .next t ∧ t.everyEvent EnvEvent.inMap = true

/-- R13, R49, R70 (the matrix is the spec's inference): under any script the transactions a command has
issued, the one it waits in among them, are a prefix of its access matrix, in order, and the whole of it
when it answers `Ok`. A transaction of the trace has returned or was cut; the one in flight is pending. -/
def Obligations.CommandsIssueTheirAccesses : Prop :=
  ∀ (i : Instr) (s t : State), s.step = 0 → s.trace = [] → exec i s = .next t →
    (t.issued.map (fun r => r.txn.shape)) <+: accesses i ∧
    (∀ r ∈ t.issued, r.txn.shape.issuable = true) ∧
    (s.rsp = none → (∃ p, t.rsp = some (.ok p)) →
      t.issued.map (fun r => r.txn.shape) = accesses i) ∧
    (∀ r ∈ t.trace, r.outcome ≠ .pending) ∧
    ((∃ r ∈ t.issued, r.outcome = .pending) ↔ t.inFlight ≠ none)

/-- R266: when `BUS_READY` is 1 and the transport answers `Ok` to the next five transactions, every
command ends, with `Ok` or, for the two that decode, with `IntegrityError`, whatever other agents do
inside the register map. -/
def Obligations.AnsweredCommandsEnd : Prop :=
  ∀ (i : Instr) (s : State), s.begun → s.busReady = true → s.trace = [] → s.answeredOk 5 →
    s.everyEvent EnvEvent.inMap = true →
    ∃ t, exec i s = .next t ∧ t.atRest ∧ t.trace.length = (accesses i).length ∧
      ((∃ p, t.rsp = some (.ok p)) ∨
        (t.rsp = some (.error .integrityError) ∧ (i.op = 0x1 ∨ i.op = 0x5)))

/-- The frame of every command, nobody else acting, whatever the transport answers: every register
outside the cells its access matrix writes reads as before; `BUS_READY` and the host's script stay;
only the two decoding commands draw. -/
def Obligations.FrameOfEveryCommand : Prop :=
  ∀ (i : Instr) (s t : State), s.silent = true → exec i s = .next t →
    (∀ x, writesCell (accesses i) x = false → t.mem.get x = s.mem.get x) ∧
    t.busReady = s.busReady ∧ t.inputs = s.inputs ∧
    (i.op ≠ 0x1 → i.op ≠ 0x5 → t.draws = s.draws) ∧ (t.draws = s.draws ∨ t.draws = s.draws + 1)

/-- R49: the registers 0x03 and 0x0B to 0x0F are reached by no command; with one caller every step leaves
them. That no move of the chip changes them is R76's `Free`, decision D22 (log 16), not the source's. -/
def Obligations.UnusedRegistersStay : Prop :=
  ∀ s t : State, s.everyEvent EnvEvent.chipOnly = true → step s = .next t →
    ∀ x, x = 0x03 ∨ (0x0B ≤ x ∧ x ≤ 0x0F) → t.mem.get x = s.mem.get x

/-- R41, R263: with one caller and a chip that moves by itself, only SET_TIME can take `OS` from 1 to
0, and no command but START and STOP changes `STOP`; none changes `AIE` (R28). That the chip itself
never clears `OS` and never changes `STOP` or `AIE` is R76's `Free`, decision D22 (log 16). -/
def Obligations.OnlyNamedCommandsChangeOSAndSTOP : Prop :=
  ∀ (i : Instr) (s t : State), s.everyEvent EnvEvent.chipOnly = true → s.step = 0 →
    exec i s = .next t →
    (s.OS = true → i.op ≠ 0x6 → t.OS = true) ∧
    (i.op ≠ 0x3 → i.op ≠ 0x4 → t.STOP = s.STOP) ∧
    t.AIE = s.AIE

/-- R255 (the spec's inference from R64 and R74): a write of another agent to the same register
between the two halves of an `Update` is undone outside the mask. For every command that is one
`Update`, and for the two `Update`s of SET_ALARM (mask and 1 Hz code: decision D14, log 20) and of
CANCEL_ALARM, against a write of any byte `v`: the bits outside the mask are what the command read.
Where `v` clears a set `AF`, the write-back of 0x01 sets it again: that a written 1 is stored in a flag is
R76's chip model (decision D22, log 16), which 93_implementation_defined.md U6 leaves unknown of the
real chip. -/
def Obligations.ForeignWriteInsideUpdateIsLost : Prop :=
  ∀ (s : State) (v : Byte) (n : Nat) (more : List Slot), s.begun →
    let writes := fun (a : Byte) => (⟨[.foreign n (.write a [v]) none], .ok⟩ : Slot)
    (∀ (i : Instr) (a mask val : Byte), updateOf i = some (a, mask, val) →
      s.slots = [.quiet, writes a] ++ more →
      ∃ t, exec i s = .next t ∧ t.rsp = some (.ok .none) ∧ ∀ x, t.mem.get x =
        if x = a.toNat then (s.mem.get a.toNat &&& ~~~mask) ||| (val &&& mask) else s.mem.get x) ∧
    (∀ (chan : BitVec 4) (arg : Byte),
      s.slots = [.quiet, writes 0x01, .quiet, .quiet, writes 0x11] ++ more →
      ∃ t, exec (.setAlarm chan arg) s = .next t ∧ t.rsp = some (.ok .none) ∧ ∀ x, t.mem.get x =
        if x = 0x01 then s.mem.get 0x01 &&& 0xF7 else if x = 0x10 then arg
        else if x = 0x11 then (s.mem.get 0x11 &&& 0xE1) ||| 0x16 else s.mem.get x) ∧
    ∀ (chan : BitVec 4) (arg : Byte), s.slots = [.quiet, writes 0x01, .quiet, writes 0x11] ++ more →
      ∃ t, exec (.cancelAlarm chan arg) s = .next t ∧ t.rsp = some (.ok .none) ∧ ∀ x, t.mem.get x =
        if x = 0x01 then s.mem.get 0x01 &&& 0xF7
        else if x = 0x11 then s.mem.get 0x11 &&& 0xF8 else s.mem.get x

/-- R256 (the spec's inference): an `AF` that the chip raises between the read and the write of step
(a) of SET_ALARM or CANCEL_ALARM is written back as it was read; a `TF` raised there is cleared. -/
def Obligations.AlarmFlagRaisedInsideStepAIsLost : Prop :=
  ∀ (i : Instr) (s : State) (more : List Slot), s.begun → i.op = 0x7 ∨ i.op = 0x8 →
    s.slots = [.quiet, ⟨[.chip .raiseAF, .chip .raiseTF], .ok⟩, .quiet, .quiet, .quiet] ++ more →
    ∃ t, exec i s = .next t ∧ t.rsp = some (.ok .none) ∧ t.AF = s.AF ∧ t.TF = false

/-- R218 (the spec's inference): nobody else acting, a command run again from the registers that an
ended run left, and answered `Ok` throughout, reaches the registers a first successful run reaches. -/
def Obligations.RetryReachesTheSameRegisters : Prop :=
  ∀ (w : CmdWord) (o : Operand) (s t u v : State), s.silent = true →
    exec (decode w) (accept w o s) = .next t → t.busy = false →
    exec (decode w) (accept w o { t with slots := [] }) = .next u →
    exec (decode w) (accept w o { s with slots := [] }) = .next v →
    s.busReady = true → ∀ a, u.mem.get a = v.mem.get a

/-- R79 (log 9): a transaction that has not returned leaves the command waiting in it, without a
response and the transaction in flight (R13); when the transport answers, the command goes on as if it had
answered at once, unless the chip loses power meanwhile. One that never returns leaves the command
hanging without a response: every further step is the same state, so the command never ends and no
further command is accepted (R266). Power loss of the chip (R229) while a transaction is in flight: it
fails, without effect on the registers the power event left (log 18), or never returns, or the block is
reset; it never completes, however much later the transport answers. -/
def Obligations.WaitingCommandResumes : Prop :=
  (∀ (i : Instr) (s t : State) (pre post : List Slot), s.busy = true → s.rsp = none →
    (∀ sl ∈ pre, sl.answer = .ok) →
    exec i { s with slots := pre ++ ⟨[], .noAnswer⟩ :: post } = .next t → t.busy = true →
    t.rsp = none ∧ t.cmd = s.cmd ∧ t.slots = post ∧
    (∃ x, t.inFlight = some x ∧ t.issued = t.trace ++ [⟨x.txn, .pending⟩]) ∧
    ((∀ e ∈ t.nextSlot.before, e.isPowerEvent = false) →
      exec i t = exec i { s with slots := pre ++ post })) ∧
  (∀ (i : Instr) (s : State) (x : InFlight), s.inFlight = some x → s.cut = none → s.rsp = none →
    s.busy = true → leadSteps i ≤ s.step → s.step < leadSteps i + (accesses i).length →
    (∀ (contents : Vector Byte 18) (a : BusAnswer), s.nextSlot = ⟨[.powerEvent contents], a⟩ →
      ∃ t, exec i s = .next t ∧
        (∀ (y : Nat) (h : y < 18),
          t.mem.get y = if y = 0x04 then contents[y] ||| 0x80 else contents[y]) ∧
        ((∃ l, a = .ok ∨ a = .fail l) → t.atRest ∧ t.rsp = some (.error .ioError)) ∧
        ((∃ l, a = .noAnswer ∨ a = .never l) → t.busy = true ∧ t.rsp = none ∧
          ∃ z, t.inFlight = some z ∧ z.powerLost = true) ∧
        (∀ l, a = .blockReset l → t.atRest ∧ t.rsp = none)) ∧
    (x.powerLost = true → ∀ t, exec i s = .next t →
      (t.atRest ∧ (t.rsp = none ∨ t.rsp = some (.error .ioError))) ∨
      (t.busy = true ∧ t.rsp = none ∧ ∃ z, t.inFlight = some z ∧ z.powerLost = true))) ∧
  ∀ (i : Instr) (s : State) (k : Nat) (l : List Bool), s.begun → s.busReady = true →
    s.rsp = none → k < (accesses i).length → s.quietThen k (.never l) → s.busy = true →
    decode s.cmd = i → ∃ t, exec i s = .next t ∧ t.busy = true ∧ t.rsp = none ∧
      t.trace.length = s.trace.length + k ∧
      (∃ x, t.issued = t.trace ++ [⟨x, .pending⟩] ∧ (accesses i)[k]? = some x.shape) ∧
      t.inputs = s.inputs ∧ step t = .next t

/-- R20, R22: the response, the transactions and the registers a command leaves do not depend on what
the latches `cmd`, `tmp`, `blk` held before it; a command that waits is left out, since the latches are
then still alive. -/
def Obligations.EarlierLatchesDoNotMatter : Prop :=
  ∀ (i : Instr) (s t : State) (w : CmdWord) (v : Byte) (b : RawTimeBlock), s.step = 0 →
    s.busy = true → exec i s = .next t → t.busy = false →
    exec i { s with cmd := w, tmp := v, blk := b } = .next t

/-- R146: ENCODE, and DECODE where `yday` is defined or the block is refused, answer from their operand
alone. -/
def Obligations.CodecIsPure : Prop :=
  ∀ (s s' t t' : State) (ch ch' : BitVec 4) (a a' : Byte), s.opnd = s'.opnd →
    s.cut = none → s'.cut = none →
    (exec (.encode ch a) s = .next t → exec (.encode ch' a') s' = .next t' → t.rsp = t'.rsp) ∧
    (exec (.decode ch a) s = .next t → exec (.decode ch' a') s' = .next t' →
      (1 ≤ digitsOf s.opnd.block.months ∧ digitsOf s.opnd.block.months ≤ 12 ∧
        1 ≤ digitsOf s.opnd.block.days) ∨ s.opnd.block.seconds.getLsbD 7 = true →
      t.rsp = t'.rsp)

/-- R76 (`Free`, decision D22, log 16): what the chip's own moves hold stable and what they never
clear. -/
def Obligations.ChipMovesStayWithinFree : Prop :=
  ∀ (c : ChipMove) (m : Memory),
    (∀ x, x = 0x00 ∨ x = 0x02 ∨ x = 0x03 ∨ (0x0B ≤ x ∧ x ≤ 0x0F) ∨ x = 0x11 →
      (c.apply m).get x = m.get x) ∧
    (c.apply m).get 0x01 &&& 0xB7 = m.get 0x01 &&& 0xB7 ∧
    (tfOf (m.get 0x01) = true → tfOf ((c.apply m).get 0x01) = true) ∧
    (bitSet (m.get 0x01) ctrl2AF = true → bitSet ((c.apply m).get 0x01) ctrl2AF = true) ∧
    (osOf (m.get 0x04) = true → osOf ((c.apply m).get 0x04) = true) ∧
    ((∀ b, c ≠ .clock b) → ∀ x, 5 ≤ x ∧ x ≤ 10 → (c.apply m).get x = m.get x) ∧
    ((∀ b, c ≠ .clock b) → (c.apply m).get 0x04 &&& 0x7F = m.get 0x04 &&& 0x7F) ∧
    (c ≠ .raiseOS → osOf ((c.apply m).get 0x04) = osOf (m.get 0x04)) ∧
    ((∀ v, c ≠ .countdown v) → (c.apply m).get 0x10 = m.get 0x10) ∧
    (c ≠ .raiseTF → tfOf ((c.apply m).get 0x01) = tfOf (m.get 0x01)) ∧
    (c ≠ .raiseAF → bitSet ((c.apply m).get 0x01) ctrl2AF = bitSet (m.get 0x01) ctrl2AF)
end

