-- ==== Sys2Proof/Laws/State.lean ====
section
/-! SUPPORT. One lemma per field of each update of the state, so that no later proof unfolds an
update. -/

namespace Sys2Proof.Machine

@[simp] theorem dropTransient_busy (s : State) : (s.dropTransient).busy = false := rfl
@[simp] theorem dropTransient_cmd (s : State) : (s.dropTransient).cmd = 0 := rfl
@[simp] theorem dropTransient_opnd (s : State) : (s.dropTransient).opnd = .zero := rfl
@[simp] theorem dropTransient_step (s : State) : (s.dropTransient).step = 0 := rfl
@[simp] theorem dropTransient_tmp (s : State) : (s.dropTransient).tmp = 0 := rfl
@[simp] theorem dropTransient_blk (s : State) : (s.dropTransient).blk = .zero := rfl
@[simp] theorem dropTransient_cut (s : State) : (s.dropTransient).cut = none := rfl
@[simp] theorem dropTransient_inFlight (s : State) : (s.dropTransient).inFlight = none := rfl
@[simp] theorem dropTransient_rsp (s : State) : (s.dropTransient).rsp = s.rsp := rfl
@[simp] theorem dropTransient_trace (s : State) : (s.dropTransient).trace = s.trace := rfl
@[simp] theorem dropTransient_busReady (s : State) : (s.dropTransient).busReady = s.busReady := rfl
@[simp] theorem dropTransient_mem (s : State) : (s.dropTransient).mem = s.mem := rfl
@[simp] theorem dropTransient_inputs (s : State) : (s.dropTransient).inputs = s.inputs := rfl
@[simp] theorem dropTransient_slots (s : State) : (s.dropTransient).slots = s.slots := rfl
@[simp] theorem dropTransient_draws (s : State) : (s.dropTransient).draws = s.draws := rfl

@[simp] theorem raise_busy (k : ErrorKind) (s : State) : (raise k s).busy = false := rfl
@[simp] theorem raise_cmd (k : ErrorKind) (s : State) : (raise k s).cmd = 0 := rfl
@[simp] theorem raise_opnd (k : ErrorKind) (s : State) : (raise k s).opnd = .zero := rfl
@[simp] theorem raise_step (k : ErrorKind) (s : State) : (raise k s).step = 0 := rfl
@[simp] theorem raise_tmp (k : ErrorKind) (s : State) : (raise k s).tmp = 0 := rfl
@[simp] theorem raise_blk (k : ErrorKind) (s : State) : (raise k s).blk = .zero := rfl
@[simp] theorem raise_cut (k : ErrorKind) (s : State) : (raise k s).cut = none := rfl
@[simp] theorem raise_inFlight (k : ErrorKind) (s : State) : (raise k s).inFlight = none := rfl
@[simp] theorem raise_rsp (k : ErrorKind) (s : State) : (raise k s).rsp = some (.error k) := rfl
@[simp] theorem raise_trace (k : ErrorKind) (s : State) : (raise k s).trace = s.trace := rfl
@[simp] theorem raise_busReady (k : ErrorKind) (s : State) : (raise k s).busReady = s.busReady := rfl
@[simp] theorem raise_mem (k : ErrorKind) (s : State) : (raise k s).mem = s.mem := rfl
@[simp] theorem raise_inputs (k : ErrorKind) (s : State) : (raise k s).inputs = s.inputs := rfl
@[simp] theorem raise_slots (k : ErrorKind) (s : State) : (raise k s).slots = s.slots := rfl
@[simp] theorem raise_draws (k : ErrorKind) (s : State) : (raise k s).draws = s.draws := rfl

@[simp] theorem respondOk_busy (p : Payload) (s : State) : (respondOk p s).busy = false := rfl
@[simp] theorem respondOk_cmd (p : Payload) (s : State) : (respondOk p s).cmd = 0 := rfl
@[simp] theorem respondOk_opnd (p : Payload) (s : State) : (respondOk p s).opnd = .zero := rfl
@[simp] theorem respondOk_step (p : Payload) (s : State) : (respondOk p s).step = 0 := rfl
@[simp] theorem respondOk_tmp (p : Payload) (s : State) : (respondOk p s).tmp = 0 := rfl
@[simp] theorem respondOk_blk (p : Payload) (s : State) : (respondOk p s).blk = .zero := rfl
@[simp] theorem respondOk_cut (p : Payload) (s : State) : (respondOk p s).cut = none := rfl
@[simp] theorem respondOk_inFlight (p : Payload) (s : State) : (respondOk p s).inFlight = none := rfl
@[simp] theorem respondOk_rsp (p : Payload) (s : State) : (respondOk p s).rsp = some (.ok p) := rfl
@[simp] theorem respondOk_trace (p : Payload) (s : State) : (respondOk p s).trace = s.trace := rfl
@[simp] theorem respondOk_busReady (p : Payload) (s : State) : (respondOk p s).busReady = s.busReady := rfl
@[simp] theorem respondOk_mem (p : Payload) (s : State) : (respondOk p s).mem = s.mem := rfl
@[simp] theorem respondOk_inputs (p : Payload) (s : State) : (respondOk p s).inputs = s.inputs := rfl
@[simp] theorem respondOk_slots (p : Payload) (s : State) : (respondOk p s).slots = s.slots := rfl
@[simp] theorem respondOk_draws (p : Payload) (s : State) : (respondOk p s).draws = s.draws := rfl

@[simp] theorem blockReset_busy (s : State) : (blockReset s).busy = false := rfl
@[simp] theorem blockReset_cmd (s : State) : (blockReset s).cmd = 0 := rfl
@[simp] theorem blockReset_opnd (s : State) : (blockReset s).opnd = .zero := rfl
@[simp] theorem blockReset_step (s : State) : (blockReset s).step = 0 := rfl
@[simp] theorem blockReset_tmp (s : State) : (blockReset s).tmp = 0 := rfl
@[simp] theorem blockReset_blk (s : State) : (blockReset s).blk = .zero := rfl
@[simp] theorem blockReset_cut (s : State) : (blockReset s).cut = none := rfl
@[simp] theorem blockReset_inFlight (s : State) : (blockReset s).inFlight = none := rfl
@[simp] theorem blockReset_rsp (s : State) : (blockReset s).rsp = none := rfl
@[simp] theorem blockReset_trace (s : State) : (blockReset s).trace = s.trace := rfl
@[simp] theorem blockReset_busReady (s : State) : (blockReset s).busReady = s.busReady := rfl
@[simp] theorem blockReset_mem (s : State) : (blockReset s).mem = s.mem := rfl
@[simp] theorem blockReset_inputs (s : State) : (blockReset s).inputs = s.inputs := rfl
@[simp] theorem blockReset_slots (s : State) : (blockReset s).slots = s.slots := rfl
@[simp] theorem blockReset_draws (s : State) : (blockReset s).draws = s.draws := rfl

@[simp] theorem accept_busy (w : CmdWord) (o : Operand) (s : State) : (accept w o s).busy = true := rfl
@[simp] theorem accept_cmd (w : CmdWord) (o : Operand) (s : State) : (accept w o s).cmd = w := rfl
@[simp] theorem accept_opnd (w : CmdWord) (o : Operand) (s : State) : (accept w o s).opnd = o := rfl
@[simp] theorem accept_step (w : CmdWord) (o : Operand) (s : State) : (accept w o s).step = 0 := rfl
@[simp] theorem accept_tmp (w : CmdWord) (o : Operand) (s : State) : (accept w o s).tmp = s.tmp := rfl
@[simp] theorem accept_blk (w : CmdWord) (o : Operand) (s : State) : (accept w o s).blk = s.blk := rfl
@[simp] theorem accept_cut (w : CmdWord) (o : Operand) (s : State) : (accept w o s).cut = none := rfl
@[simp] theorem accept_inFlight (w : CmdWord) (o : Operand) (s : State) : (accept w o s).inFlight = none := rfl
@[simp] theorem accept_rsp (w : CmdWord) (o : Operand) (s : State) : (accept w o s).rsp = none := rfl
@[simp] theorem accept_trace (w : CmdWord) (o : Operand) (s : State) : (accept w o s).trace = [] := rfl
@[simp] theorem accept_busReady (w : CmdWord) (o : Operand) (s : State) : (accept w o s).busReady = s.busReady := rfl
@[simp] theorem accept_mem (w : CmdWord) (o : Operand) (s : State) : (accept w o s).mem = s.mem := rfl
@[simp] theorem accept_inputs (w : CmdWord) (o : Operand) (s : State) : (accept w o s).inputs = s.inputs := rfl
@[simp] theorem accept_slots (w : CmdWord) (o : Operand) (s : State) : (accept w o s).slots = s.slots := rfl
@[simp] theorem accept_draws (w : CmdWord) (o : Operand) (s : State) : (accept w o s).draws = s.draws := rfl

@[simp] theorem record_busy (x : Txn) (y : TxnOutcome) (s : State) : (s.record x y).busy = s.busy := rfl
@[simp] theorem record_cmd (x : Txn) (y : TxnOutcome) (s : State) : (s.record x y).cmd = s.cmd := rfl
@[simp] theorem record_opnd (x : Txn) (y : TxnOutcome) (s : State) : (s.record x y).opnd = s.opnd := rfl
@[simp] theorem record_step (x : Txn) (y : TxnOutcome) (s : State) : (s.record x y).step = s.step := rfl
@[simp] theorem record_tmp (x : Txn) (y : TxnOutcome) (s : State) : (s.record x y).tmp = s.tmp := rfl
@[simp] theorem record_blk (x : Txn) (y : TxnOutcome) (s : State) : (s.record x y).blk = s.blk := rfl
@[simp] theorem record_cut (x : Txn) (y : TxnOutcome) (s : State) : (s.record x y).cut = s.cut := rfl
@[simp] theorem record_inFlight (x : Txn) (y : TxnOutcome) (s : State) : (s.record x y).inFlight = none := rfl
@[simp] theorem record_rsp (x : Txn) (y : TxnOutcome) (s : State) : (s.record x y).rsp = s.rsp := rfl
@[simp] theorem record_trace (x : Txn) (y : TxnOutcome) (s : State) : (s.record x y).trace = s.trace ++ [⟨x, y⟩] := rfl
@[simp] theorem record_busReady (x : Txn) (y : TxnOutcome) (s : State) : (s.record x y).busReady = s.busReady := rfl
@[simp] theorem record_mem (x : Txn) (y : TxnOutcome) (s : State) : (s.record x y).mem = s.mem := rfl
@[simp] theorem record_inputs (x : Txn) (y : TxnOutcome) (s : State) : (s.record x y).inputs = s.inputs := rfl
@[simp] theorem record_slots (x : Txn) (y : TxnOutcome) (s : State) : (s.record x y).slots = s.slots := rfl
@[simp] theorem record_draws (x : Txn) (y : TxnOutcome) (s : State) : (s.record x y).draws = s.draws := rfl

@[simp] theorem hold_busy (x : Txn) (s : State) : (s.hold x).busy = s.busy := rfl
@[simp] theorem hold_cmd (x : Txn) (s : State) : (s.hold x).cmd = s.cmd := rfl
@[simp] theorem hold_opnd (x : Txn) (s : State) : (s.hold x).opnd = s.opnd := rfl
@[simp] theorem hold_step (x : Txn) (s : State) : (s.hold x).step = s.step := rfl
@[simp] theorem hold_tmp (x : Txn) (s : State) : (s.hold x).tmp = s.tmp := rfl
@[simp] theorem hold_blk (x : Txn) (s : State) : (s.hold x).blk = s.blk := rfl
@[simp] theorem hold_cut (x : Txn) (s : State) : (s.hold x).cut = s.cut := rfl
@[simp] theorem hold_rsp (x : Txn) (s : State) : (s.hold x).rsp = s.rsp := rfl
@[simp] theorem hold_trace (x : Txn) (s : State) : (s.hold x).trace = s.trace := rfl
@[simp] theorem hold_busReady (x : Txn) (s : State) : (s.hold x).busReady = s.busReady := rfl
@[simp] theorem hold_mem (x : Txn) (s : State) : (s.hold x).mem = s.mem := rfl
@[simp] theorem hold_inputs (x : Txn) (s : State) : (s.hold x).inputs = s.inputs := rfl
@[simp] theorem hold_slots (x : Txn) (s : State) : (s.hold x).slots = s.slots := rfl
@[simp] theorem hold_draws (x : Txn) (s : State) : (s.hold x).draws = s.draws := rfl
@[simp] theorem hold_inFlight (x : Txn) (s : State) : (s.hold x).inFlight = some ⟨x, s.powerLost⟩ := rfl

@[simp] theorem advance_busy (s : State) : (s.advance).busy = s.busy := rfl
@[simp] theorem advance_cmd (s : State) : (s.advance).cmd = s.cmd := rfl
@[simp] theorem advance_opnd (s : State) : (s.advance).opnd = s.opnd := rfl
@[simp] theorem advance_step (s : State) : (s.advance).step = s.step + 1 := rfl
@[simp] theorem advance_tmp (s : State) : (s.advance).tmp = s.tmp := rfl
@[simp] theorem advance_blk (s : State) : (s.advance).blk = s.blk := rfl
@[simp] theorem advance_cut (s : State) : (s.advance).cut = s.cut := rfl
@[simp] theorem advance_inFlight (s : State) : (s.advance).inFlight = s.inFlight := rfl
@[simp] theorem advance_rsp (s : State) : (s.advance).rsp = s.rsp := rfl
@[simp] theorem advance_trace (s : State) : (s.advance).trace = s.trace := rfl
@[simp] theorem advance_busReady (s : State) : (s.advance).busReady = s.busReady := rfl
@[simp] theorem advance_mem (s : State) : (s.advance).mem = s.mem := rfl
@[simp] theorem advance_inputs (s : State) : (s.advance).inputs = s.inputs := rfl
@[simp] theorem advance_slots (s : State) : (s.advance).slots = s.slots := rfl
@[simp] theorem advance_draws (s : State) : (s.advance).draws = s.draws := rfl

@[simp] theorem cutAt_busy (n : Nat) (s : State) : (s.cutAt n).busy = s.busy := rfl
@[simp] theorem cutAt_cmd (n : Nat) (s : State) : (s.cutAt n).cmd = s.cmd := rfl
@[simp] theorem cutAt_opnd (n : Nat) (s : State) : (s.cutAt n).opnd = s.opnd := rfl
@[simp] theorem cutAt_step (n : Nat) (s : State) : (s.cutAt n).step = s.step := rfl
@[simp] theorem cutAt_tmp (n : Nat) (s : State) : (s.cutAt n).tmp = s.tmp := rfl
@[simp] theorem cutAt_blk (n : Nat) (s : State) : (s.cutAt n).blk = s.blk := rfl
@[simp] theorem cutAt_rsp (n : Nat) (s : State) : (s.cutAt n).rsp = s.rsp := rfl
@[simp] theorem cutAt_trace (n : Nat) (s : State) : (s.cutAt n).trace = s.trace := rfl
@[simp] theorem cutAt_busReady (n : Nat) (s : State) : (s.cutAt n).busReady = s.busReady := rfl
@[simp] theorem cutAt_mem (n : Nat) (s : State) : (s.cutAt n).mem = s.mem := rfl
@[simp] theorem cutAt_inputs (n : Nat) (s : State) : (s.cutAt n).inputs = s.inputs := rfl
@[simp] theorem cutAt_slots (n : Nat) (s : State) : (s.cutAt n).slots = s.slots := rfl
@[simp] theorem cutAt_draws (n : Nat) (s : State) : (s.cutAt n).draws = s.draws := rfl
@[simp] theorem cutAt_cut (n : Nat) (s : State) : (s.cutAt n).cut = some n := rfl
@[simp] theorem cutAt_inFlight (n : Nat) (s : State) : (s.cutAt n).inFlight = s.inFlight := rfl

/-- Nothing in flight: no power was lost under it, and the answer is the transport's. -/
theorem powerLost_of_none {s : State} (h : s.inFlight = none) : s.powerLost = false := by
  simp [State.powerLost, h]

theorem answerFrom_of_none {s : State} (h : s.inFlight = none) (a : BusAnswer) :
    s.answerFrom a = a := by
  simp [State.answerFrom, powerLost_of_none h]

theorem answerFrom_congr {s t : State} (h : t.inFlight = s.inFlight) (a : BusAnswer) :
    t.answerFrom a = s.answerFrom a := by
  rw [State.answerFrom, State.answerFrom, State.powerLost, State.powerLost, h]

/-- After a power loss no transaction completes (60_exceptions.md R229). -/
theorem answerFrom_ne_ok {s : State} (h : s.powerLost = true) (a : BusAnswer) :
    s.answerFrom a ≠ .ok := by
  cases a <;> simp [State.answerFrom, h, BusAnswer.afterPowerLoss]

/-- A power loss makes no transaction hang that the transport would answer. -/
theorem answerFrom_never {s : State} {a : BusAnswer} {l : List Bool}
    (h : s.answerFrom a = .never l) : ∃ l', a = .never l' := by
  cases a <;> (unfold State.answerFrom at h; split at h) <;> simp_all [BusAnswer.afterPowerLoss]

theorem issued_of_none {s : State} (h : s.inFlight = none) : s.issued = s.trace := by
  simp [State.issued, h]

theorem issued_of_some {s : State} {x : InFlight} (h : s.inFlight = some x) :
    s.issued = s.trace ++ [⟨x.txn, .pending⟩] := by
  simp [State.issued, h]

/-- A command that no block reset cuts between steps is not cut now. -/
theorem isCut_of_none {s : State} (h : s.cut = none) : s.isCut = false := by simp [State.isCut, h]

theorem isCut_iff (s : State) : s.isCut = true ↔ s.cut = some s.step := by simp [State.isCut]

theorem isCut_congr {s t : State} (hc : t.cut = s.cut) (hs : t.step = s.step) :
    t.isCut = s.isCut := by
  simp [State.isCut, hc, hs]

end Sys2Proof.Machine
end

