-- ==== Sys2Proof/Laws/Codec.lean ====
section
/-! SUPPORT. The laws of the codec (40_codec.md): BCD digits, the masks on valid values, the day of
the year, and what the end of a decoding command leaves. -/

namespace Sys2Proof.Machine

/-! ### BCD -/

theorem bcdPack_eq (v : Nat) : bcdPack v = BitVec.ofNat 8 (v / 10 * 16 + v % 10) := by
  unfold bcdPack
  rw [← Nat.shiftLeft_add_eq_or_of_lt (by omega : v % 10 < 2 ^ 4), Nat.shiftLeft_eq]

theorem bcdUnpack_eq (b : Byte) : bcdUnpack b = digitsOf b := by decide +revert

theorem bcdUnpackSec_eq : ∀ b : Byte, b.getLsbD 7 = false → bcdUnpackSec b = digitsOf b := by decide

theorem digitsOf_le : ∀ b : Byte, digitsOf b ≤ 165 := by decide

theorem digitsOf_bcdPack {v : Nat} (h : v ≤ 99) : digitsOf (bcdPack v) = v := by
  interval_cases v <;> rfl

theorem bcdPack_digitsOf : ∀ b : Byte, bcdWithin 0 99 b = true → bcdPack (digitsOf b) = b := by
  decide

theorem bcdWithin_digits {lo hi : Nat} {b : Byte} (h : bcdWithin lo hi b = true) (hh : hi ≤ 99) :
    bcdWithin 0 99 b = true ∧ lo ≤ digitsOf b ∧ digitsOf b ≤ hi := by
  simp [bcdWithin] at h ⊢
  unfold digitsOf; omega

theorem osOf_eq : ∀ b : Byte, osOf b = b.getLsbD 7 := by decide

theorem toNat_and_weekdayMask : ∀ b : Byte, (b &&& weekdayMask).toNat = b.toNat % 8 := by decide

/-! ### The masks do not touch packed valid values -/

theorem bcdPack_and_7F {v : Nat} (h : v ≤ 59) : bcdPack v &&& 0x7F = bcdPack v := by
  interval_cases v <;> rfl

theorem bcdPack_and_3F {v : Nat} (h : v ≤ 31) : bcdPack v &&& 0x3F = bcdPack v := by
  interval_cases v <;> rfl

theorem bcdPack_and_1F {v : Nat} (h : v ≤ 12) : bcdPack v &&& 0x1F = bcdPack v := by
  interval_cases v <;> rfl

theorem and_FF : ∀ b : Byte, b &&& 0xFF = b := by decide

theorem ydayDefined_iff (b : RawTimeBlock) :
    blockYdayDefined b = true ↔
      1 ≤ digitsOf b.months ∧ digitsOf b.months ≤ 12 ∧ 1 ≤ digitsOf b.days := by
  simp [blockYdayDefined, ydayDefined, monthOf, mdayOf, bcdUnpack_eq, and_assoc]

/-! ### The end of a decoding command -/

/-- Whatever the block holds, the command ends and the registers, the trace, the script and
`BUS_READY` stay. -/
theorem respondDecoded_keeps (b : RawTimeBlock) (s : State) :
    (respondDecoded b s).atRest ∧ (respondDecoded b s).mem = s.mem ∧
    (respondDecoded b s).busReady = s.busReady ∧ (respondDecoded b s).inputs = s.inputs ∧
    (respondDecoded b s).slots = s.slots ∧ (respondDecoded b s).trace = s.trace := by
  unfold respondDecoded
  split
  · exact ⟨⟨rfl, rfl, rfl, rfl, rfl, rfl, rfl, rfl⟩, rfl, rfl, rfl, rfl, rfl⟩
  · split <;> exact ⟨⟨rfl, rfl, rfl, rfl, rfl, rfl, rfl, rfl⟩, rfl, rfl, rfl, rfl, rfl⟩

/-- The answer depends on the block and the count of draws alone. -/
theorem respondDecoded_congr (b : RawTimeBlock) {s s' : State} (h : s.draws = s'.draws) :
    (respondDecoded b s).rsp = (respondDecoded b s').rsp ∧
    (respondDecoded b s).draws = (respondDecoded b s').draws := by
  unfold respondDecoded
  rw [h]
  split
  · exact ⟨rfl, h⟩
  · split
    · exact ⟨rfl, h⟩
    · exact ⟨rfl, rfl⟩

theorem respondDecoded_integrity (b : RawTimeBlock) (s : State) :
    (respondDecoded b s).rsp = some (.error .integrityError) ↔ osOf b.seconds = true := by
  unfold respondDecoded
  split
  · simp [*]
  · split <;> simp [*]

theorem respondDecoded_rsp (b : RawTimeBlock) (s : State) :
    (respondDecoded b s).rsp = some (.error .integrityError) ∨
    ∃ c, (respondDecoded b s).rsp = some (.ok (.time c)) := by
  unfold respondDecoded
  split
  · exact .inl rfl
  · split <;> exact .inr ⟨_, rfl⟩

end Sys2Proof.Machine
end

