-- ==== Sys2Proof/Laws/Decode.lean ====
section
/-! SUPPORT. The laws of the command word (30_encoding.md R100 to R102): a word is its three fields,
and a command is its operation number, channel and immediate. -/

namespace Sys2Proof

theorem toNat_word (a b : BitVec 4) (c : BitVec 8) :
    (a ++ b ++ c : CmdWord).toNat = a.toNat * 4096 + b.toNat * 256 + c.toNat := by
  have hb := b.isLt
  have hc := c.isLt
  change (BitVec.append (BitVec.append a b) c).toNat = _
  rw [show BitVec.append (BitVec.append a b) c = (a ++ b) ++ c from rfl]
  rw [BitVec.toNat_append, BitVec.toNat_append,
    ← Nat.shiftLeft_add_eq_or_of_lt hb, ← Nat.shiftLeft_add_eq_or_of_lt hc]
  simp only [Nat.shiftLeft_eq]
  omega

/-- The fields of a word put together from fields. -/
theorem fields_word (a b : BitVec 4) (c : BitVec 8) :
    opOf (a ++ b ++ c) = a ∧ chanOf (a ++ b ++ c) = b ∧ argOf (a ++ b ++ c) = c := by
  have ha := a.isLt
  have hb := b.isLt
  have hc := c.isLt
  refine ⟨?_, ?_, ?_⟩ <;> apply BitVec.eq_of_toNat_eq <;>
    simp only [opOf, chanOf, argOf, BitVec.extractLsb'_toNat, toNat_word,
      Nat.shiftRight_eq_div_pow] <;> omega

/-- A word is its fields put together. -/
theorem word_fields (w : CmdWord) : (opOf w ++ chanOf w ++ argOf w : CmdWord) = w := by
  have := w.isLt
  apply BitVec.eq_of_toNat_eq
  rw [toNat_word]
  simp only [opOf, chanOf, argOf, BitVec.extractLsb'_toNat, Nat.shiftRight_eq_div_pow]
  omega

/-- The command of the opcode map has the fields it was made of. -/
theorem instrOfOp_fields (o c : BitVec 4) (a : Byte) :
    (instrOfOp o c a).op = o ∧ (instrOfOp o c a).chan = c ∧ (instrOfOp o c a).arg = a := by
  have h : ∀ o : BitVec 4, o = 0 ∨ o = 1 ∨ o = 2 ∨ o = 3 ∨ o = 4 ∨ o = 5 ∨ o = 6 ∨ o = 7 ∨
      o = 8 ∨ o = 9 ∨ o = 10 ∨ o = 11 ∨ o = 12 ∨ o = 13 ∨ o = 14 ∨ o = 15 := by decide
  rcases h o with h | h | h | h | h | h | h | h | h | h | h | h | h | h | h | h <;> subst h <;>
    exact ⟨rfl, rfl, rfl⟩

/-- A command is the one the opcode map gives for its fields. -/
theorem instrOfOp_self (i : Instr) : instrOfOp i.op i.chan i.arg = i := by
  cases i <;> rfl

theorem opOf_encode (i : Instr) : opOf (encode i) = i.op := (fields_word _ _ _).1
theorem chanOf_encode (i : Instr) : chanOf (encode i) = i.chan := (fields_word _ _ _).2.1
theorem argOf_encode (i : Instr) : argOf (encode i) = i.arg := (fields_word _ _ _).2.2

/-- Decoding a word whose operation number is known. -/
theorem decode_of_op {w : CmdWord} {o : BitVec 4} (h : opOf w = o) :
    decode w = instrOfOp o (chanOf w) (argOf w) := by
  rw [← h]; rfl

end Sys2Proof
end

