-- ==== Sys2Proof/Laws/Memory.lean ====
section
/-! SUPPORT. The laws of the register file: read after write, what a burst reads and stores, and that
every memory operation keeps the canonical form. -/

namespace Sys2Proof.Machine

namespace Memory

theorem lookup_cell (c : Host.Cell) (m : Memory) (a : Nat) :
    List.lookup a (c :: m) = if a = c.1 then some c.2 else m.lookup a := by
  obtain ⟨x, y⟩ := c
  by_cases h : a = x
  · subst h; simp [List.lookup]
  · have : (a == x) = false := by simp [h]
    simp [List.lookup, this, h]

theorem lookup_insertCell (c : Host.Cell) (m : Memory) (a : Nat)
    (h : ∀ d ∈ m, d.1 ≠ c.1) :
    (insertCell c m).lookup a = if a = c.1 then some c.2 else m.lookup a := by
  induction m with
  | nil => simp [insertCell, lookup_cell]
  | cons d ds ih =>
    have hd : d.1 ≠ c.1 := h d (by simp)
    have ih := ih (fun e he => h e (by simp [he]))
    unfold insertCell
    split
    · simp [lookup_cell]
    · rw [lookup_cell, lookup_cell, ih]
      by_cases ha : a = d.1
      · subst ha; simp [hd]
      · simp [ha]

theorem lookup_filter_ne (m : Memory) (a b : Nat) :
    (m.filter (fun c => c.1 != a)).lookup b = if b = a then none else m.lookup b := by
  induction m with
  | nil => simp
  | cons d ds ih =>
    by_cases hd : d.1 = a
    · rw [List.filter_cons_of_neg (by simp [hd]), ih, lookup_cell]
      subst hd
      by_cases hb : b = d.1 <;> simp [hb]
    · rw [List.filter_cons_of_pos (by simp [hd]), lookup_cell, lookup_cell, ih]
      by_cases hb : b = d.1
      · subst hb; simp [hd]
      · simp [hb]

theorem get_set (m : Memory) (a b : Nat) (v : Byte) :
    (m.set a v).get b = if b = a then v else m.get b := by
  unfold set get
  simp only
  split
  · rename_i hv
    rw [lookup_filter_ne]
    split
    · rename_i hb; subst hb; simp [hv]
    · rfl
  · rw [lookup_insertCell _ _ _ (by simp), lookup_filter_ne]
    split <;> simp_all

/-- Read after write, the same address. -/
@[simp] theorem get_set_same (m : Memory) (a : Nat) (v : Byte) : (m.set a v).get a = v := by
  simp [get_set]

/-- Read after write, another address. -/
theorem get_set_ne (m : Memory) {a b : Nat} (h : b ≠ a) (v : Byte) :
    (m.set a v).get b = m.get b := by
  simp [get_set, h]

/-! ### Bursts -/

theorem get_storeBytes (data : List Byte) (m : Memory) (a b : Nat) :
    (m.storeBytes a data).get b =
      if a ≤ b ∧ b < a + data.length then data.getD (b - a) 0 else m.get b := by
  induction data generalizing m a with
  | nil => simp [storeBytes]
  | cons v vs ih =>
    simp only [storeBytes, ih, get_set, List.length_cons]
    by_cases hb : b = a
    · subst hb; simp
    · by_cases h1 : a + 1 ≤ b ∧ b < a + 1 + vs.length
      · rw [if_pos h1, if_pos (by omega)]
        obtain ⟨k, rfl⟩ : ∃ k, b = a + 1 + k := ⟨b - (a + 1), by omega⟩
        rw [show a + 1 + k - (a + 1) = k by omega, show a + 1 + k - a = k + 1 by omega]
        simp
      · rw [if_neg h1, if_neg hb, if_neg (by omega)]

/-- A burst write leaves every other cell alone. -/
theorem get_storeBytes_outside (data : List Byte) (m : Memory) (a b : Nat)
    (h : b < a ∨ a + data.length ≤ b) : (m.storeBytes a data).get b = m.get b := by
  rw [get_storeBytes, if_neg (by omega)]

/-- What a failed write leaves in each cell: old or new, nothing else. -/
theorem get_storeLanded (data : List Byte) (landed : List Bool) (m : Memory) (a b : Nat) :
    (m.storeLanded a landed data).get b =
      if a ≤ b ∧ b < a + data.length ∧ landed.getD (b - a) false = true then data.getD (b - a) 0
      else m.get b := by
  induction data generalizing m a landed with
  | nil => simp [storeLanded]; omega
  | cons v vs ih =>
    simp only [storeLanded, ih, List.length_cons]
    by_cases hb : b = a
    · subst hb
      cases landed with
      | nil => simp
      | cons l ls => cases l <;> simp
    · have hset : (if landed.headD false then m.set a v else m).get b = m.get b := by
        split <;> simp [get_set, hb]
      rw [hset]
      by_cases h1 : a + 1 ≤ b
      · obtain ⟨k, rfl⟩ : ∃ k, b = a + 1 + k := ⟨b - (a + 1), by omega⟩
        have e1 : a + 1 + k - (a + 1) = k := by omega
        have e2 : a + 1 + k - a = k + 1 := by omega
        have e3 : landed.tail.getD k false = landed.getD (k + 1) false := by
          cases landed <;> simp
        rw [e1, e2, e3]
        refine if_congr ?_ (by simp) rfl
        constructor <;> rintro ⟨h1, h2, h3⟩ <;> exact ⟨by omega, by omega, h3⟩
      · rw [if_neg (by omega), if_neg (by omega)]

@[simp] theorem length_readBytes (m : Memory) (a n : Nat) : (m.readBytes a n).length = n := by
  induction n generalizing a with
  | zero => rfl
  | succ n ih => simp [readBytes, ih]

theorem getD_readBytes (m : Memory) (a n k : Nat) (h : k < n) :
    (m.readBytes a n).getD k 0 = m.get (a + k) := by
  induction n generalizing a k with
  | zero => omega
  | succ n ih =>
    cases k with
    | zero => simp [readBytes]
    | succ k =>
      simp only [readBytes, List.getD_cons_succ]
      rw [ih _ _ (by omega)]
      congr 1; omega

@[simp] theorem readBytes_one (m : Memory) (a : Nat) : m.readBytes a 1 = [m.get a] := rfl

/-- The seven bytes of a burst are the time block. -/
theorem ofBytes_readBytes (m : Memory) : RawTimeBlock.ofBytes (m.readBytes 4 7) = m.timeBlock := rfl

/-! ### The canonical form -/

theorem wf_iff (m : Memory) :
    m.wf = true ↔ m.Pairwise (fun c d => c.1 < d.1) ∧
      ∀ c ∈ m, c.1 < regCount ∧ c.2 ≠ unlisted c.1 := by
  simp [wf]

theorem mem_insertCell (c d : Host.Cell) (m : Memory) :
    d ∈ insertCell c m ↔ d = c ∨ d ∈ m := by
  induction m with
  | nil => simp [insertCell]
  | cons e es ih =>
    unfold insertCell
    split
    · simp
    · simp [ih]; tauto

theorem pairwise_insertCell (c : Host.Cell) (m : Memory)
    (h : m.Pairwise (fun c d => c.1 < d.1)) (hne : ∀ d ∈ m, d.1 ≠ c.1) :
    (insertCell c m).Pairwise (fun c d => c.1 < d.1) := by
  induction m with
  | nil => simp [insertCell]
  | cons e es ih =>
    rw [List.pairwise_cons] at h
    unfold insertCell
    split
    · rename_i hlt
      refine List.pairwise_cons.2 ⟨?_, List.pairwise_cons.2 h⟩
      intro d hd
      rcases List.mem_cons.1 hd with rfl | hd
      · exact hlt
      · exact hlt.trans (h.1 d hd)
    · rename_i hge
      have he : e.1 ≠ c.1 := hne e (by simp)
      refine List.pairwise_cons.2 ⟨?_, ih h.2 (fun d hd => hne d (by simp [hd]))⟩
      intro d hd
      rcases (mem_insertCell c d es).1 hd with rfl | hd
      · omega
      · exact h.1 d hd

/-- Writing a register keeps the canonical form. -/
theorem wf_set {m : Memory} (h : m.wf = true) {a : Nat} (ha : a < regCount) (v : Byte) :
    (m.set a v).wf = true := by
  rw [wf_iff] at h ⊢
  have hf : (m.filter (fun c => c.1 != a)).Pairwise (fun c d => c.1 < d.1) := h.1.filter _
  have hm : ∀ c ∈ m.filter (fun c => c.1 != a), c.1 < regCount ∧ c.2 ≠ unlisted c.1 :=
    fun c hc => h.2 c (List.mem_of_mem_filter hc)
  unfold set
  simp only
  split
  · exact ⟨hf, hm⟩
  · rename_i hv
    refine ⟨pairwise_insertCell _ _ hf (by simp), ?_⟩
    intro c hc
    rcases (mem_insertCell _ _ _).1 hc with rfl | hc
    · exact ⟨ha, hv⟩
    · exact hm c hc

theorem wf_storeBytes (data : List Byte) {m : Memory} (h : m.wf = true) {a : Nat}
    (ha : a + data.length ≤ regCount) : (m.storeBytes a data).wf = true := by
  induction data generalizing m a with
  | nil => exact h
  | cons v vs ih =>
    simp only [List.length_cons] at ha
    exact ih (wf_set h (by omega) v) (by omega)

theorem wf_storeLanded (data : List Byte) (landed : List Bool) {m : Memory} (h : m.wf = true)
    {a : Nat} (ha : a + data.length ≤ regCount) : (m.storeLanded a landed data).wf = true := by
  induction data generalizing m a landed with
  | nil => exact h
  | cons v vs ih =>
    simp only [List.length_cons] at ha
    refine ih _ ?_ (by omega)
    split
    · exact wf_set h (by omega) v
    · exact h

theorem lookup_eq_some_iff {m : Memory} (h : m.Pairwise (fun c d => c.1 < d.1)) (a : Nat) (v : Byte) :
    m.lookup a = some v ↔ (a, v) ∈ m := by
  induction m with
  | nil => simp
  | cons d ds ih =>
    obtain ⟨x, y⟩ := d
    rw [List.pairwise_cons] at h
    rw [lookup_cell]
    by_cases hx : a = x
    · subst hx
      have : ∀ w, (a, w) ∉ ds := fun w hw => absurd (h.1 _ hw) (by simp)
      simp [this, eq_comm]
    · simp [hx, ih h.2]

end Memory

/-! ### Transactions -/

theorem Txn.wf_store {t : Txn} (ht : t.inMap = true) {m : Memory} (h : m.wf = true) :
    (t.store m).wf = true := by
  cases t with
  | read a n => exact h
  | write a data => simp [Txn.inMap] at ht; exact Memory.wf_storeBytes data h ht.2

theorem Txn.wf_storePart {t : Txn} (ht : t.inMap = true) (landed : List Bool) {m : Memory}
    (h : m.wf = true) : (t.storePart landed m).wf = true := by
  cases t with
  | read a n => exact h
  | write a data => simp [Txn.inMap] at ht; exact Memory.wf_storeLanded data landed h ht.2

theorem ChipMove.wf_apply (c : ChipMove) {m : Memory} (h : m.wf = true) :
    (c.apply m).wf = true := by
  cases c with
  | clock b => exact Memory.wf_storeBytes _ h (by simp [RawTimeBlock.toBytes, addrTime, regCount])
  | raiseTF => exact Memory.wf_set h (by decide) _
  | raiseAF => exact Memory.wf_set h (by decide) _
  | raiseOS => exact Memory.wf_set h (by decide) _
  | countdown v => exact Memory.wf_set h (by decide) _

theorem wf_powerUp (contents : Vector Byte 18) {m : Memory} (h : m.wf = true) :
    (powerUp contents m).wf = true :=
  Memory.wf_set (Memory.wf_storeBytes _ h (by simp [regCount])) (by decide) _

end Sys2Proof.Machine
end

