-- ==== Sys2Proof/Laws/Ops.lean ====
section
/-! SUPPORT. One lemma per shared operation that says what it can do: events of other agents, one
transaction, one step of a command, the sequencer. -/

namespace Sys2Proof.Machine

/-! ### Events -/

@[simp] theorem applyEvents_nil (s : State) : applyEvents [] s = some s := rfl

/-- An event touches the registers, `BUS_READY` and the fate of a transaction in flight, nothing else of
the block or the script. -/
theorem EnvEvent.apply_eq {e : EnvEvent} {s t : State} (h : e.apply s = some t) :
    t = { s with mem := t.mem, busReady := t.busReady, inFlight := t.inFlight } := by
  cases e with
  | chip c => simp [EnvEvent.apply] at h; subst h; rfl
  | foreign n x f =>
    simp only [EnvEvent.apply] at h
    split at h
    · cases f <;> (simp at h; subst h; rfl)
    · cases h
  | busReady b => simp [EnvEvent.apply] at h; subst h; rfl
  | powerEvent v => simp [EnvEvent.apply] at h; subst h; rfl

/-- An event leaves a transaction in flight as it is, or takes its power away where it is a power
event (60_exceptions.md R229). -/
theorem EnvEvent.apply_inFlight {e : EnvEvent} {s t : State} (h : e.apply s = some t) :
    t.inFlight = if e.isPowerEvent then s.inFlight.map InFlight.losePower else s.inFlight := by
  cases e with
  | foreign n x f =>
    simp only [EnvEvent.apply] at h
    split at h
    · cases f <;> (simp at h; subst h; rfl)
    · cases h
  | _ => simp [EnvEvent.apply] at h; subst h; rfl

theorem EnvEvent.apply_wf {e : EnvEvent} {s t : State} (h : e.apply s = some t)
    (hw : s.mem.wf = true) : t.mem.wf = true := by
  cases e with
  | chip c => simp [EnvEvent.apply] at h; subst h; exact c.wf_apply hw
  | foreign n x f =>
    simp only [EnvEvent.apply] at h
    split at h
    · rename_i hx
      cases f with
      | none => simp at h; subst h; exact Txn.wf_store hx hw
      | some l => simp at h; subst h; exact Txn.wf_storePart hx l hw
    · cases h
  | busReady b => simp [EnvEvent.apply] at h; subst h; exact hw
  | powerEvent v => simp [EnvEvent.apply] at h; subst h; exact wf_powerUp v hw

/-- An event inside the map always applies. -/
theorem EnvEvent.apply_isSome {e : EnvEvent} (he : e.inMap = true) (s : State) :
    ∃ t, e.apply s = some t := by
  cases e with
  | foreign n x f =>
    simp only [EnvEvent.inMap] at he
    cases f <;> simp [EnvEvent.apply, he]
  | _ => simp [EnvEvent.apply]

theorem applyEvents_eq {es : List EnvEvent} {s t : State} (h : applyEvents es s = some t) :
    t = { s with mem := t.mem, busReady := t.busReady, inFlight := t.inFlight } := by
  induction es generalizing s with
  | nil => simp at h; subst h; rfl
  | cons e es ih =>
    simp only [applyEvents] at h
    split at h
    · rename_i s' hs
      have h1 := e.apply_eq hs
      have h2 := ih h
      rw [h1] at h2
      exact h2
    · cases h

@[simp] theorem losePower_losePower (x : InFlight) : x.losePower.losePower = x.losePower := rfl

/-- Events take the power of a transaction in flight away exactly where a power event is among them. -/
theorem applyEvents_inFlight {es : List EnvEvent} {s t : State} (h : applyEvents es s = some t) :
    t.inFlight =
      if es.any EnvEvent.isPowerEvent then s.inFlight.map InFlight.losePower else s.inFlight := by
  induction es generalizing s with
  | nil => simp at h; subst h; rfl
  | cons e es ih =>
    simp only [applyEvents] at h
    split at h
    · rename_i s' hs
      rw [ih h, e.apply_inFlight hs]
      rw [List.any_cons]
      cases e.isPowerEvent <;> cases es.any EnvEvent.isPowerEvent <;> cases s.inFlight <;> rfl
    · cases h

theorem applyEvents_inFlight_none {es : List EnvEvent} {s t : State}
    (h : applyEvents es s = some t) (hf : s.inFlight = none) : t.inFlight = none := by
  rw [applyEvents_inFlight h, hf]; simp

theorem applyEvents_wf {es : List EnvEvent} {s t : State} (h : applyEvents es s = some t)
    (hw : s.mem.wf = true) : t.mem.wf = true := by
  induction es generalizing s with
  | nil => simp at h; subst h; exact hw
  | cons e es ih =>
    simp only [applyEvents] at h
    split at h
    · rename_i s' hs
      exact ih h (e.apply_wf hs hw)
    · cases h

theorem applyEvents_isSome {es : List EnvEvent} (he : ∀ e ∈ es, e.inMap = true) (s : State) :
    ∃ t, applyEvents es s = some t := by
  induction es generalizing s with
  | nil => exact ⟨s, rfl⟩
  | cons e es ih =>
    obtain ⟨s', hs⟩ := EnvEvent.apply_isSome (he e (by simp)) s
    obtain ⟨t, ht⟩ := ih (fun e h => he e (by simp [h])) s'
    exact ⟨t, by simp [applyEvents, hs, ht]⟩

/-! ### The script -/

theorem quietFor_nextSlot {k : Nat} {s : State} (h : s.quietFor (k + 1)) : s.nextSlot = .quiet := by
  have := h 0 (by omega)
  rcases hs : s.slots with _ | ⟨a, l⟩ <;> simp_all [State.nextSlot]

theorem getD_tail {α : Type} (l : List α) (j : Nat) (d : α) : l.tail.getD j d = l.getD (j + 1) d := by
  cases l <;> simp

theorem nextSlot_eq_getD (s : State) : s.nextSlot = s.slots.getD 0 .quiet := by
  rcases hs : s.slots with _ | ⟨a, l⟩ <;> simp [State.nextSlot, hs]

theorem quietFor_tail {k : Nat} {s t : State} (h : s.quietFor (k + 1)) (ht : t.slots = s.slots.tail) :
    t.quietFor k := by
  intro j hj
  rw [ht, getD_tail]
  exact h (j + 1) (by omega)

theorem quietThen_nextSlot {x : BusAnswer} {s : State} (h : s.quietThen 0 x) :
    s.nextSlot = ⟨[], x⟩ := by
  rw [nextSlot_eq_getD]; exact h.2

theorem quietThen_tail {k : Nat} {x : BusAnswer} {s t : State} (h : s.quietThen (k + 1) x)
    (ht : t.slots = s.slots.tail) : t.quietThen k x :=
  ⟨quietFor_tail h.1 ht, by rw [ht, getD_tail]; exact h.2⟩

/-! ### One transaction -/

/-- A transaction that leaves the register map goes nowhere; any other follows the events before it
and the transport's answer. -/
theorem transact_cases (t : Txn) (take : List Byte → State → State) (s : State)
    (ht : t.inMap = true) :
    (applyEvents s.nextSlot.before { s with slots := s.slots.tail } = none ∧
      transact t take s = .foreignOutside) ∨
    ∃ s', applyEvents s.nextSlot.before { s with slots := s.slots.tail } = some s' ∧
      transact t take s = settle t take (s'.answerFrom s.nextSlot.answer) s' := by
  unfold transact
  rw [if_pos ht]
  cases h : applyEvents s.nextSlot.before { s with slots := s.slots.tail } with
  | none => exact .inl ⟨rfl, rfl⟩
  | some s' => exact .inr ⟨s', rfl, rfl⟩

/-- A transaction that is issued now and before which nobody acts follows the transport's answer. -/
theorem transact_silent {t : Txn} {take : List Byte → State → State} {s : State} {x : BusAnswer}
    (ht : t.inMap = true) (hf : s.inFlight = none) (hs : s.nextSlot = ⟨[], x⟩) :
    transact t take s = settle t take x { s with slots := s.slots.tail } := by
  have h : State.answerFrom { s with slots := s.slots.tail } x = x := answerFrom_of_none hf x
  simp [transact, ht, hs, h]

/-- A quiet transaction completes. -/
theorem transact_quiet {t : Txn} {take : List Byte → State → State} {s : State}
    (ht : t.inMap = true) (hf : s.inFlight = none) (hs : s.nextSlot = .quiet) :
    transact t take s = .done (take (t.bytesRead s.mem)
      { s with
        slots := s.slots.tail, trace := s.trace ++ [⟨t, t.okOutcome s.mem⟩],
        mem := t.store s.mem, inFlight := none }) := by
  rw [transact_silent ht hf hs]; rfl

/-! ### One step of a command -/

/-- The transaction a step issues; `sampleReady` issues none. -/
def CmdStep.txn (c : CmdStep) (s : State) : Option Txn :=
  match c with
  | .sampleReady => none
  | .probe a | .readTmp a => some (.read a 1)
  | .writeBack a mask val => some (.write a [mergeBits s.tmp mask val])
  | .writeByte a v => some (.write a [v])
  | .readBlock a => some (.read a blockLen)
  | .writeBlock a => some (.write a s.blk.toBytes)

/-- What a step does with the bytes it read. -/
def CmdStep.latch (c : CmdStep) (v : List Byte) (s : State) : State :=
  match c with
  | .readTmp _ => { s with tmp := v.headD 0 }
  | .readBlock _ => { s with blk := .ofBytes v }
  | .sampleReady | .probe _ | .writeBack _ _ _ | .writeByte _ _ | .writeBlock _ => s

theorem CmdStep.perform_sampleReady (s : State) :
    CmdStep.sampleReady.perform s = if s.busReady then .done s else .raised .notReady s := rfl

theorem CmdStep.perform_eq {c : CmdStep} {s : State} {t : Txn} (h : c.txn s = some t) :
    c.perform s = transact t c.latch s := by
  cases c <;> simp only [CmdStep.txn, Option.some.injEq, reduceCtorEq] at h <;> subst h <;> rfl

/-- Latching touches `tmp` and `blk` only. -/
theorem CmdStep.latch_eq (c : CmdStep) (v : List Byte) (s : State) :
    c.latch v s = { s with tmp := (c.latch v s).tmp, blk := (c.latch v s).blk } := by
  cases c <;> rfl

/-- The state a step leaves, if it leaves one. -/
def StepEnd.state : StepEnd → Option State
  | .done s | .raised _ s | .waiting s | .abandoned s => some s
  | .outsideMap | .foreignOutside => none

/-- What any step can do: leave everything but the registers, `BUS_READY`, the trace, the script of
slots and the two data latches as it was; take at most one slot, and hang for good in its place; add at
most one line to the trace. -/
theorem CmdStep.perform_keeps {c : CmdStep} {s s' : State} (h : (c.perform s).state = some s') :
    s'.busy = s.busy ∧ s'.cmd = s.cmd ∧ s'.opnd = s.opnd ∧ s'.step = s.step ∧ s'.rsp = s.rsp ∧
    s'.inputs = s.inputs ∧ s'.draws = s.draws ∧
    (s'.slots = s.slots ∨ s'.slots = s.slots.tail ∨ s'.slots = .hung :: s.slots.tail) ∧
    s'.cut = s.cut ∧
    (s'.trace = s.trace ∨ ∃ r, s'.trace = s.trace ++ [r] ∧ c.txn s = some r.txn) := by
  cases hc : c.txn s with
  | none =>
    cases c <;> simp only [CmdStep.txn, reduceCtorEq] at hc
    rw [perform_sampleReady] at h
    split at h <;> (simp only [StepEnd.state, Option.some.injEq] at h; subst h; simp)
  | some t =>
    rw [perform_eq hc] at h
    unfold transact at h
    split at h
    · split at h
      · simp [StepEnd.state] at h
      · rename_i s1 he
        have h1 := applyEvents_eq he
        unfold settle at h
        split at h
        all_goals
          simp only [StepEnd.state, Option.some.injEq] at h
          subst h
          rw [h1]
          try rw [CmdStep.latch_eq]
          simp
    · simp [StepEnd.state] at h

/-- What a step does to the transaction in flight: one whose transaction returned or was cut leaves
none; one that waits leaves its own. -/
theorem CmdStep.perform_inFlight {c : CmdStep} {s : State} {t : Txn} (hc : c.txn s = some t) :
    match c.perform s with
    | .done s' | .raised _ s' | .abandoned s' => s'.inFlight = none
    | .waiting s' => ∃ x, s'.inFlight = some x ∧ x.txn = t ∧ (s.powerLost = true → x.powerLost = true)
    | .outsideMap | .foreignOutside => True := by
  rw [perform_eq hc]
  unfold transact
  split <;> rename_i heq <;> split at heq <;> (try cases heq) <;> (try trivial)
  all_goals
    split at heq
    · cases heq
    · rename_i s1 he
      have h1 := applyEvents_inFlight he
      have h2 : s.powerLost = true → s1.powerLost = true := by
        intro h
        simp only [State.powerLost] at h ⊢
        rw [h1]
        cases hf : s.inFlight with
        | none => simp [hf] at h
        | some x => split <;> simp_all [InFlight.losePower]
      unfold settle at heq
      split at heq <;> cases heq <;> first
        | rfl
        | (rw [CmdStep.latch_eq]; rfl)
        | exact ⟨_, rfl, rfl, h2⟩

/-- A step enters no pending transaction in the trace (00_scope.md R13). -/
theorem CmdStep.perform_notPending {c : CmdStep} {s s' : State} (h : (c.perform s).state = some s')
    (hs : ∀ r ∈ s.trace, r.outcome ≠ .pending) : ∀ r ∈ s'.trace, r.outcome ≠ .pending := by
  cases hc : c.txn s with
  | none =>
    cases c <;> simp only [CmdStep.txn, reduceCtorEq] at hc
    rw [perform_sampleReady] at h
    split at h <;> (simp only [StepEnd.state, Option.some.injEq] at h; subst h; exact hs)
  | some t =>
    rw [perform_eq hc] at h
    unfold transact at h
    split at h
    · split at h
      · simp [StepEnd.state] at h
      · rename_i s1 he
        have h1 : s1.trace = s.trace := by rw [applyEvents_eq he]
        unfold settle at h
        split at h
        all_goals
          simp only [StepEnd.state, Option.some.injEq] at h
          subst h
          try rw [CmdStep.latch_eq]
          simp only [record_trace, hold_trace, h1]
          first
            | exact hs
            | (intro r hr
               rcases List.mem_append.1 hr with hr | hr
               · exact hs r hr
               · rw [List.mem_singleton.1 hr]; cases t <;> simp [Txn.okOutcome])
    · simp [StepEnd.state] at h

/-- Only the transport's failure and `BUS_READY` raise. -/
theorem CmdStep.raised_kind {c : CmdStep} {s s' : State} {k : ErrorKind}
    (h : c.perform s = .raised k s') :
    (k = .ioError ∧ ∃ t, c.txn s = some t) ∨ (k = .notReady ∧ c = .sampleReady ∧ s' = s) := by
  cases hc : c.txn s with
  | none =>
    cases c <;> simp only [CmdStep.txn, reduceCtorEq] at hc
    rw [perform_sampleReady] at h
    split at h <;> cases h
    exact .inr ⟨rfl, rfl, rfl⟩
  | some t =>
    rw [perform_eq hc] at h
    unfold transact at h
    split at h
    · split at h
      · cases h
      · unfold settle at h
        split at h <;> cases h
        exact .inl ⟨rfl, t, rfl⟩
    · cases h

/-- A step whose transaction fails, nobody acting before it. -/
theorem CmdStep.perform_fail {c : CmdStep} {s : State} {t : Txn} {l : List Bool}
    (hc : c.txn s = some t) (ht : t.inMap = true) (hf : s.inFlight = none)
    (hs : s.nextSlot = ⟨[], .fail l⟩) :
    c.perform s = .raised .ioError { s with
      slots := s.slots.tail, trace := s.trace ++ [⟨t, .fail⟩], mem := t.storePart l s.mem,
      inFlight := none } := by
  rw [perform_eq hc, transact_silent ht hf hs]; rfl

/-- A step whose transaction is quiet. -/
theorem CmdStep.perform_quiet {c : CmdStep} {s : State} {t : Txn}
    (hc : c.txn s = some t) (ht : t.inMap = true) (hf : s.inFlight = none)
    (hs : s.nextSlot = .quiet) :
    c.perform s = .done (c.latch (t.bytesRead s.mem) { s with
      slots := s.slots.tail, trace := s.trace ++ [⟨t, t.okOutcome s.mem⟩],
      mem := t.store s.mem, inFlight := none }) := by
  rw [perform_eq hc, transact_quiet ht hf hs]

/-- A step whose transaction is abandoned by a reset, nobody acting before it. -/
theorem CmdStep.perform_reset {c : CmdStep} {s : State} {t : Txn} {l : List Bool}
    (hc : c.txn s = some t) (ht : t.inMap = true) (hf : s.inFlight = none)
    (hs : s.nextSlot = ⟨[], .blockReset l⟩) :
    c.perform s = .abandoned { s with
      slots := s.slots.tail, trace := s.trace ++ [⟨t, .fail⟩], mem := t.storePart l s.mem,
      inFlight := none } := by
  rw [perform_eq hc, transact_silent ht hf hs]; rfl

/-- A step whose transaction never returns, nobody acting before it. -/
theorem CmdStep.perform_never {c : CmdStep} {s : State} {t : Txn} {l : List Bool}
    (hc : c.txn s = some t) (ht : t.inMap = true) (hf : s.inFlight = none)
    (hs : s.nextSlot = ⟨[], .never l⟩) :
    c.perform s = .waiting { s with
      slots := .hung :: s.slots.tail, mem := t.storePart l s.mem,
      inFlight := some ⟨t, false⟩ } := by
  rw [perform_eq hc, transact_silent ht hf hs]
  simp only [settle]
  simp [State.hold, State.powerLost, hf]

/-- Nothing of a write is stored where nothing lands. -/
theorem Txn.storePart_nil (t : Txn) (m : Memory) : t.storePart [] m = m := by
  cases t with
  | read a n => rfl
  | write a data =>
    simp only [Txn.storePart]
    generalize a.toNat = x
    induction data generalizing x with
    | nil => rfl
    | cons v vs ih => exact ih _

/-- A transaction that hangs goes on hanging, with or without power (20_memory.md R79). -/
theorem CmdStep.perform_hung {c : CmdStep} {s : State} {x : InFlight} {l : List Slot}
    (hc : c.txn s = some x.txn) (ht : x.txn.inMap = true) (hf : s.inFlight = some x)
    (hs : s.slots = .hung :: l) : c.perform s = .waiting s := by
  have ha : State.answerFrom { s with slots := l } (.never []) = .never [] := by
    unfold State.answerFrom; split <;> rfl
  rw [perform_eq hc]
  unfold transact
  simp only [ht, if_true, State.nextSlot, hs, List.headD_cons, List.tail_cons, Slot.hung,
    applyEvents_nil, ha, settle, Txn.storePart_nil]
  obtain ⟨busy, cmd, opnd, step, tmp, blk, cut, inFlight, rsp, trace, busReady, mem, inputs, slots,
    draws⟩ := s
  simp only at hf hs
  subst hf hs
  rfl

/-! ### The sequencer -/

theorem runSteps_nil {finish : State → State} {s : State} (hc : s.cut = none) :
    runSteps finish [] s = .next (finish s) := by
  simp [runSteps, isCut_of_none hc]

/-- A block reset that comes now abandons the command, whatever is left of it. -/
theorem runSteps_cut {finish : State → State} {steps : List CmdStep} {s : State}
    (hc : s.isCut = true) : runSteps finish steps s = .next (blockReset s) := by
  cases steps <;> simp [runSteps, hc]

theorem runSteps_done' {finish : State → State} {c : CmdStep} {rest : List CmdStep} {s s' : State}
    (hc : s.isCut = false) (h : c.perform s = .done s') :
    runSteps finish (c :: rest) s = runSteps finish rest s'.advance := by
  simp [runSteps, h, hc]

theorem runSteps_done {finish : State → State} {c : CmdStep} {rest : List CmdStep} {s s' : State}
    (hc : s.cut = none) (h : c.perform s = .done s') :
    runSteps finish (c :: rest) s = runSteps finish rest s'.advance :=
  runSteps_done' (isCut_of_none hc) h

theorem runSteps_raised {finish : State → State} {c : CmdStep} {rest : List CmdStep} {s s' : State}
    {k : ErrorKind} (hc : s.cut = none) (h : c.perform s = .raised k s') :
    runSteps finish (c :: rest) s = .next (raise k s') := by
  simp [runSteps, h, isCut_of_none hc]

theorem runSteps_abandoned {finish : State → State} {c : CmdStep} {rest : List CmdStep}
    {s s' : State} (hc : s.cut = none) (h : c.perform s = .abandoned s') :
    runSteps finish (c :: rest) s = .next (blockReset s') := by
  simp [runSteps, h, isCut_of_none hc]

theorem runSteps_waiting {finish : State → State} {c : CmdStep} {rest : List CmdStep}
    {s s' : State} (hc : s.cut = none) (h : c.perform s = .waiting s') :
    runSteps finish (c :: rest) s = .next s' := by
  simp [runSteps, h, isCut_of_none hc]

/-- Induction over the steps of a command, once for all claims of the form "if the command answers a
next state, then …": `P n` holds of the state before the step at which `n` steps are left. -/
theorem runSteps_next {P : List CmdStep → State → Prop} {Q : State → Prop} {finish : State → State}
    (hdone : ∀ c rest s s', P (c :: rest) s → c.perform s = .done s' → P rest s'.advance)
    (hraise : ∀ c rest s k s', P (c :: rest) s → c.perform s = .raised k s' → Q (raise k s'))
    (hwait : ∀ c rest s s', P (c :: rest) s → c.perform s = .waiting s' → Q s')
    (habandon : ∀ c rest s s', P (c :: rest) s → c.perform s = .abandoned s' → Q (blockReset s'))
    (hcut : ∀ l s, P l s → s.isCut = true → Q (blockReset s))
    (hfinish : ∀ s, P [] s → s.isCut = false → Q (finish s))
    {steps : List CmdStep} {s t : State} (hs : P steps s)
    (h : runSteps finish steps s = .next t) : Q t := by
  induction steps generalizing s with
  | nil =>
    cases hc : s.isCut with
    | true => rw [runSteps_cut hc] at h; cases h; exact hcut _ s hs hc
    | false => simp only [runSteps, hc] at h; cases h; exact hfinish s hs hc
  | cons c rest ih =>
    cases hc : s.isCut with
    | true => rw [runSteps_cut hc] at h; cases h; exact hcut _ s hs hc
    | false =>
      simp only [runSteps, hc, Bool.false_eq_true, if_false] at h
      split at h
      · rename_i s' he; exact ih (hdone _ _ _ _ hs he) h
      · rename_i k s' he; cases h; exact hraise _ _ _ _ _ hs he
      · rename_i s' he; cases h; exact hwait _ _ _ _ hs he
      · rename_i s' he; cases h; exact habandon _ _ _ _ hs he
      · cases h
      · cases h

end Sys2Proof.Machine
end

