-- ==== Sys2Proof/Laws/Exec.lean ====
section
/-! SUPPORT. Every meaning is the sequencer run on a list of steps: the lists, and one equation for
exec that the whole-machine proofs split on. -/

namespace Sys2Proof.Machine

/-- The steps of a command. -/
def stepsOf : Instr → List CmdStep
  | .encode _ _ | .decode _ _ | .getTick _ _ | .setTop _ _ | .getTop _ _ => []
  | .init _ _ => [.sampleReady, .probe probeAddr]
  | .start _ _ => update addrCtrl1 ctrl1Stop 0x00
  | .stop _ _ => update addrCtrl1 ctrl1Stop ctrl1Stop
  | .getTime _ _ => [.readBlock addrTime]
  | .setTime _ _ => [.writeBlock addrTime]
  | .setAlarm _ arg =>
    update addrCtrl2 ctrl2TF 0x00 ++ [.writeByte addrTimerValue (ticksOf arg)] ++
      update addrTimerMode armMask armVal
  | .cancelAlarm _ _ => update addrCtrl2 ctrl2TF 0x00 ++ update addrTimerMode disarmMask 0x00
  | .getPendingInt _ _ => [.readTmp addrCtrl2]
  | .setOffsetMode _ arg => update addrOffset offsetMode (modeVal (modeOf arg))
  | .setOffsetValue _ arg => update addrOffset offsetValue (valueVal (valueOf arg))
  | .setCapSelect _ arg => update addrCtrl1 ctrl1CapSel (selVal (selOf arg))

/-- How a command responds when its steps have all returned `Ok`. -/
def finishOf : Instr → State → State
  | .encode _ _, s => respondOk (.block (encodeTime s.opnd.time)) s
  | .decode _ _, s => respondDecoded s.opnd.block s
  | .getTime _ _, s => respondDecoded s.blk s
  | .getPendingInt _ _, s => respondOk (.flag (tfOf s.tmp)) s
  | .getTick _ _, s | .getTop _ _, s => respondOk (.value 0) s
  | .init _ _, s | .start _ _, s | .stop _ _, s | .setTime _ _, s | .setAlarm _ _, s
  | .cancelAlarm _ _, s | .setOffsetMode _ _, s | .setOffsetValue _ _, s | .setCapSelect _ _, s
  | .setTop _ _, s => respondOk .none s

/-- What a command puts into its latches before its first transaction. -/
def prepare : Instr → State → State
  | .setTime _ _, s => { s with blk := encodeTime s.opnd.time }
  | _, s => s

theorem exec_eq (i : Instr) (s : State) :
    exec i s = runSteps (finishOf i) ((stepsOf i).drop s.step) (prepare i s) := by
  cases i <;> rfl

/-- From the first step. -/
theorem exec_eq_start (i : Instr) {s : State} (h : s.step = 0) :
    exec i s = runSteps (finishOf i) (stepsOf i) (prepare i s) := by
  rw [exec_eq, h, List.drop_zero]

/-- A command without steps ends at once. -/
theorem exec_noSteps {i : Instr} {s : State} (hi : stepsOf i = []) (hc : s.cut = none) :
    exec i s = .next (finishOf i s) := by
  rw [exec_eq, hi, List.drop_nil]
  cases i with
  | setTime => cases hi
  | _ => exact runSteps_nil hc

/-! ### The shapes of commands, nobody interfering -/

/-- The state after a completed `Update` before which nobody acted. -/
def updated (a mask val : Byte) (s : State) : State :=
  let old := s.mem.get a.toNat
  let new := mergeBits old mask val
  { s with
    step := s.step + 2, tmp := old, slots := s.slots.tail.tail, mem := s.mem.set a.toNat new,
    inFlight := none,
    trace := s.trace ++ [⟨.read a 1, .okRead [old]⟩, ⟨.write a [new], .okWrite⟩] }

theorem runSteps_update_quiet {finish : State → State} {rest : List CmdStep} {a mask val : Byte}
    {s : State} (ha : a.toNat < regCount) (hc : s.cut = none) (hf : s.inFlight = none) (hq : s.quietFor 2) :
    runSteps finish (update a mask val ++ rest) s = runSteps finish rest (updated a mask val s) := by
  have h1 : (Txn.read a 1).inMap = true := by simp [Txn.inMap]; omega
  have h2 : (Txn.write a [mergeBits (s.mem.get a.toNat) mask val]).inMap = true := by
    simp [Txn.inMap]; omega
  have q1 := quietFor_nextSlot hq
  simp only [update, List.cons_append, List.nil_append]
  rw [runSteps_done (c := .readTmp a) hc (transact_quiet h1 hf q1)]
  rw [runSteps_done (c := .writeBack a mask val) (by exact hc)
    (transact_quiet (by exact h2) rfl (quietFor_nextSlot (k := 0) (quietFor_tail hq rfl)))]
  congr 1
  simp [updated, Txn.bytesRead, Txn.okOutcome, Txn.store, State.advance, Memory.readBytes,
    Memory.storeBytes]

theorem runSteps_writeByte_quiet {finish : State → State} {rest : List CmdStep} {a v : Byte}
    {s : State} (ha : a.toNat < regCount) (hc : s.cut = none) (hf : s.inFlight = none) (hq : s.quietFor 1) :
    runSteps finish (.writeByte a v :: rest) s = runSteps finish rest
      { s with
        step := s.step + 1, slots := s.slots.tail, mem := s.mem.set a.toNat v,
        inFlight := none,
        trace := s.trace ++ [⟨.write a [v], .okWrite⟩] } := by
  have h1 : (Txn.write a [v]).inMap = true := by simp [Txn.inMap]; omega
  rw [runSteps_done (c := .writeByte a v) hc (transact_quiet h1 hf (quietFor_nextSlot hq))]
  rfl

/-! ### The shapes of commands, one transaction failing -/

theorem inMap_read_one {a : Byte} (ha : a.toNat < regCount) : (Txn.read a 1).inMap = true := by
  simp [Txn.inMap]; omega

theorem inMap_write_one {a : Byte} (v : Byte) (ha : a.toNat < regCount) :
    (Txn.write a [v]).inMap = true := by
  simp [Txn.inMap]; omega

/-- What a failed write of one byte leaves. -/
theorem get_storePart_one (a v : Byte) (l : List Bool) (m : Memory) (x : Nat) :
    ((Txn.write a [v]).storePart l m).get x =
      if x = a.toNat ∧ l.getD 0 false = true then v else m.get x := by
  simp only [Txn.storePart, Memory.get_storeLanded]
  by_cases h : x = a.toNat
  · subst h; simp
  · rw [if_neg, if_neg] <;> simp <;> omega

/-- An `Update` whose read fails. -/
theorem runSteps_update_readFails {finish : State → State} {rest : List CmdStep} {a mask val : Byte}
    {s : State} {l : List Bool} (ha : a.toNat < regCount) (hc : s.cut = none) (hf : s.inFlight = none)
    (hq : s.quietThen 0 (.fail l)) :
    runSteps finish (update a mask val ++ rest) s = .next (raise .ioError { s with
      slots := s.slots.tail, trace := s.trace ++ [⟨.read a 1, .fail⟩], inFlight := none }) :=
  runSteps_raised hc
    (CmdStep.perform_fail (c := .readTmp a) rfl (inMap_read_one ha) hf (quietThen_nextSlot hq))

/-- An `Update` whose write has the answer `x`, up to that write. -/
theorem runSteps_update_toWrite {finish : State → State} {rest : List CmdStep} {a mask val : Byte}
    {s : State} {x : BusAnswer} (ha : a.toNat < regCount) (hc : s.cut = none) (hf : s.inFlight = none)
    (hq : s.quietThen 1 x) :
    ∃ u : State, u = { s with
        step := s.step + 1, tmp := s.mem.get a.toNat, slots := s.slots.tail, inFlight := none,
        trace := s.trace ++ [⟨.read a 1, .okRead [s.mem.get a.toNat]⟩] } ∧
      u.nextSlot = ⟨[], x⟩ ∧
      runSteps finish (update a mask val ++ rest) s =
        runSteps finish (.writeBack a mask val :: rest) u := by
  refine ⟨_, rfl, quietThen_nextSlot (quietThen_tail (s := s) hq rfl), ?_⟩
  exact runSteps_done hc
    (CmdStep.perform_quiet (c := .readTmp a) rfl (inMap_read_one ha) hf (quietFor_nextSlot hq.1))

/-- An `Update` whose write fails: the register is old or new. -/
theorem runSteps_update_writeFails {finish : State → State} {rest : List CmdStep}
    {a mask val : Byte} {s : State} {l : List Bool} (ha : a.toNat < regCount)
    (hc : s.cut = none) (hf : s.inFlight = none) (hq : s.quietThen 1 (.fail l)) :
    let old := s.mem.get a.toNat
    let new := mergeBits old mask val
    runSteps finish (update a mask val ++ rest) s = .next (raise .ioError { s with
      step := s.step + 1, tmp := old, slots := s.slots.tail.tail,
      mem := (Txn.write a [new]).storePart l s.mem, inFlight := none,
      trace := s.trace ++ [⟨.read a 1, .okRead [old]⟩, ⟨.write a [new], .fail⟩] }) := by
  obtain ⟨u, rfl, hu, he⟩ := runSteps_update_toWrite (finish := finish) (rest := rest)
    (mask := mask) (val := val) ha hc hf hq
  intro old new
  rw [he, runSteps_raised (by exact hc)
    (CmdStep.perform_fail (c := .writeBack a mask val) rfl (inMap_write_one _ ha) rfl hu)]
  simp [old, new]

/-- A plain write that fails. -/
theorem runSteps_writeByte_fails {finish : State → State} {rest : List CmdStep} {a v : Byte}
    {s : State} {l : List Bool} (ha : a.toNat < regCount) (hc : s.cut = none) (hf : s.inFlight = none)
    (hq : s.quietThen 0 (.fail l)) :
    runSteps finish (.writeByte a v :: rest) s = .next (raise .ioError { s with
      slots := s.slots.tail, mem := (Txn.write a [v]).storePart l s.mem, inFlight := none,
      trace := s.trace ++ [⟨.write a [v], .fail⟩] }) :=
  runSteps_raised hc
    (CmdStep.perform_fail (c := .writeByte a v) rfl (inMap_write_one _ ha) hf (quietThen_nextSlot hq))

theorem updated_quietFor {k : Nat} {s : State} (a mask val : Byte) (h : s.quietFor (k + 2)) :
    (updated a mask val s).quietFor k :=
  quietFor_tail (t := updated a mask val s) (s := { s with slots := s.slots.tail })
    (quietFor_tail h rfl) rfl

theorem updated_quietThen {k : Nat} {x : BusAnswer} {s : State} (a mask val : Byte)
    (h : s.quietThen (k + 2) x) : (updated a mask val s).quietThen k x :=
  quietThen_tail (t := updated a mask val s) (s := { s with slots := s.slots.tail })
    (quietThen_tail h rfl) rfl

theorem quietFor_mono {j k : Nat} {s : State} (h : s.quietFor k) (hj : j ≤ k) : s.quietFor j :=
  fun i hi => h i (by omega)

/-! ### Every step of every command -/

/-- The addresses of a step fit the register map. -/
def CmdStep.fits : CmdStep → Bool
  | .sampleReady => true
  | .probe a | .readTmp a | .writeBack a _ _ | .writeByte a _ => decide (a.toNat + 1 ≤ regCount)
  | .readBlock a | .writeBlock a => decide (a.toNat + blockLen ≤ regCount)

theorem stepsOf_fits (i : Instr) : (stepsOf i).all CmdStep.fits = true := by
  cases i <;> rfl

/-- Every transaction of a command stays inside the register map (20_memory.md R69). -/
theorem stepsOf_inMap {i : Instr} {c : CmdStep} (hc : c ∈ stepsOf i) {s : State} {t : Txn}
    (ht : c.txn s = some t) : t.inMap = true := by
  have hf := List.all_eq_true.1 (stepsOf_fits i) c hc
  cases c with
  | sampleReady => cases ht
  | writeBlock a =>
    have h : a.toNat + 7 ≤ regCount := of_decide_eq_true hf
    cases ht; exact decide_eq_true h
  | readBlock a =>
    have h : a.toNat + 7 ≤ regCount := of_decide_eq_true hf
    cases ht; exact decide_eq_true h
  | _ =>
    have h := of_decide_eq_true hf
    cases ht; exact decide_eq_true h

/-- What a step of a command can do: sample `BUS_READY`; or, for its transaction `t`, the events
before it, then the transport's answer. A step never leaves the register map by itself. -/
theorem perform_cases {i : Instr} {c : CmdStep} (hc : c ∈ stepsOf i) (s : State) :
    (c = .sampleReady ∧
      ((s.busReady = true ∧ c.perform s = .done s) ∨
        (s.busReady = false ∧ c.perform s = .raised .notReady s))) ∨
    ∃ t, c.txn s = some t ∧ t.inMap = true ∧
      ((applyEvents s.nextSlot.before { s with slots := s.slots.tail } = none ∧
        c.perform s = .foreignOutside) ∨
      ∃ s1, applyEvents s.nextSlot.before { s with slots := s.slots.tail } = some s1 ∧
        c.perform s = settle t c.latch (s1.answerFrom s.nextSlot.answer) s1) := by
  cases h : c.txn s with
  | none =>
    left
    cases c <;> simp only [CmdStep.txn, reduceCtorEq] at h
    refine ⟨rfl, ?_⟩
    rw [CmdStep.perform_sampleReady]
    cases hb : s.busReady <;> simp
  | some t =>
    right
    have ht := stepsOf_inMap hc h
    refine ⟨t, rfl, ht, ?_⟩
    rw [CmdStep.perform_eq h]
    exact transact_cases t _ s ht

theorem drop_cons_mem {α : Type} {l rest : List α} {n : Nat} {c : α} (h : l.drop n = c :: rest) :
    c ∈ l ∧ n < l.length ∧ l.drop (n + 1) = rest := by
  refine ⟨List.mem_of_mem_drop (h ▸ List.mem_cons_self), ?_, ?_⟩
  · by_contra hn
    rw [List.drop_eq_nil_of_le (by omega)] at h
    cases h
  · rw [← List.drop_drop, h]; rfl

/-- Induction over a command, once for all claims of the form "if exec answers a next state, then …":
`P s` holds before each step, at position `s.step`. -/
theorem exec_next {i : Instr} {P Q : State → Prop}
    (hdone : ∀ c rest s s', P s → (stepsOf i).drop s.step = c :: rest → c.perform s = .done s' →
      P s'.advance)
    (hraise : ∀ c rest s k s', P s → (stepsOf i).drop s.step = c :: rest →
      c.perform s = .raised k s' → Q (raise k s'))
    (hwait : ∀ c rest s s', P s → (stepsOf i).drop s.step = c :: rest →
      c.perform s = .waiting s' → Q s')
    (habandon : ∀ c rest s s', P s → (stepsOf i).drop s.step = c :: rest →
      c.perform s = .abandoned s' → Q (blockReset s'))
    (hcut : ∀ s, P s → s.isCut = true → Q (blockReset s))
    (hfinish : ∀ s, P s → (stepsOf i).drop s.step = [] → s.isCut = false → Q (finishOf i s))
    {s t : State} (hs : P (prepare i s)) (h : exec i s = .next t) : Q t := by
  rw [exec_eq] at h
  refine runSteps_next (P := fun l s => P s ∧ (stepsOf i).drop s.step = l) ?_ ?_ ?_ ?_ ?_ ?_
    ⟨hs, ?_⟩ h
  · rintro c rest s s' ⟨h1, h2⟩ he
    have hk := (CmdStep.perform_keeps (c := c) (s := s) (s' := s') (by rw [he]; rfl)).2.2.2.1
    refine ⟨hdone c rest s s' h1 h2 he, ?_⟩
    rw [show s'.advance.step = s.step + 1 by simp [State.advance, hk]]
    exact (drop_cons_mem h2).2.2
  · rintro c rest s k s' ⟨h1, h2⟩ he; exact hraise c rest s k s' h1 h2 he
  · rintro c rest s s' ⟨h1, h2⟩ he; exact hwait c rest s s' h1 h2 he
  · rintro c rest s s' ⟨h1, h2⟩ he; exact habandon c rest s s' h1 h2 he
  · rintro l s ⟨h1, -⟩ hc; exact hcut s h1 hc
  · rintro s ⟨h1, h2⟩ hc; exact hfinish s h1 h2 hc
  · cases i <;> rfl

/-! ### The trace -/

/-- The transaction of a step but for the bytes written. -/
def CmdStep.shape : CmdStep → Option TxnShape
  | .sampleReady => none
  | .probe a | .readTmp a => some (readShape a)
  | .writeBack a _ _ | .writeByte a _ => some (writeShape a)
  | .readBlock a => some ⟨false, a, 7⟩
  | .writeBlock a => some ⟨true, a, 7⟩

theorem CmdStep.shape_eq (c : CmdStep) (s : State) : c.shape = (c.txn s).map Txn.shape := by
  cases c <;> rfl

/-- The access matrix is the shapes of the steps (10_state.md R49). -/
theorem accesses_eq (i : Instr) : accesses i = (stepsOf i).filterMap CmdStep.shape := by
  cases i <;> rfl

/-- What each end of a step does to the trace. -/
theorem CmdStep.perform_trace (c : CmdStep) (s : State) :
    match c.perform s with
    | .done s' => (c.txn s = none ∧ s'.trace = s.trace) ∨
        ∃ r, s'.trace = s.trace ++ [r] ∧ c.txn s = some r.txn ∧ r.outcome ≠ .fail
    | .raised k s' => (k = .notReady ∧ c.txn s = none ∧ s'.trace = s.trace) ∨
        (k = .ioError ∧ ∃ r, s'.trace = s.trace ++ [r] ∧ c.txn s = some r.txn ∧ r.outcome = .fail)
    | .waiting s' => s'.trace = s.trace
    | .abandoned s' => ∃ r, s'.trace = s.trace ++ [r] ∧ c.txn s = some r.txn ∧ r.outcome = .fail
    | .outsideMap | .foreignOutside => True := by
  cases hc : c.txn s with
  | none =>
    cases c <;> simp only [CmdStep.txn, reduceCtorEq] at hc
    rw [perform_sampleReady]
    cases s.busReady <;> simp
  | some t =>
    rw [perform_eq hc]
    unfold transact
    split <;> rename_i heq <;> split at heq <;> (try cases heq) <;> (try trivial)
    all_goals
      split at heq
      · cases heq
      · rename_i s1 he
        have h1 : s1.trace = s.trace := by rw [applyEvents_eq he]
        unfold settle at heq
        split at heq <;> cases heq
        first
          | exact h1
          | rw [← h1]
        first
          | done
          | exact h1
          | exact ⟨_, rfl, rfl, rfl⟩
          | exact .inr ⟨rfl, _, rfl, rfl, rfl⟩
          | (rw [CmdStep.latch_eq]
             exact .inr ⟨_, rfl, rfl, by cases t <;> simp [Txn.okOutcome]⟩)

/-! ### The registers a step cannot reach -/

/-- A transaction whose shape does not write `x` leaves it, whether it completes or fails. -/
theorem Txn.get_outside {t : Txn} {x : Nat} (h : writesCell [t.shape] x = false) (m : Memory)
    (landed : List Bool) : (t.store m).get x = m.get x ∧ (t.storePart landed m).get x = m.get x := by
  cases t with
  | read a n => exact ⟨rfl, rfl⟩
  | write a data =>
    simp only [writesCell, Txn.shape, List.any_cons, List.any_nil, Bool.true_and, Bool.or_false,
      Bool.and_eq_false_iff, decide_eq_false_iff_not] at h
    refine ⟨Memory.get_storeBytes_outside _ _ _ _ (by omega), ?_⟩
    simp only [Txn.storePart, Memory.get_storeLanded]
    rw [if_neg (by omega)]

theorem everyEvent_mono {p : EnvEvent → Bool} {s t : State} (hi : t.inputs = s.inputs)
    (hsl : t.slots = s.slots ∨ t.slots = s.slots.tail ∨ t.slots = .hung :: s.slots.tail)
    (h : s.everyEvent p = true) :
    t.everyEvent p = true := by
  simp only [State.everyEvent, Bool.and_eq_true, List.all_eq_true] at *
  rw [hi]
  refine ⟨h.1, fun x hx => ?_⟩
  rcases hsl with e | e | e <;> rw [e] at hx
  · exact h.2 x hx
  · exact h.2 x (List.mem_of_mem_tail hx)
  · rcases List.mem_cons.1 hx with rfl | hx
    · simp [Slot.hung]
    · exact h.2 x (List.mem_of_mem_tail hx)

theorem everyEvent_nextSlot {p : EnvEvent → Bool} {s : State} (h : s.everyEvent p = true) :
    ∀ e ∈ s.nextSlot.before, p e = true := by
  simp only [State.everyEvent, Bool.and_eq_true, List.all_eq_true] at h
  unfold State.nextSlot
  cases hs : s.slots with
  | nil => simp [Slot.quiet]
  | cons a l => intro e he; exact h.2 a (by simp [hs]) e he

/-- A relation on states that every admitted event respects is respected by a list of them. -/
theorem applyEvents_rel {R : State → State → Prop} {p : EnvEvent → Bool} (hrefl : ∀ s, R s s)
    (htrans : ∀ {a b c}, R a b → R b c → R a c)
    (hev : ∀ {e s t}, p e = true → e.apply s = some t → R s t)
    {es : List EnvEvent} {s t : State} (he : ∀ e ∈ es, p e = true)
    (h : applyEvents es s = some t) : R s t := by
  induction es generalizing s with
  | nil => simp at h; subst h; exact hrefl s
  | cons e es ih =>
    simp only [applyEvents] at h
    split at h
    · rename_i s' hs
      exact htrans (hev (he e (by simp)) hs) (ih (fun e' h' => he e' (by simp [h'])) h)
    · cases h

/-- A register that no transaction of the command writes changes only as other agents change it: `ρ`
is what an admitted event does to it. -/
theorem exec_cell {ρ : Byte → Byte → Prop} {p : EnvEvent → Bool} {x : Nat} (hrefl : ∀ b, ρ b b)
    (htrans : ∀ {a b c}, ρ a b → ρ b c → ρ a c)
    (hev : ∀ {e : EnvEvent} {s t : State}, p e = true → e.apply s = some t →
      ρ (s.mem.get x) (t.mem.get x))
    {i : Instr} {s t : State} (hp : s.slots.all (fun sl => sl.before.all p) = true)
    (hx : writesCell (accesses i) x = false) (h : exec i s = .next t) :
    ρ (s.mem.get x) (t.mem.get x) := by
  have key : ∀ (c : CmdStep) (rest : List CmdStep) (u u' : State),
      u.slots.all (fun sl => sl.before.all p) = true → (stepsOf i).drop u.step = c :: rest →
      (c.perform u).state = some u' →
      u'.slots.all (fun sl => sl.before.all p) = true ∧ ρ (u.mem.get x) (u'.mem.get x) := by
    intro c rest u u' hu hd he
    have hk := CmdStep.perform_keeps he
    have hmem := (drop_cons_mem hd).1
    refine ⟨?_, ?_⟩
    · rw [List.all_eq_true] at hu ⊢
      intro sl hsl
      rcases hk.2.2.2.2.2.2.2.1 with e | e | e <;> rw [e] at hsl
      · exact hu sl hsl
      · exact hu sl (List.mem_of_mem_tail hsl)
      · rcases List.mem_cons.1 hsl with rfl | hsl
        · rfl
        · exact hu sl (List.mem_of_mem_tail hsl)
    · rcases perform_cases hmem u with ⟨-, ⟨-, h1⟩ | ⟨-, h1⟩⟩ | ⟨t, ht, -, ⟨-, h1⟩ | ⟨s1, h2, h1⟩⟩ <;>
        rw [h1] at he
      · cases he; exact hrefl _
      · cases he; exact hrefl _
      · cases he
      · have hbefore : ∀ e ∈ u.nextSlot.before, p e = true := by
          unfold State.nextSlot
          cases hs : u.slots with
          | nil => simp [Slot.quiet]
          | cons sl l =>
            intro e he
            rw [hs] at hu
            simp only [List.all_cons, Bool.and_eq_true, List.all_eq_true] at hu
            exact hu.1 e he
        have hr := applyEvents_rel (R := fun a b => ρ (a.mem.get x) (b.mem.get x))
          (fun _ => hrefl _) htrans hev hbefore h2
        have hw : writesCell [t.shape] x = false := by
          rw [accesses_eq] at hx
          have hin : t.shape ∈ (stepsOf i).filterMap CmdStep.shape :=
            List.mem_filterMap.2 ⟨c, hmem, by rw [CmdStep.shape_eq c u, ht]; rfl⟩
          unfold writesCell at hx ⊢
          rw [List.any_eq_false] at hx ⊢
          intro y hy
          rw [List.mem_singleton.1 hy]
          exact hx _ hin
        unfold settle at he
        split at he <;> simp only [StepEnd.state, Option.some.injEq] at he <;> subst he
        · rw [CmdStep.latch_eq]
          simpa [(Txn.get_outside hw s1.mem []).1] using hr
        · rename_i l _
          simpa [(Txn.get_outside hw s1.mem l).2] using hr
        · exact hr
        · rename_i l _
          simpa [(Txn.get_outside hw s1.mem l).2] using hr
        · rename_i l _
          simpa [(Txn.get_outside hw s1.mem l).2] using hr
  have hfin : ∀ u : State, (finishOf i u).mem = u.mem := by
    intro u
    cases i <;> simp only [finishOf, respondOk_mem] <;>
      (unfold respondDecoded; split_ifs <;> rfl)
  refine exec_next
    (P := fun u => u.slots.all (fun sl => sl.before.all p) = true ∧ ρ (s.mem.get x) (u.mem.get x))
    (Q := fun u => ρ (s.mem.get x) (u.mem.get x)) ?_ ?_ ?_ ?_ ?_ ?_ ?_ h
  · rintro c rest u u' ⟨h1, h2⟩ hd he
    have := key c rest u u' h1 hd (by rw [he]; rfl)
    exact ⟨this.1, htrans h2 this.2⟩
  · rintro c rest u k u' ⟨h1, h2⟩ hd he
    exact htrans h2 (key c rest u u' h1 hd (by rw [he]; rfl)).2
  · rintro c rest u u' ⟨h1, h2⟩ hd he
    exact htrans h2 (key c rest u u' h1 hd (by rw [he]; rfl)).2
  · rintro c rest u u' ⟨h1, h2⟩ hd he
    exact htrans h2 (key c rest u u' h1 hd (by rw [he]; rfl)).2
  · rintro u ⟨h1, h2⟩ -; exact h2
  · rintro u ⟨h1, h2⟩ - -
    rw [hfin]; exact h2
  · cases i <;> exact ⟨hp, hrefl _⟩

end Sys2Proof.Machine
end

