-- ==== Sys2Proof/Laws/PerInstr.lean ====
section
/-! SUPPORT. Statements made per instruction, one lemma per constructor. Family EncodeFields: in the
word of a command, bits 15:12 are its operation number, bits 11:8 its channel, bits 7:0 its
immediate. -/

namespace Sys2Proof.Laws.EncodeFields

def Statement (i : Instr) : Prop :=
  (encode i).extractLsb' 12 4 = i.op ∧ (encode i).extractLsb' 8 4 = i.chan ∧
    (encode i).extractLsb' 0 8 = i.arg

theorem encode (c : BitVec 4) (a : Byte) : Statement (.encode c a) := fields_word _ _ _
theorem decode (c : BitVec 4) (a : Byte) : Statement (.decode c a) := fields_word _ _ _
theorem init (c : BitVec 4) (a : Byte) : Statement (.init c a) := fields_word _ _ _
theorem start (c : BitVec 4) (a : Byte) : Statement (.start c a) := fields_word _ _ _
theorem stop (c : BitVec 4) (a : Byte) : Statement (.stop c a) := fields_word _ _ _
theorem getTime (c : BitVec 4) (a : Byte) : Statement (.getTime c a) := fields_word _ _ _
theorem setTime (c : BitVec 4) (a : Byte) : Statement (.setTime c a) := fields_word _ _ _
theorem setAlarm (c : BitVec 4) (a : Byte) : Statement (.setAlarm c a) := fields_word _ _ _
theorem cancelAlarm (c : BitVec 4) (a : Byte) : Statement (.cancelAlarm c a) := fields_word _ _ _
theorem getPendingInt (c : BitVec 4) (a : Byte) : Statement (.getPendingInt c a) :=
  fields_word _ _ _
theorem setOffsetMode (c : BitVec 4) (a : Byte) : Statement (.setOffsetMode c a) :=
  fields_word _ _ _
theorem setOffsetValue (c : BitVec 4) (a : Byte) : Statement (.setOffsetValue c a) :=
  fields_word _ _ _
theorem setCapSelect (c : BitVec 4) (a : Byte) : Statement (.setCapSelect c a) := fields_word _ _ _
theorem getTick (c : BitVec 4) (a : Byte) : Statement (.getTick c a) := fields_word _ _ _
theorem setTop (c : BitVec 4) (a : Byte) : Statement (.setTop c a) := fields_word _ _ _
theorem getTop (c : BitVec 4) (a : Byte) : Statement (.getTop c a) := fields_word _ _ _

end Sys2Proof.Laws.EncodeFields
end

