-- ==== Sys2Proof/Laws/Records.lean ====
section
/-! SUPPORT. The packed records (30_encoding.md R108) as numbers: the value of a packed form from its
fields, and of a field from the packed form. -/

namespace Sys2Proof

theorem toNat_append_eq {n m : Nat} (a : BitVec n) (b : BitVec m) :
    (a ++ b).toNat = a.toNat * 2 ^ m + b.toNat := by
  rw [BitVec.toNat_append, ← Nat.shiftLeft_add_eq_or_of_lt b.isLt, Nat.shiftLeft_eq]

theorem toNat_extract_eq {n : Nat} (v : BitVec n) (k l : Nat) :
    (v.extractLsb' k l).toNat = v.toNat / 2 ^ k % 2 ^ l := by
  rw [BitVec.extractLsb'_toNat, Nat.shiftRight_eq_div_pow]

theorem getLsbD_top (v : BitVec 67) : v.getLsbD 66 = decide (v.toNat / 2 ^ 66 = 1) := by
  have := v.isLt
  rw [BitVec.getLsbD, Nat.testBit_eq_decide_div_mod_eq]
  congr 1
  simp only [eq_iff_iff]; omega

theorem CalendarTime.toNat_pack (t : CalendarTime) :
    t.pack.toNat = t.second.toNat + t.minute.toNat * 2 ^ 8 + t.hour.toNat * 2 ^ 16 +
      t.mday.toNat * 2 ^ 24 + t.weekday.toNat * 2 ^ 32 + t.month.toNat * 2 ^ 40 +
      t.year.toNat * 2 ^ 48 + t.yday.toNat * 2 ^ 57 + t.isdst.toNat * 2 ^ 66 := by
  simp only [CalendarTime.pack, toNat_append_eq, BitVec.toNat_ofBool]; omega

theorem RawTimeBlock.toNat_pack (b : RawTimeBlock) :
    b.pack.toNat = b.seconds.toNat + b.minutes.toNat * 2 ^ 8 + b.hours.toNat * 2 ^ 16 +
      b.days.toNat * 2 ^ 24 + b.weekdays.toNat * 2 ^ 32 + b.months.toNat * 2 ^ 40 +
      b.years.toNat * 2 ^ 48 := by
  simp only [RawTimeBlock.pack, toNat_append_eq]; omega

end Sys2Proof
end

