-- ==== Sys2Proof/Laws/Runs.lean ====
section
/-! SUPPORT. How a command can end: what its finish leaves, and which response a run can give. -/

namespace Sys2Proof.Machine

theorem finishOf_atRest (i : Instr) (s : State) : (finishOf i s).atRest := by
  cases i <;>
    first | exact ⟨rfl, rfl, rfl, rfl, rfl, rfl, rfl, rfl⟩ | exact (respondDecoded_keeps _ _).1

@[simp] theorem finishOf_mem (i : Instr) (s : State) : (finishOf i s).mem = s.mem := by
  cases i <;> first | rfl | exact (respondDecoded_keeps _ _).2.1

@[simp] theorem finishOf_trace (i : Instr) (s : State) : (finishOf i s).trace = s.trace := by
  cases i <;> first | rfl | exact (respondDecoded_keeps _ _).2.2.2.2.2

@[simp] theorem finishOf_slots (i : Instr) (s : State) : (finishOf i s).slots = s.slots := by
  cases i <;> first | rfl | exact (respondDecoded_keeps _ _).2.2.2.2.1

/-- A finish answers `Ok`, or `IntegrityError` where the command decodes. -/
theorem finishOf_rsp (i : Instr) (s : State) :
    (∃ p, (finishOf i s).rsp = some (.ok p)) ∨
    ((finishOf i s).rsp = some (.error .integrityError) ∧ (i.op = 0x1 ∨ i.op = 0x5)) := by
  cases i <;>
    first
      | exact .inl ⟨_, rfl⟩
      | (rcases respondDecoded_rsp _ s with h | ⟨c, h⟩
         · exact .inr ⟨h, by simp [Instr.op]⟩
         · exact .inl ⟨_, h⟩)

/-- The position of the sampling step: INIT's first. -/
theorem sampleReady_pos {i : Instr} {n : Nat} {rest : List CmdStep}
    (h : (stepsOf i).drop n = .sampleReady :: rest) : i.op = 0x2 ∧ n = 0 := by
  cases i <;> simp only [stepsOf, update, List.cons_append, List.nil_append] at h <;>
    (rcases n with _ | _ | _ | _ | _ | n <;> simp at h) <;> exact ⟨rfl, rfl⟩

/-- What the response of a run can be, for a predicate `Q` on the state a run leaves. -/
theorem exec_rsp {i : Instr} {Q : State → Prop} {s t : State} (h : exec i s = .next t)
    (hwait : ∀ u : State, u.rsp = s.rsp → Q u)
    (hraise : ∀ (k : ErrorKind) (u : State), k = .ioError ∨ (k = .notReady ∧ i.op = 0x2) →
      Q (raise k u))
    (hreset : ∀ u, Q (blockReset u))
    (hfinish : ∀ u : State, u.rsp = s.rsp → Q (finishOf i u)) : Q t := by
  have keep : ∀ {c : CmdStep} {u u' : State}, (c.perform u).state = some u' → u'.rsp = u.rsp :=
    fun he => (CmdStep.perform_keeps he).2.2.2.2.1
  refine exec_next (P := fun u => u.rsp = s.rsp) (Q := Q) ?_ ?_ ?_ ?_ ?_ ?_ ?_ h
  · intro c rest u u' h1 _ he
    exact (keep (c := c) (u := u) (u' := u') (by rw [he]; rfl)).trans h1
  · intro c rest u k u' h1 hd he
    apply hraise
    rcases CmdStep.raised_kind he with ⟨rfl, -⟩ | ⟨rfl, rfl, -⟩
    · exact .inl rfl
    · exact .inr ⟨rfl, (sampleReady_pos hd).1⟩
  · intro c rest u u' h1 _ he
    exact hwait u' ((keep (c := c) (u := u) (by rw [he]; rfl)).trans h1)
  · intro c rest u u' _ _ _
    exact hreset u'
  · intro u _ _
    exact hreset u
  · intro u h1 _ _
    exact hfinish u h1
  · cases i <;> rfl

end Sys2Proof.Machine
end

