-- ==== Sys2Proof/Laws/Script.lean ====
section
/-! SUPPORT. A step looks at the first slot of the script only: what stands behind it passes through; and
a transaction that waits with its power is answered as one that is issued now. For claims that compare
runs under two scripts. -/

namespace Sys2Proof.Machine

theorem EnvEvent.apply_slots (e : EnvEvent) (s : State) (x : List Slot) :
    e.apply { s with slots := x } = (e.apply s).map (fun u => { u with slots := x }) := by
  cases e with
  | foreign n t f => simp only [EnvEvent.apply]; split <;> (try split) <;> rfl
  | _ => rfl

theorem applyEvents_slots (es : List EnvEvent) (s : State) (x : List Slot) :
    applyEvents es { s with slots := x } =
      (applyEvents es s).map (fun u => { u with slots := x }) := by
  induction es generalizing s with
  | nil => rfl
  | cons e es ih =>
    simp only [applyEvents, EnvEvent.apply_slots]
    cases e.apply s with
    | none => rfl
    | some u => exact ih u

/-- The end of a step with another rest of the script (a hang aside, which keeps its slot). -/
def StepEnd.withSlots (x : List Slot) : StepEnd → StepEnd
  | .done s => .done { s with slots := x }
  | .raised k s => .raised k { s with slots := x }
  | .waiting s => .waiting { s with slots := x }
  | .abandoned s => .abandoned { s with slots := x }
  | .outsideMap => .outsideMap
  | .foreignOutside => .foreignOutside

theorem perform_withSlots {i : Instr} {c : CmdStep} (hc : c ∈ stepsOf i) (hne : c ≠ .sampleReady)
    {sl : Slot} (hn : ∀ l, sl.answer ≠ .never l) (s : State) (x y : List Slot) :
    c.perform { s with slots := sl :: y } =
      StepEnd.withSlots y (c.perform { s with slots := sl :: x }) := by
  cases h : c.txn s with
  | none => cases c <;> simp [CmdStep.txn] at h; exact absurd rfl hne
  | some t =>
    have ht := stepsOf_inMap hc h
    have e1 : ∀ z, c.txn { s with slots := z } = some t := by
      intro z; rw [← h]; cases c <;> rfl
    rw [CmdStep.perform_eq (e1 _), CmdStep.perform_eq (e1 _)]
    unfold transact
    rw [if_pos ht, if_pos ht]
    simp only [State.nextSlot, List.headD_cons, List.tail_cons]
    rw [applyEvents_slots _ s y, applyEvents_slots _ s x]
    cases applyEvents sl.before s with
    | none => rfl
    | some u =>
      simp only [Option.map_some]
      rw [answerFrom_congr (s := u) (t := { u with slots := y }) rfl,
        answerFrom_congr (s := u) (t := { u with slots := x }) rfl]
      unfold settle
      cases ha : u.answerFrom sl.answer <;> simp only [StepEnd.withSlots]
      case ok => cases c <;> rfl
      case never l => exact absurd (answerFrom_never ha).choose_spec (hn _)
      all_goals rfl

/-! ### A transaction that waits -/

theorem EnvEvent.apply_flight {e : EnvEvent} (he : e.isPowerEvent = false) (s : State)
    (z : Option InFlight) :
    e.apply { s with inFlight := z } = (e.apply s).map (fun u => { u with inFlight := z }) := by
  cases e with
  | foreign n t f => simp only [EnvEvent.apply]; split <;> (try split) <;> rfl
  | powerEvent v => cases he
  | _ => rfl

theorem applyEvents_flight {es : List EnvEvent} (he : ∀ e ∈ es, e.isPowerEvent = false) (s : State)
    (z : Option InFlight) :
    applyEvents es { s with inFlight := z } =
      (applyEvents es s).map (fun u => { u with inFlight := z }) := by
  induction es generalizing s with
  | nil => rfl
  | cons e es ih =>
    have h := EnvEvent.apply_flight (he e (by simp)) s z
    simp only [applyEvents]
    rw [h]
    cases e.apply s with
    | none => rfl
    | some u => exact ih (fun e h => he e (by simp [h])) u

/-- Waiting makes no difference to how a transaction ends (20_memory.md R79), unless the chip loses power
meanwhile (60_exceptions.md R229). -/
theorem CmdStep.perform_resumes {c : CmdStep} {s : State} {t : Txn} (hc : c.txn s = some t)
    (he : ∀ e ∈ s.nextSlot.before, e.isPowerEvent = false) :
    c.perform { s with inFlight := some ⟨t, s.powerLost⟩ } = c.perform s := by
  have h1 : c.txn { s with inFlight := some ⟨t, s.powerLost⟩ } = some t := by
    rw [← hc]; cases c <;> rfl
  rw [perform_eq h1, perform_eq hc]
  unfold transact
  split
  · have h2 := applyEvents_flight he { s with slots := s.slots.tail } (some ⟨t, s.powerLost⟩)
    simp only [State.nextSlot] at h2 ⊢
    rw [h2]
    cases ha : applyEvents (s.slots.headD .quiet).before { s with slots := s.slots.tail } with
    | none => rfl
    | some u =>
      have h3 : u.inFlight = s.inFlight := by
        rw [applyEvents_inFlight ha, if_neg]
        simp only [List.any_eq_true, not_exists, not_and, Bool.not_eq_true]
        exact he
      have h4 : State.powerLost { u with inFlight := some ⟨t, s.powerLost⟩ } = u.powerLost := by
        simp only [State.powerLost, h3, Option.any_some]
      have h5 : ∀ a, State.answerFrom { u with inFlight := some ⟨t, s.powerLost⟩ } a =
          u.answerFrom a := by
        intro a; rw [State.answerFrom, State.answerFrom, h4]
      simp only [Option.map_some, h5]
      cases u.answerFrom (s.slots.headD .quiet).answer <;>
        simp only [settle, State.hold, State.record, h4]
  · rfl

end Sys2Proof.Machine
end

