-- ==== Sys2Proof/Tests/Slice0.lean ====
section
/-! SUPPORT. The model's own tests: ill-formed terms, words written out from the encoding, one or two
vectors of 95_test_vectors.md per command, and a witness for the hypotheses of each statement. -/

namespace Sys2Proof.Tests

open Sys2Proof.Machine

/-! ### Well-formedness refuses ill-formed terms -/

theorem test_wf_channel_refused : (Instr.start 5 0).assembled = false := by decide
theorem test_wf_ignored_arg_refused : (Instr.setTop 0 0xFF).assembled = false := by decide
theorem test_wf_mode_refused : (Instr.setOffsetMode 0 0xFE).assembled = false := by decide
theorem test_wf_offset_refused : (Instr.setOffsetValue 0 0xFD).assembled = false := by decide
theorem test_wf_alarm_accepted : (Instr.setAlarm 15 30).assembled = true := by decide
theorem test_wf_time_refused :
    CalendarTime.valid ⟨60, 0, 0, 1, 6, 1, 100, 0, false⟩ = false := by decide
theorem test_wf_weekday_refused :
    CalendarTime.valid ⟨0, 0, 0, 1, 7, 1, 100, 0, false⟩ = false := by decide
theorem test_wf_year_refused :
    CalendarTime.valid ⟨0, 0, 0, 1, 6, 1, 200, 0, false⟩ = false := by decide
theorem test_wf_block_os_refused :
    RawTimeBlock.validContents ⟨0x80, 0, 0, 1, 6, 1, 0⟩ = false := by decide
theorem test_wf_block_nibble_refused :
    RawTimeBlock.validContents ⟨0x1A, 0, 0, 1, 6, 1, 0⟩ = false := by decide
theorem test_wf_txn_past_end_refused : (Txn.write 0x11 [0, 0]).inMap = false := by decide
theorem test_wf_txn_empty_refused : (Txn.read 0x00 0).inMap = false := by decide
theorem test_wf_txn_last_accepted : (Txn.read 0x11 1).inMap = true := by decide
theorem test_wf_memory_redundant_cell_refused : Memory.wf [(0x04, 0x80)] = false := by decide
theorem test_wf_memory_order_refused : Memory.wf [(0x05, 1), (0x04, 1)] = false := by decide
theorem test_wf_memory_outside_refused : Memory.wf [(0x12, 1)] = false := by decide
theorem test_decode_too_long : decodeSized 24 0x3000 = .error .tooLong := by decide
theorem test_decode_too_wide : decodeSized 16 0x10000 = .error .tooWide := by decide
theorem test_asm_offset_too_low : assemble (.setOffsetValue (-65)) = none := by decide
theorem test_asm_channel_too_high : assemble (.cancelAlarm (some 16)) = none := by decide

/-! ### Words written out: op (4 bits), chan (4 bits), arg (8 bits) -/

theorem test_word_encode : decode 0b0000_0000_00000000 = .encode 0 0 := by decide
theorem test_word_decode : decode 0b0001_0000_00000000 = .decode 0 0 := by decide
theorem test_word_init : decode 0b0010_1010_10111100 = .init 0b1010 0b10111100 := by decide
theorem test_word_start : decode 0b0011_0000_00000000 = .start 0 0 := by decide
theorem test_word_stop : decode 0b0100_0000_00000000 = .stop 0 0 := by decide
theorem test_word_getTime : decode 0b0101_0000_00000000 = .getTime 0 0 := by decide
theorem test_word_setTime : decode 0b0110_0000_00000000 = .setTime 0 0 := by decide
theorem test_word_setAlarm : decode 0b0111_1111_00011110 = .setAlarm 0b1111 30 := by decide
theorem test_word_cancelAlarm : decode 0b1000_0101_00000000 = .cancelAlarm 5 0 := by decide
theorem test_word_getPendingInt : decode 0b1001_0000_00000000 = .getPendingInt 0 0 := by decide
theorem test_word_setOffsetMode : decode 0b1010_0000_00000001 = .setOffsetMode 0 1 := by decide
theorem test_word_setOffsetValue :
    decode 0b1011_0000_01111101 = .setOffsetValue 0 0b01111101 := by decide
theorem test_word_setCapSelect : decode 0b1100_0000_00000001 = .setCapSelect 0 1 := by decide
theorem test_word_getTick : decode 0b1101_0000_00000000 = .getTick 0 0 := by decide
theorem test_word_setTop : decode 0b1110_0000_11111111 = .setTop 0 0xFF := by decide
theorem test_word_getTop : decode 0b1111_0000_00000000 = .getTop 0 0 := by decide
theorem test_table_word : decodeTableWord 16 0x701E = some (.setAlarm 0 30) := by decide

/-! ### Small states -/

/-- A state that has accepted a command: the registers listed hold the bytes listed. -/
def given (cells : List (Nat × Byte)) (slots : List Slot) (o : Operand) : State :=
  { State.reset with
    busy := true, opnd := o, slots := slots,
    mem := cells.foldl (fun m c => m.set c.1 c.2) [] }

/-- Such a state stands at the first step of its command, which no reset cuts. -/
theorem given_begun (cells : List (Nat × Byte)) (slots : List Slot) (o : Operand) :
    (given cells slots o).begun := ⟨rfl, rfl, rfl⟩

def timed (t : CalendarTime) : Operand := ⟨t, .zero⟩
def blocked (b : RawTimeBlock) : Operand := ⟨.zero, b⟩
def fails : Slot := ⟨[], .fail []⟩

/-- The next state of a result. -/
def next? : Result → Option State
  | .next s => some s
  | .fault _ | .refused _ => none

/-- The response of the next state. -/
def answer (r : Result) : Option (Option Response) := (next? r).map (·.rsp)

/-- The register `a` in the next state. -/
def after (r : Result) (a : Nat) : Option Byte := (next? r).map (·.mem.get a)

/-- E1 and E2 of 95_test_vectors.md 2.2. -/
def e1 : CalendarTime := ⟨58, 59, 23, 29, 4, 2, 124, 0, false⟩
def e2 : CalendarTime := ⟨0, 0, 0, 1, 6, 1, 100, 0, false⟩
def block1 : RawTimeBlock := ⟨0x58, 0x59, 0x23, 0x29, 0x04, 0x02, 0x24⟩

/-! ### Vectors of 95_test_vectors.md, one step each -/

-- E1, E12
theorem test_encode_e1 :
    answer (exec (.encode 0 0) (given [] [] (timed e1))) = some (some (.ok (.block block1))) := by
  decide
theorem test_encode_e12 :
    answer (exec (.encode 0 0) (given [] [] (timed ⟨255, 255, 255, 255, 255, 255, 511, 3, true⟩))) =
      some (some (.ok (.block ⟨0x15, 0x15, 0x15, 0x15, 0x07, 0x15, 0x11⟩))) := by decide
-- DV10, DV8
theorem test_decode_dv10 :
    answer (exec (.decode 0 0) (given [] [] (blocked ⟨0x7F, 0xFF, 0xFF, 0xFF, 0xFF, 0x12, 0xFF⟩))) =
      some (some (.ok (.time ⟨85, 165, 165, 165, 7, 12, 265, 498, false⟩))) := by decide
theorem test_decode_dv8 :
    answer (exec (.decode 0 0) (given [] [] (blocked { block1 with seconds := 0xD8 }))) =
      some (some (.error .integrityError)) := by decide
-- I1, I4
theorem test_init_i1 :
    answer (exec (.init 0 0) (given [(0, 0x20)] [] .zero)) = some (some (.ok .none)) := by decide
theorem test_init_i4 :
    answer (exec (.init 0 0) { given [] [fails] .zero with busReady := false }) =
      some (some (.error .notReady)) := by decide
-- A3, A4
theorem test_start_a3 : after (exec (.start 0 0) (given [(0, 0xFF)] [] .zero)) 0 = some 0xDF := by
  decide
theorem test_start_a4 :
    answer (exec (.start 0 0) (given [(0, 0x20)] [fails] .zero)) =
      some (some (.error .ioError)) := by decide
-- O1, O4 (the failed write landed)
theorem test_stop_o1 : after (exec (.stop 0 0) (given [(0, 0x01)] [] .zero)) 0 = some 0x21 := by
  decide
theorem test_stop_o4 :
    after (exec (.stop 0 0) (given [(0, 0x00)] [.quiet, ⟨[], .fail [true]⟩] .zero)) 0 =
      some 0x20 := by decide
-- G1, G3
theorem test_getTime_g1 :
    answer (exec (.getTime 0 0) (given [(4, 0x58), (5, 0x59), (6, 0x23), (7, 0x29), (8, 0x04),
      (9, 0x02), (10, 0x24)] [] .zero)) =
      some (some (.ok (.time { e1 with yday := 59 }))) := by decide
theorem test_getTime_g3 :
    answer (exec (.getTime 0 0) (given [(4, 0xD8)] [fails] .zero)) =
      some (some (.error .ioError)) := by decide
-- W4 (unused bits are written 0), W2 (one of the seven bytes landed)
theorem test_setTime_w4 :
    after (exec (.setTime 0 0) (given [(6, 0xC0)] [] (timed e2))) 6 = some 0x00 := by decide
theorem test_setTime_w2 :
    (next? (exec (.setTime 0 0) (given [] [⟨[], .fail [false, true]⟩] (timed e1)))).map
      (fun t => (t.mem.get 4, t.mem.get 5, t.mem.get 6)) = some (0x80, 0x59, 0x00) := by decide
-- L1, L4
theorem test_setAlarm_l1 :
    (next? (exec (.setAlarm 0 30) (given [(1, 0x48), (16, 0x05), (17, 0xFF)] [] .zero))).map
      (fun t => (t.mem.get 1, t.mem.get 16, t.mem.get 17)) = some (0x40, 0x1E, 0xF7) := by decide
theorem test_setAlarm_l4 :
    (next? (exec (.setAlarm 0 30)
      (given [(1, 0x48), (16, 0x05), (17, 0xFF)] [.quiet, .quiet, fails] .zero))).map
      (fun t => (t.mem.get 1, t.mem.get 16, t.mem.get 17)) = some (0x40, 0x05, 0xFF) := by decide
-- K2, K6
theorem test_cancelAlarm_k2 :
    (next? (exec (.cancelAlarm 5 0) (given [(1, 0x48), (17, 0xF7)] [] .zero))).map
      (fun t => (t.mem.get 1, t.mem.get 17)) = some (0x40, 0xF0) := by decide
theorem test_cancelAlarm_k6 :
    (next? (exec (.cancelAlarm 0 0)
      (given [(1, 0x08), (17, 0x16)] [.quiet, .quiet, fails] .zero))).map
      (fun t => (t.mem.get 1, t.mem.get 17)) = some (0x00, 0x16) := by decide
-- Q2, Q5
theorem test_getPendingInt_q2 :
    answer (exec (.getPendingInt 0 0) (given [(1, 0x08)] [] .zero)) =
      some (some (.ok (.flag true))) := by decide
theorem test_getPendingInt_q5 :
    answer (exec (.getPendingInt 0 0) (given [(1, 0xF7)] [] .zero)) =
      some (some (.ok (.flag false))) := by decide
-- M1, M4
theorem test_setOffsetMode_m1 :
    after (exec (.setOffsetMode 0 1) (given [(2, 0x7D)] [] .zero)) 2 = some 0xFD := by decide
theorem test_setOffsetMode_m4 :
    after (exec (.setOffsetMode 0 0xFE) (given [(2, 0xFF)] [] .zero)) 2 = some 0x7F := by decide
-- V1, V5
theorem test_setOffsetValue_v1 :
    after (exec (.setOffsetValue 0 0x7D) (given [(2, 0x80)] [] .zero)) 2 = some 0xFD := by decide
theorem test_setOffsetValue_v5 :
    after (exec (.setOffsetValue 0 0xFD) (given [(2, 0x00)] [] .zero)) 2 = some 0x7D := by decide
-- X2, X3
theorem test_setCapSelect_x2 :
    after (exec (.setCapSelect 0 0) (given [(0, 0x21)] [] .zero)) 0 = some 0x20 := by decide
theorem test_setCapSelect_x3 :
    after (exec (.setCapSelect 0 1) (given [(0, 0xFE)] [] .zero)) 0 = some 0xFF := by decide
-- Z1, Z4, Z3
theorem test_getTick_z1 :
    answer (exec (.getTick 0 0) (given [] [fails] .zero)) = some (some (.ok (.value 0))) := by decide
theorem test_setTop_z4 :
    answer (exec (.setTop 0 0xFF) (given [] [fails] .zero)) = some (some (.ok .none)) := by decide
theorem test_getTop_z3 :
    answer (exec (.getTop 0 0) (given [] [fails] .zero)) = some (some (.ok (.value 0))) := by decide

/-- The fetch word runs as the first instruction after reset: STOP. -/
theorem test_first_instruction :
    after (step (State.reset.withFetchWord 16 0x4000)) 0 = some 0x20 := by decide

-- 2.1: helper functions
theorem test_bcdPack : [0, 9, 10, 59, 99, 100, 159, 160, 199, 255].map bcdPack =
    [0x00, 0x09, 0x10, 0x59, 0x99, 0xA0, 0xF9, 0x00, 0x39, 0x95] := by decide
theorem test_bcdUnpack : ([0x00, 0x0F, 0x1A, 0x95, 0xA0, 0xF9, 0xFF] : List Byte).map
    (fun b => (bcdUnpack b, bcdUnpackSec b)) =
    [(0, 0), (15, 15), (20, 20), (95, 15), (100, 20), (159, 79), (165, 85)] := by decide
theorem test_isLeap : [2000, 2001, 2024, 2096, 2100, 2104, 2165].map isLeap =
    [true, false, true, true, false, true, false] := by decide
theorem test_dayOfYear : [dayOfYear 2000 2 29, dayOfYear 2001 2 30, dayOfYear 2024 12 31,
    dayOfYear 2026 11 9, dayOfYear 2100 3 1] = [59, 60, 365, 312, 59] := by decide

/-! ### Witnesses: a concrete state that meets the hypotheses of a statement -/

theorem quietFor_of_nil {s : State} (h : s.slots = []) (k : Nat) : s.quietFor k := by
  intro j _; simp [h]

theorem answeredOk_of_nil {s : State} (h : s.slots = []) (k : Nat) : s.answeredOk k := by
  intro j _; simp [h, Slot.quiet]

theorem quietThen_of_replicate {s : State} {k : Nat} {x : BusAnswer}
    (h : s.slots = List.replicate k .quiet ++ [⟨[], x⟩]) : s.quietThen k x := by
  constructor
  · intro j hj
    rw [h, List.getD_append _ _ _ _ (by simpa using hj), List.getD_replicate _ hj]
  · rw [h, List.getD_append_right _ _ _ _ (by simp)]
    simp

/-- A command accepted in the reset state, every coming transaction quiet. -/
def quietState : State := given [] [] .zero

/-- The same, the transaction after the next `k` failing. -/
def failState (k : Nat) : State := given [] (List.replicate k .quiet ++ [fails]) .zero

theorem quietState_begun : quietState.begun := ⟨rfl, rfl, rfl⟩

theorem witness_quietState : quietState.step = 0 ∧ quietState.cut = none ∧ quietState.rsp = none ∧ quietState.trace = [] ∧
    quietState.busReady = true ∧ quietState.silent = true ∧ quietState.busy = true ∧
    quietState.everyEvent EnvEvent.chipOnly = true ∧
    quietState.everyEvent EnvEvent.inMap = true ∧ quietState.opnd.block.seconds.getLsbD 7 = false := by
  decide

/-- The quiet hypotheses of the result statements (INIT, START, STOP, GET_TIME, SET_TIME, SET_ALARM,
CANCEL_ALARM, GET_PENDING_INT, the calibration commands). -/
theorem witness_quiet : quietState.begun ∧ quietState.quietFor 1 ∧ quietState.quietFor 2 ∧
    quietState.quietFor 4 ∧ quietState.quietFor 5 :=
  ⟨quietState_begun, quietFor_of_nil rfl 1, quietFor_of_nil rfl 2, quietFor_of_nil rfl 4, quietFor_of_nil rfl 5⟩

/-- The failing hypotheses, every failing position of every command: `k` from 0 to 4. -/
theorem witness_fail (k : Nat) : (failState k).begun ∧ (failState k).quietThen k (.fail []) :=
  ⟨⟨rfl, rfl, rfl⟩, quietThen_of_replicate rfl⟩

/-- INIT with `BUS_READY` = 0. -/
theorem witness_notReady : ({ quietState with busReady := false } : State).begun ∧
    ({ quietState with busReady := false } : State).busReady = false := ⟨⟨rfl, rfl, rfl⟩, rfl⟩

/-- The words of each command whose statement speaks of the opcode. -/
theorem witness_ops : opOf 0x3000 = 0x3 ∧ opOf 0x4ABC = 0x4 ∧ opOf 0x5000 = 0x5 ∧
    opOf 0x6000 = 0x6 ∧ opOf 0x7F1E = 0x7 ∧ opOf 0x8500 = 0x8 ∧ opOf 0x9000 = 0x9 ∧
    opOf 0xA001 = 0xA ∧ opOf 0xB07D = 0xB ∧ opOf 0xC001 = 0xC ∧ opOf 0xD000 = 0xD := by decide

theorem witness_DecodeSplits : (0x3000 : CmdWord).extractLsb' 12 4 =
    (0x3FFF : CmdWord).extractLsb' 12 4 := by decide

theorem witness_AssembledLines : assemble (.setAlarm (some 15) 255) = some (.setAlarm 15 255, .zero) ∧
    (-64 : Int) ≤ -64 ∧ (63 : Int) ≤ 63 ∧ ¬ (-64 : Int) ≤ -65 ∧ ¬ (64 : Int) ≤ 63 := by decide

theorem witness_IgnoredArgBits : (0xFE : Byte) &&& argMask (.setOffsetMode 0 0) =
      (Instr.setOffsetMode 0 0).arg &&& argMask (.setOffsetMode 0 0) ∧
    (0xFD : Byte) &&& argMask (.setOffsetValue 0 0x7D) =
      (Instr.setOffsetValue 0 0x7D).arg &&& argMask (.setOffsetValue 0 0x7D) ∧
    (0xFF : Byte) &&& argMask (.setTop 0 0) = (Instr.setTop 0 0).arg &&& argMask (.setTop 0 0) ∧
    (30 : Byte) &&& argMask (.setAlarm 0 30) =
      (Instr.setAlarm 0 30).arg &&& argMask (.setAlarm 0 30) := by decide

/-- DECODE with the integrity bit set. -/
theorem witness_DecodeRefuses :
    (given [] [] (blocked ⟨0x80, 0, 0, 0, 0, 0, 0⟩)).opnd.block.seconds.getLsbD 7 = true ∧
    (given [] [] (blocked ⟨0xFF, 0xFF, 0xFF, 0xFF, 0xFF, 0xFF, 0xFF⟩)).opnd.block.seconds.getLsbD 7
      = true := by decide

/-- DECODE at the ends of the range where `yday` is stated: month 1 and day 1, month 12. -/
theorem witness_DecodeComputes :
    (0x7F : Byte).getLsbD 7 = false ∧ 1 ≤ digitsOf 0x01 ∧ digitsOf 0x01 = 1 ∧
    digitsOf 0x12 = 12 ∧ digitsOf 0x12 ≤ 12 := by decide

/-- DECODE where `yday` is free: month 0, month 13, day 0. -/
theorem witness_DecodeDraws :
    (quietState.opnd.block.seconds.getLsbD 7 = false ∧ digitsOf quietState.opnd.block.months = 0) ∧
    12 < digitsOf (blocked ⟨0, 0, 0, 1, 0, 0x13, 0⟩).block.months ∧
    (digitsOf (blocked ⟨0, 0, 0, 0, 0, 1, 0⟩).block.days = 0) := by decide

/-- Valid times and blocks at the ends of the ranges (E2, E3). -/
theorem witness_RoundTrip :
    (given [] [] (timed e2)).opnd.time.valid = true ∧
    (given [] [] (timed ⟨59, 59, 23, 31, 6, 12, 199, 0, false⟩)).opnd.time.valid = true ∧
    (given [] [] (blocked ⟨0, 0, 0, 1, 0, 1, 0⟩)).opnd.block.validContents = true ∧
    (given [] [] (blocked ⟨0x59, 0x59, 0x23, 0x31, 0x06, 0x12, 0x99⟩)).opnd.block.validContents
      = true := by decide

/-- An idle machine with SET_TIME and GET_TIME presented. -/
def twoCommands (w w' : CmdWord) (t : CalendarTime) : State :=
  { State.reset with inputs := [.command w (timed t), .command w' .zero] }

theorem witness_SetTimeThenGetTime : (twoCommands 0x6000 0x5000 e2).busy = false ∧
    (twoCommands 0x6000 0x5000 e2).quietFor 2 ∧ e2.valid = true :=
  ⟨rfl, quietFor_of_nil rfl 2, by decide⟩

theorem witness_IntegrityErrorPersists : (twoCommands 0x5000 0x5000 e2).busy = false ∧
    (twoCommands 0x5000 0x5000 e2).quietFor 2 ∧ (twoCommands 0x5000 0x5000 e2).OS = true :=
  ⟨rfl, quietFor_of_nil rfl 2, by decide⟩

theorem witness_TimerFlagStays : (given [(1, 0x08)] [] .zero).TF = true ∧
    (given [(1, 0x08)] [] .zero).everyEvent EnvEvent.chipOnly = true ∧
    (Instr.getPendingInt 0 0).op ≠ 0x7 ∧ (Instr.getPendingInt 0 0).op ≠ 0x8 ∧
    (next? (exec (.getPendingInt 0 0) (given [(1, 0x08)] [] .zero))).isSome = true := by decide

theorem witness_ArmCycle : let s : State := { State.reset with inputs :=
      [.command 0x701E .zero, .command 0x9000 .zero, .env (.chip .raiseTF), .command 0x9000 .zero,
        .command 0x9000 .zero, .command 0x8000 .zero, .command 0x9000 .zero] }
    s.busy = false ∧ s.quietFor 13 ∧ s.inputs.length = 7 :=
  ⟨rfl, quietFor_of_nil rfl 13, rfl⟩

/-- Transactions at the ends of the register map: the last register, and the whole map. -/
theorem witness_Transactions : quietState.inFlight = none ∧ quietState.nextSlot = .quiet ∧
    (failState 0).nextSlot = ⟨[], .fail []⟩ ∧ (0x11 : Byte).toNat + 1 ≤ 18 ∧
    (0x00 : Byte).toNat + 18 ≤ 18 ∧ (Txn.read 0x00 18).inMap = true ∧
    (Txn.write 0x04 [1, 2, 3, 4, 5, 6, 7]).inMap = true := by decide

theorem witness_DayOfYear : (1 : Nat) ≤ 1 ∧ (12 : Nat) ≤ 12 ∧ dayOfYear 2000 1 1 = 0 := by decide

theorem witness_CanonicalRegisters : Memory.wf [(0x00, 0x20), (0x11, 0x16)] = true := by decide

theorem witness_StepRuns : State.reset.busy = false ∧ quietState.busy = true ∧
    (twoCommands 0x6000 0x5000 e2).inputs =
      [.command 0x6000 (timed e2), .command 0x5000 .zero] ∧
    (decode 0x6000).wellFormed = true ∧ 0xFFFF < 2 ^ 16 := by decide

theorem witness_IdleBlock : State.reset.busy = false ∧ State.reset.inFlight = none ∧ State.reset.inputs = [] ∧
    ({ State.reset with inputs := [.blockReset] } : State).busy = false ∧
    ({ State.reset with inputs := [.env (.busReady false)] } : State).busy = false ∧
    ({ State.reset with inputs := [.env (.powerEvent (Vector.replicate 18 0xFF))] } : State).busy =
      false ∧
    (EnvEvent.foreign 1 (.write 0x03 [7]) none).inMap = true ∧
    (EnvEvent.busReady false).inMap = true := by decide

theorem witness_StepRunsCut :
    ({ State.reset with inputs := [.commandCut 0x4000 .zero 1] } : State).busy = false ∧
    (decode 0x4000).wellFormed = true := by decide

/-- A command whose transaction after the next `k` has the answer `x`. -/
def answeredState (k : Nat) (x : BusAnswer) : State :=
  given [] (List.replicate k .quiet ++ [⟨[], x⟩]) .zero

theorem answeredState_quietThen (k : Nat) (x : BusAnswer) : (answeredState k x).quietThen k x :=
  quietThen_of_replicate rfl

theorem witness_ResetDuringUpdate : (answeredState 0 (.blockReset [])).begun ∧
    (answeredState 0 (.blockReset [])).quietThen 0 (.blockReset []) ∧
    (answeredState 1 (.blockReset [true])).begun ∧
    (answeredState 1 (.blockReset [true])).quietThen 1 (.blockReset [true]) ∧
    updateOf (.stop 0 0) = some (0x00, 0x20, 0x20) ∧
    updateOf (.setOffsetMode 0 1) = some (0x02, 0x80, 0x80) :=
  ⟨⟨rfl, rfl, rfl⟩, answeredState_quietThen _ _, ⟨rfl, rfl, rfl⟩, answeredState_quietThen _ _, rfl, rfl⟩

/-- Resets in the first and the last transaction of SET_ALARM. -/
theorem witness_ResetInTransaction : (answeredState 0 (.blockReset [])).busReady = true ∧
    0 < (accesses (.setAlarm 0 30)).length ∧ 4 < (accesses (.setAlarm 0 30)).length ∧
    (answeredState 4 (.blockReset [true])).begun ∧
    (answeredState 4 (.blockReset [true])).quietThen 4 (.blockReset [true]) :=
  ⟨rfl, by decide, by decide, ⟨rfl, rfl, rfl⟩, answeredState_quietThen _ _⟩

/-- Resets before the first step of INIT, after its probe, in ENCODE, and after SET_ALARM's last
transaction. -/
theorem witness_ResetBetweenSteps : (quietState.cutAt 0).step = 0 ∧
    (quietState.cutAt 5).cut = some 5 ∧ (quietState.cutAt 5).busReady = true ∧
    2 ≤ leadSteps (.init 0 0) + (accesses (.init 0 0)).length ∧
    0 ≤ leadSteps (.encode 0 0) + (accesses (.encode 0 0)).length ∧
    5 ≤ leadSteps (.setAlarm 0 30) + (accesses (.setAlarm 0 30)).length ∧
    (quietState.cutAt 5).quietFor 5 ∧ (quietState.cutAt 5).inFlight = none :=
  ⟨rfl, rfl, rfl, by decide, by decide, by decide, quietFor_of_nil rfl 5, rfl⟩

/-- R50: ENCODE is abandoned without a response; SET_ALARM after its second transaction keeps what the
first two did. -/
theorem test_reset_in_encode :
    answer (exec (.encode 0 0) ((given [] [] (timed e1)).cutAt 0)) = some none := by decide
theorem test_reset_between_transactions :
    (next? (exec (.setAlarm 0 30) ((given [(1, 0x48), (16, 0x05)] [] .zero).cutAt 2))).map
      (fun t => (t.mem.get 1, t.mem.get 16, t.rsp, t.trace.length)) =
      some (0x40, 0x05, none, 2) := by decide

/-- STOP waiting in its write. -/
def waitingState : State :=
  { given [] [] .zero with
    cmd := 0x4000, step := 1, trace := [⟨.read 0x00 1, .okRead [0x00]⟩],
    inFlight := some ⟨.write 0x00 [0x20], false⟩ }

theorem witness_StepKeepsInvariant : waitingState.Inv ∧ ∃ t, step waitingState = .next t :=
  ⟨⟨by decide, (fun h => by cases h), by decide, by decide, by decide, by decide,
    (fun x h => by cases h; decide), by decide, (fun _ h => by cases h), (fun h => by cases h), by decide, by decide⟩, _, rfl⟩

/-- The four kinds of response of a command run from its first step. -/
theorem witness_ResponseAgrees :
    answer (exec (.stop 0 0) quietState) = some (some (.ok .none)) ∧
    answer (exec (.stop 0 0) (failState 1)) = some (some (.error .ioError)) ∧
    answer (exec (.getTime 0 0) quietState) = some (some (.error .integrityError)) ∧
    answer (exec (.init 0 0) { quietState with busReady := false }) =
      some (some (.error .notReady)) := by decide

theorem witness_RaisingEnds : (failState 0).isCut = false ∧ ∃ u, (CmdStep.readTmp 0x00).perform (failState 0) = .raised .ioError u :=
  ⟨rfl, _, rfl⟩

theorem witness_AnsweredCommandsEnd : quietState.begun ∧ quietState.busReady = true ∧
    quietState.trace = [] ∧ quietState.answeredOk 5 ∧
    quietState.everyEvent EnvEvent.inMap = true :=
  ⟨quietState_begun, rfl, rfl, answeredOk_of_nil rfl 5, by decide⟩

/-- Registers outside what STOP writes, at both ends of the map; the unused registers' ends. -/
theorem witness_Frame : writesCell (accesses (.stop 0 0)) 1 = false ∧
    writesCell (accesses (.setTime 0 0)) 3 = false ∧
    writesCell (accesses (.setTime 0 0)) 11 = false ∧
    (next? (exec (.stop 0 0) quietState)).isSome = true ∧
    (next? (step quietState)).isSome = true := by decide

theorem witness_OnlyNamedCommands : quietState.OS = true ∧ (Instr.stop 0 0).op ≠ 0x6 ∧
    (Instr.setCapSelect 0 1).op ≠ 0x3 ∧ (Instr.setCapSelect 0 1).op ≠ 0x4 ∧
    (next? (exec (.setCapSelect 0 1) quietState)).isSome = true := by decide

theorem witness_ForeignWrite :
    (given [] ([.quiet, ⟨[.foreign 1 (.write 0x00 [0xFF]) none], .ok⟩] ++ []) .zero).begun ∧
    updateOf (.setCapSelect 0 1) = some (0x00, 0x01, 0x01) ∧
    (given [] ([.quiet, ⟨[.foreign 1 (.write 0x01 [0xFF]) none], .ok⟩, .quiet, .quiet,
      ⟨[.foreign 1 (.write 0x11 [0xFF]) none], .ok⟩] ++ []) .zero).begun ∧
    (given [] ([.quiet, ⟨[.foreign 1 (.write 0x01 [0xFF]) none], .ok⟩, .quiet,
      ⟨[.foreign 1 (.write 0x11 [0xFF]) none], .ok⟩] ++ []) .zero).begun :=
  ⟨⟨rfl, rfl, rfl⟩, rfl, ⟨rfl, rfl, rfl⟩, ⟨rfl, rfl, rfl⟩⟩

theorem witness_AlarmFlag : (Instr.setAlarm 0 30).op = 0x7 ∧ (Instr.cancelAlarm 0 0).op = 0x8 ∧
    (given [] ([.quiet, ⟨[.chip .raiseAF, .chip .raiseTF], .ok⟩, .quiet, .quiet, .quiet] ++ [])
      .zero).step = 0 ∧
    (given [] ([.quiet, ⟨[.chip .raiseAF, .chip .raiseTF], .ok⟩, .quiet, .quiet, .quiet] ++ [])
      .zero).cut = none := by decide

/-- SET_ALARM that failed in its third transaction, and its two successful runs. -/
theorem witness_Retry : (failState 2).silent = true ∧ (failState 2).busReady = true ∧
    ∃ t u v, exec (decode 0x701E) (accept 0x701E .zero (failState 2)) = .next t ∧ t.busy = false ∧
      exec (decode 0x701E) (accept 0x701E .zero { t with slots := [] }) = .next u ∧
      exec (decode 0x701E) (accept 0x701E .zero { failState 2 with slots := [] }) = .next v :=
  ⟨by decide, rfl, _, _, _, rfl, rfl, rfl, rfl⟩

/-- STOP whose write does not return. -/
theorem witness_WaitingCommandResumes : quietState.busy = true ∧ quietState.rsp = none ∧
    (∀ sl ∈ [Slot.quiet], sl.answer = .ok) ∧
    ∃ t, exec (.stop 0 0) { quietState with slots := [.quiet] ++ ⟨[], .noAnswer⟩ :: [] } = .next t ∧
      t.busy = true ∧ ∀ e ∈ t.nextSlot.before, e.isPowerEvent = false :=
  ⟨rfl, rfl, by decide, _, rfl, rfl, by decide⟩

/-- STOP whose write never returns: it stores its byte and hangs. -/
def hangingState : State := { answeredState 1 (.never [true]) with cmd := 0x4000 }

theorem witness_HangingCommand : hangingState.begun ∧ hangingState.busReady = true ∧
    hangingState.rsp = none ∧ 1 < (accesses (.stop 0 0)).length ∧
    hangingState.quietThen 1 (.never [true]) ∧ hangingState.busy = true ∧
    decode hangingState.cmd = .stop 0 0 :=
  ⟨⟨rfl, rfl, rfl⟩, rfl, rfl, by decide, quietThen_of_replicate rfl, rfl, by decide⟩

/-- R79: the register may hold the new byte, and every further step is the same state. -/
theorem test_hang : ∃ t, step hangingState = .next t ∧ t.mem.get 0 = 0x20 ∧ t.rsp = none ∧
    step t = .next t := ⟨_, rfl, by decide, rfl, rfl⟩

/-- R79: the hang is excluded only under `FAIR_BUS`. -/
theorem test_hang_admitted : hangingState.admitted ⟨.static, false, 1⟩ = true ∧
    hangingState.admitted ⟨.static, true, 1⟩ = false := by decide

/-- A power event while STOP's write waits, and the answers that follow it. -/
def powerLossState (a : BusAnswer) : State :=
  { waitingState with slots := [⟨[.powerEvent (Vector.replicate 18 0x11)], a⟩] }

theorem witness_PowerLoss : (powerLossState .ok).inFlight = some ⟨.write 0x00 [0x20], false⟩ ∧
    (powerLossState .ok).cut = none ∧ (powerLossState .ok).rsp = none ∧
    (powerLossState .ok).busy = true ∧ leadSteps (.stop 0 0) ≤ (powerLossState .ok).step ∧
    (powerLossState .ok).step < leadSteps (.stop 0 0) + (accesses (.stop 0 0)).length ∧
    (powerLossState .ok).nextSlot = ⟨[.powerEvent (Vector.replicate 18 0x11)], .ok⟩ ∧
    (next? (exec (.stop 0 0) (powerLossState .noAnswer))).map (·.powerLost) = some true := by decide

/-- The power was lost in an earlier step, and the transport answers now. -/
theorem witness_PowerLostBefore : let s : State :=
      { waitingState with inFlight := some ⟨.write 0x00 [0x20], true⟩ }
    s.inFlight = some ⟨.write 0x00 [0x20], true⟩ ∧ s.cut = none ∧ s.rsp = none ∧ s.busy = true ∧
    s.step = 1 ∧ answer (exec (.stop 0 0) s) = some (some (.error .ioError)) := by decide

/-- R13: the write that waits is among the transactions issued, and not among those returned. -/
theorem test_pending : (next? (exec (.stop 0 0)
    { quietState with slots := [.quiet, ⟨[], .noAnswer⟩] })).map (·.issued) =
      some [⟨.read 0x00 1, .okRead [0x00]⟩, ⟨.write 0x00 [0x20], .pending⟩] := by decide

/-- R229: the write in flight at the power event fails although the script says `ok`, and `OS` is 1. -/
theorem test_power_loss : (next? (exec (.stop 0 0) (powerLossState .ok))).map
    (fun t => (t.rsp, t.mem.get 0x00, t.mem.get 0x04)) =
      some (some (.error .ioError), 0x11, 0x91) := by decide

theorem witness_EarlierLatches : quietState.step = 0 ∧ quietState.busy = true ∧
    ∃ t, exec (.getPendingInt 0 0) quietState = .next t ∧ t.busy = false :=
  ⟨rfl, rfl, _, rfl, rfl⟩

theorem witness_CodecIsPure : quietState.opnd = (failState 1).opnd ∧ quietState.cut = none ∧
    (failState 1).cut = none ∧
    (∃ t, exec (.encode 0 0) quietState = .next t) ∧
    (∃ t, exec (.encode 3 9) (failState 1) = .next t) ∧
    (∃ t, exec (.decode 0 0) (given [] [] (blocked block1)) = .next t) ∧
    1 ≤ digitsOf block1.months ∧ digitsOf block1.months ≤ 12 ∧ 1 ≤ digitsOf block1.days :=
  ⟨rfl, rfl, rfl, ⟨_, rfl⟩, ⟨_, rfl⟩, ⟨_, rfl⟩, by decide, by decide, by decide⟩

theorem witness_ChipMoves : tfOf 0x08 = true ∧ bitSet 0x40 ctrl2AF = true ∧ osOf 0x80 = true ∧
    (∀ b, ChipMove.raiseTF ≠ .clock b) ∧ (∀ v, ChipMove.raiseTF ≠ .countdown v) ∧
    ChipMove.raiseTF ≠ .raiseOS ∧ ChipMove.raiseTF ≠ .raiseAF ∧ ChipMove.raiseAF ≠ .raiseTF :=
  ⟨by decide, by decide, by decide, nofun, nofun, by decide, by decide,
    by decide⟩

end Sys2Proof.Tests
end

