-- ==== Sys2Proof/Proofs/MemoryRules.lean ====
section
/-! SUPPORT. The rules of one transaction that the memory obligations turn on (20_memory.md R61 to
R72): which transactions lie in the map, what a read and a failure leave, and storing twice. -/

namespace Sys2Proof.Machine

theorem Txn.inMap_read_iff (a : Byte) (n : Nat) :
    (Txn.read a n).inMap = true ↔ 1 ≤ n ∧ a.toNat + n ≤ regCount := by
  simp [Txn.inMap]

@[simp] theorem Txn.store_read (a : Byte) (n : Nat) (m : Memory) : (Txn.read a n).store m = m := rfl

@[simp] theorem Txn.storePart_read (a : Byte) (n : Nat) (landed : List Bool) (m : Memory) :
    (Txn.read a n).storePart landed m = m := rfl

/-- What a transaction delivers is not changed by its own completion (R72): a read stores nothing, a
write delivers nothing. -/
theorem Txn.bytesRead_store (t : Txn) (m : Memory) : t.bytesRead (t.store m) = t.bytesRead m := by
  cases t with
  | read a n => rfl
  | write a data => rfl

/-- A burst write hides what an equal one before it stored: inside the burst both leave its bytes,
outside it neither changes anything. -/
theorem Memory.get_storeBytes_twice (data : List Byte) (m : Memory) (a b : Nat) :
    ((m.storeBytes a data).storeBytes a data).get b = (m.storeBytes a data).get b := by
  by_cases hb : a ≤ b ∧ b < a + data.length
  · rw [get_storeBytes, if_pos hb, get_storeBytes, if_pos hb]
  · exact get_storeBytes_outside data _ a b (by omega)

/-- Every register reads alike after a transaction that completed once or twice (R72). -/
theorem Txn.get_store_twice (t : Txn) (m : Memory) (x : Nat) :
    (t.store (t.store m)).get x = (t.store m).get x := by
  cases t with
  | read a n => rfl
  | write a data => exact Memory.get_storeBytes_twice data m a.toNat x

/-- A transaction that fails, nobody acting before it, raises `IoError` (R62, R63). -/
theorem transact_fail {t : Txn} {take : List Byte → State → State} {s : State} {l : List Bool}
    (ht : t.inMap = true) (hf : s.inFlight = none) (hs : s.nextSlot = ⟨[], .fail l⟩) :
    transact t take s = .raised .ioError { s with
      slots := s.slots.tail, trace := s.trace ++ [⟨t, .fail⟩], mem := t.storePart l s.mem,
      inFlight := none } := by
  rw [transact_silent ht hf hs]; rfl

/-- A failed read leaves nothing but the used slot and its line of the trace (R62). -/
theorem transact_read_fail {a : Byte} {n : Nat} {take : List Byte → State → State} {s : State}
    {l : List Bool} (ht : (Txn.read a n).inMap = true) (hf : s.inFlight = none)
    (hs : s.nextSlot = ⟨[], .fail l⟩) :
    transact (.read a n) take s = .raised .ioError
      { s with slots := s.slots.tail, trace := s.trace ++ [⟨.read a n, .fail⟩] } := by
  rw [transact_fail ht hf hs, Txn.storePart_read, ← hf]

end Sys2Proof.Machine
end

