-- ==== Sys2Proof/Proofs/Memory.lean ====
section
/-! The obligations of the register file and of single transactions (20_memory.md). -/

namespace Sys2Proof.Machine

/-- Settles O32: a quiet read ends with what `readBytes` finds in a register file it leaves alone,
and a failed one with the slot used and one more line in the trace. -/
theorem readDeliversRegistersAndChangesNone : Obligations.ReadDeliversRegistersAndChangesNone := by
  intro a n take s hn ha hf
  have ht : (Txn.read a n).inMap = true := (Txn.inMap_read_iff a n).2 ⟨hn, ha⟩
  constructor
  · intro hs
    exact ⟨s.mem.readBytes a.toNat n, _, transact_quiet ht hf hs,
      Memory.length_readBytes s.mem a.toNat n,
      fun k hk => Memory.getD_readBytes s.mem a.toNat n k hk, rfl, rfl⟩
  · intro l hs
    exact ⟨_, transact_read_fail ht hf hs, rfl⟩

/-- Settles O35: completing a transaction changes neither what it delivers nor what completing it
again leaves, and a read stores nothing; that the transaction lies in the map is not needed. -/
theorem repeatedTransactionsAreIdempotent : Obligations.RepeatedTransactionsAreIdempotent := by
  intro t m _
  refine ⟨t.bytesRead_store m, t.get_store_twice m, ?_⟩
  rintro n a rfl
  exact Txn.store_read a n m

end Sys2Proof.Machine
end

