-- ==== Sys2Proof/Proofs/AlarmRules.lean ====
section
/-! SUPPORT. The rules the alarm obligations turn on: a flag as a bit of its register, what an error
leaves, a read into `tmp` as the next step of a command, and the responses a run can give. -/

namespace Sys2Proof.Machine

/-- Testing under a mask of one bit is reading that bit. -/
theorem bitSet_twoPow (b : Byte) {k : Nat} (hk : k < 8) :
    bitSet b (BitVec.twoPow 8 k) = b.getLsbD k := by
  have hne : BitVec.twoPow 8 k ≠ 0 := by
    intro h
    have hbit := congrArg (·.getLsbD k) h
    simp [hk] at hbit
  cases hb : b.getLsbD k <;> simp_all [bitSet, BitVec.and_twoPow]

/-- `TF` is bit 3 of control register 2 (R28). -/
theorem tfOf_eq_getLsbD (ctrl2 : Byte) : tfOf ctrl2 = ctrl2.getLsbD 3 :=
  bitSet_twoPow ctrl2 (k := 3) (by decide)

/-- An error leaves the block at rest (R216). -/
theorem raise_atRest (k : ErrorKind) (s : State) : (raise k s).atRest :=
  ⟨rfl, rfl, rfl, rfl, rfl, rfl, rfl, rfl⟩

/-- A quiet read of one byte into `tmp`. -/
theorem runSteps_readTmp_quiet {finish : State → State} {rest : List CmdStep} {a : Byte} {s : State}
    (ha : a.toNat < regCount) (hc : s.cut = none) (hf : s.inFlight = none) (hq : s.quietFor 1) :
    runSteps finish (.readTmp a :: rest) s = runSteps finish rest { s with
      step := s.step + 1, tmp := s.mem.get a.toNat, slots := s.slots.tail, inFlight := none,
      trace := s.trace ++ [⟨.read a 1, .okRead [s.mem.get a.toNat]⟩] } :=
  runSteps_done hc
    (CmdStep.perform_quiet (c := .readTmp a) rfl (inMap_read_one ha) hf (quietFor_nextSlot hq))

/-- A failed read of one byte ends the command with `IoError`, the registers as they were. -/
theorem runSteps_readTmp_fails {finish : State → State} {rest : List CmdStep} {a : Byte} {s : State}
    {l : List Bool} (ha : a.toNat < regCount) (hc : s.cut = none) (hf : s.inFlight = none)
    (hq : s.quietThen 0 (.fail l)) :
    runSteps finish (.readTmp a :: rest) s = .next (raise .ioError { s with
      slots := s.slots.tail, trace := s.trace ++ [⟨.read a 1, .fail⟩], inFlight := none }) :=
  runSteps_raised hc
    (CmdStep.perform_fail (c := .readTmp a) rfl (inMap_read_one ha) hf (quietThen_nextSlot hq))

/-- What a run that began without a response leaves: none still, the response of the command's
finish, `IoError`, or INIT's `NotReady`. -/
theorem exec_rsp_cases {i : Instr} {s t : State} (h : exec i s = .next t) (hs : s.rsp = none) :
    t.rsp = none ∨ (∃ u, t = finishOf i u) ∨ t.rsp = some (.error .ioError) ∨
      (t.rsp = some (.error .notReady) ∧ i.op = 0x2) := by
  refine exec_rsp (Q := fun t => t.rsp = none ∨ (∃ u, t = finishOf i u) ∨
    t.rsp = some (.error .ioError) ∨ (t.rsp = some (.error .notReady) ∧ i.op = 0x2)) h ?_ ?_ ?_ ?_
  · intro u hu
    exact .inl (hu.trans hs)
  · rintro k u (rfl | ⟨rfl, hop⟩)
    · exact .inr (.inr (.inl rfl))
    · exact .inr (.inr (.inr ⟨rfl, hop⟩))
  · intro u
    exact .inl rfl
  · intro u _
    exact .inr (.inl ⟨u, rfl⟩)

end Sys2Proof.Machine
end

