-- ==== Sys2Proof/Proofs/Alarm.lean ====
section
/-! The obligations of the countdown timer's commands (43_alarm.md). -/

namespace Sys2Proof.Machine

/-- GET_PENDING_INT from its first step is one read of control register 2 and its finish. -/
theorem exec_getPendingInt_start (chan : BitVec 4) (arg : Byte) {s : State} (h : s.step = 0) :
    exec (.getPendingInt chan arg) s =
      runSteps (finishOf (.getPendingInt chan arg)) [.readTmp addrCtrl2] s :=
  exec_eq_start _ h

/-- A quiet GET_PENDING_INT answers `TF` after one read, the registers as they were (R182). -/
theorem exec_getPendingInt_quiet (chan : BitVec 4) (arg : Byte) {s : State} (hs : s.begun)
    (hq : s.quietFor 1) : ∃ t, exec (.getPendingInt chan arg) s = .next t ∧
      s.endsWith t (.ok (.flag (tfOf (s.mem.get 0x01))))
        [⟨.read 0x01 1, .okRead [s.mem.get 0x01]⟩] ∧ t.mem = s.mem := by
  obtain ⟨hstep, hcut, hflight⟩ := hs
  rw [exec_getPendingInt_start chan arg hstep,
    runSteps_readTmp_quiet (by decide) hcut hflight hq, runSteps_nil (by exact hcut)]
  exact ⟨_, rfl, ⟨⟨finishOf_atRest _ _, rfl, rfl⟩, rfl, rfl, List.drop_one.symm, rfl⟩, rfl⟩

/-- A GET_PENDING_INT whose read fails answers `IoError`, the registers as they were (R182). -/
theorem exec_getPendingInt_fails (chan : BitVec 4) (arg : Byte) {s : State} {l : List Bool}
    (hs : s.begun) (hq : s.quietThen 0 (.fail l)) :
    ∃ t, exec (.getPendingInt chan arg) s = .next t ∧
      s.endsWith t (.error .ioError) [⟨.read 0x01 1, .fail⟩] ∧ t.mem = s.mem := by
  obtain ⟨hstep, hcut, hflight⟩ := hs
  rw [exec_getPendingInt_start chan arg hstep,
    runSteps_readTmp_fails (by decide) hcut hflight hq]
  exact ⟨_, rfl, ⟨⟨raise_atRest _ _, rfl, rfl⟩, rfl, rfl, List.drop_one.symm, rfl⟩, rfl⟩

/-- GET_PENDING_INT answers a flag or `IoError`, whatever the environment does (R182). -/
theorem exec_getPendingInt_rsp {chan : BitVec 4} {arg : Byte} {s t : State}
    (h : exec (.getPendingInt chan arg) s = .next t) (hs : s.rsp = none) :
    t.rsp = none ∨ (∃ f, t.rsp = some (.ok (.flag f))) ∨ t.rsp = some (.error .ioError) := by
  obtain hnone | ⟨u, rfl⟩ | hio | ⟨-, hop⟩ := exec_rsp_cases h hs
  · exact .inl hnone
  · exact .inr (.inl ⟨tfOf u.tmp, rfl⟩)
  · exact .inr (.inr hio)
  · exact absurd (show (0x9 : BitVec 4) = 0x2 from hop) (by decide)

/-- Settles O24: the word by its operation number; the one read, completed or failed, by the rule of
a read into `tmp`; the responses by the cases of a run, where `NotReady` is INIT's alone. -/
theorem getPendingIntAnswersTimerFlag : Obligations.GetPendingIntAnswersTimerFlag := by
  refine ⟨fun w hw => decode_of_op hw, fun chan arg s hs => ⟨fun hq => ?_, fun l hq => ?_, ?_⟩⟩
  · rw [← tfOf_eq_getLsbD]
    exact exec_getPendingInt_quiet chan arg hs hq
  · exact exec_getPendingInt_fails chan arg hs hq
  · exact fun t h hrsp => exec_getPendingInt_rsp h hrsp

end Sys2Proof.Machine
end

