-- ==== Sys2Proof/Proofs/Stubs.lean ====
section
/-! The obligation of GET_TICK (45_host_stubs.md). -/

namespace Sys2Proof.Machine

/-- Responding `Ok` at once is the end of a command that issued nothing: the trace, the script, the
draws, `BUS_READY` and the host's inputs stay as they were. -/
theorem respondOk_endsWith (p : Payload) (s : State) : s.endsWith (respondOk p s) (.ok p) [] :=
  ⟨⟨⟨respondOk_busy p s, respondOk_cmd p s, respondOk_opnd p s, respondOk_step p s,
      respondOk_tmp p s, respondOk_blk p s, respondOk_cut p s, respondOk_inFlight p s⟩,
    respondOk_busReady p s, respondOk_inputs p s⟩,
    respondOk_rsp p s,
    (respondOk_trace p s).trans (List.append_nil s.trace).symm,
    (respondOk_slots p s).trans List.drop_zero.symm,
    respondOk_draws p s⟩

/-- GET_TICK has no steps, so it responds 0 at once (R200), at whatever position it stands. -/
theorem exec_getTick (chan : BitVec 4) (arg : Byte) {s : State} (hc : s.cut = none) :
    exec (.getTick chan arg) s = .next (respondOk (.value 0) s) :=
  exec_noSteps rfl hc

/-- Settles O30: the word by its operation number; the command by its response, which it gives at
once and which leaves the registers as they were. -/
theorem getTickAnswersZero : Obligations.GetTickAnswersZero :=
  ⟨fun _ hw => decode_of_op hw, fun chan arg s hc =>
    ⟨respondOk (.value 0) s, exec_getTick chan arg hc, respondOk_endsWith (.value 0) s,
      respondOk_mem (.value 0) s⟩⟩

end Sys2Proof.Machine
end

