-- ==== Sys2Proof/Proofs/CommandWord.lean ====
section
/-! The obligations of the command word and of the assembler (30_encoding.md R100 to R110). -/

namespace Sys2Proof.Machine

/-! ### Decoding and encoding -/

theorem decode_encode (i : Instr) : decode (encode i) = i := by
  rw [decode, opOf_encode, chanOf_encode, argOf_encode, instrOfOp_self]

theorem encode_decode (w : CmdWord) : encode (decode w) = w := by
  obtain ⟨hop, hchan, harg⟩ := instrOfOp_fields (opOf w) (chanOf w) (argOf w)
  rw [encode, decode, hop, hchan, harg, word_fields]

/-- No command is ill-formed (R105). -/
theorem wellFormed_eq_true (i : Instr) : i.wellFormed = true := by cases i <;> rfl

/-- Settles O3: the fields of a word put together are those of the command, and the opcode map gives
back the command that has them. -/
theorem decodeAndEncodeAgree : Obligations.DecodeAndEncodeAgree :=
  ⟨fun i => ⟨wellFormed_eq_true i, decode_encode i⟩, encode_decode⟩

/-- Replacing `chan` and `arg` is looking the operation number up again (R101). -/
theorem withFields_eq (i : Instr) (c : BitVec 4) (a : Byte) :
    withFields i c a = instrOfOp i.op c a := by cases i <;> rfl

/-- Settles O2: the fields are those the opcode map was given, and it looks at `op` alone. -/
theorem decodeSplitsTheWordAndDispatchesOnOp :
    Obligations.DecodeSplitsTheWordAndDispatchesOnOp := by
  refine ⟨fun w => instrOfOp_fields _ _ _, fun w w' hop => ?_⟩
  have hw : (decode w).op = opOf w' := (instrOfOp_fields _ _ _).1.trans hop
  rw [withFields_eq, hw]
  rfl

/-- Settles O1, by evaluating the decoder on the 26 words. -/
theorem specWordsDecodeAsListed : Obligations.SpecWordsDecodeAsListed := by
  unfold Obligations.SpecWordsDecodeAsListed
  decide

/-! ### The assembler -/

theorem argField_toNat {bound n : Nat} {a : Byte} (hb : bound ≤ 256) (h : argField bound n = some a) :
    a.toNat < bound := by
  unfold argField at h
  split at h <;> cases h
  rw [BitVec.toNat_ofNat]
  omega

/-- The immediate of an offset in range: its pattern in bits 6:0, bit 7 clear (R110). -/
theorem offsetField_spec {n : Int} (h : -64 ≤ n ∧ n ≤ 63) :
    ∃ a, offsetField n = some a ∧ offsetSigned (valueOf a) = n ∧ a.toNat < 128 := by
  obtain ⟨hlo, hhi⟩ := h
  interval_cases n <;> exact ⟨_, rfl, by decide, by decide⟩

theorem offsetField_eq_none {n : Int} (h : ¬(-64 ≤ n ∧ n ≤ 63)) : offsetField n = none :=
  if_neg h

theorem offsetField_toNat {n : Int} {a : Byte} (h : offsetField n = some a) : a.toNat < 128 := by
  by_cases hn : -64 ≤ n ∧ n ≤ 63
  · obtain ⟨b, hb, -, hlt⟩ := offsetField_spec hn
    cases hb.symm.trans h
    exact hlt
  · cases (offsetField_eq_none hn).symm.trans h

/-- What the assembler accepts has every ignored field 0 (R109, R110). -/
theorem assemble_assembled {l : AsmLine} {i : Instr} {o : Operand} (h : assemble l = some (i, o)) :
    i.assembled = true := by
  cases l with
  | setAlarm ch ticks =>
    simp only [assemble, Option.bind_eq_some_iff, Option.map_eq_some_iff, Prod.mk.injEq] at h
    obtain ⟨c, -, a, -, rfl, -⟩ := h
    rfl
  | cancelAlarm ch =>
    simp only [assemble, Option.map_eq_some_iff, Prod.mk.injEq] at h
    obtain ⟨c, -, rfl, -⟩ := h
    rfl
  | setOffsetMode mode =>
    simp only [assemble, Option.map_eq_some_iff, Prod.mk.injEq] at h
    obtain ⟨a, ha, rfl, -⟩ := h
    simpa [Instr.assembled] using argField_toNat (by decide) ha
  | setOffsetValue n =>
    simp only [assemble, Option.map_eq_some_iff, Prod.mk.injEq] at h
    obtain ⟨a, ha, rfl, -⟩ := h
    simpa [Instr.assembled] using offsetField_toNat ha
  | setCapSelect sel =>
    simp only [assemble, Option.map_eq_some_iff, Prod.mk.injEq] at h
    obtain ⟨a, ha, rfl, -⟩ := h
    simpa [Instr.assembled] using argField_toNat (by decide) ha
  | _ => cases h; rfl

/-- Settles O5: by the forms of a line; the offset's pattern by the 128 values in range. -/
theorem assembledLinesAreCanonicalWords : Obligations.AssembledLinesAreCanonicalWords := by
  refine ⟨fun l i o => assemble_assembled, fun n => ?_⟩
  split
  next hn =>
    obtain ⟨a, ha, hsigned, hlt⟩ := offsetField_spec hn
    exact ⟨a, by simp [assemble, ha], hsigned, hlt⟩
  next hn => simp [assemble, offsetField_eq_none hn]

/-! ### The fields without effect -/

/-- Settles O6: every meaning takes the channel and does not use it. -/
theorem channelFieldHasNoEffect : Obligations.ChannelFieldHasNoEffect := by
  intro i c s
  cases i <;> rfl

theorem modeOf_and_one : ∀ a : Byte, modeOf (a &&& 0x01) = modeOf a := by decide

theorem selOf_and_one : ∀ a : Byte, selOf (a &&& 0x01) = selOf a := by decide

theorem valueOf_and_7F : ∀ a : Byte, valueOf (a &&& 0x7F) = valueOf a := by decide

/-- A command reads the operand bits of its immediate and no others (R103). -/
theorem stepsOf_and_argMask (i : Instr) :
    stepsOf (withFields i i.chan (i.arg &&& argMask i)) = stepsOf i := by
  cases i with
  | setAlarm c a => simp only [withFields, stepsOf, argMask, Instr.arg, and_FF]
  | setOffsetMode c a => simp only [withFields, stepsOf, argMask, Instr.arg, modeOf_and_one]
  | setOffsetValue c a => simp only [withFields, stepsOf, argMask, Instr.arg, valueOf_and_7F]
  | setCapSelect c a => simp only [withFields, stepsOf, argMask, Instr.arg, selOf_and_one]
  | _ => rfl

/-- A command is its operand bits (R103, R105). -/
theorem exec_and_argMask (i : Instr) (s : State) :
    exec (withFields i i.chan (i.arg &&& argMask i)) s = exec i s := by
  rw [exec_eq, exec_eq, stepsOf_and_argMask]
  cases i <;> rfl

/-- Settles O7: both commands are the command of the common operand bits. -/
theorem ignoredArgBitsHaveNoEffect : Obligations.IgnoredArgBitsHaveNoEffect := by
  intro i a s ha
  rw [← exec_and_argMask i s, ← ha, ← exec_and_argMask (withFields i i.chan a) s]
  cases i <;> rfl

end Sys2Proof.Machine
end

