-- ==== Sys2Proof/Proofs/Records.lean ====
section
/-! The obligation of the packed records (30_encoding.md R108). -/

namespace Sys2Proof

theorem CalendarTime.ext {t u : CalendarTime} (hsecond : t.second = u.second)
    (hminute : t.minute = u.minute) (hhour : t.hour = u.hour) (hmday : t.mday = u.mday)
    (hweekday : t.weekday = u.weekday) (hmonth : t.month = u.month) (hyear : t.year = u.year)
    (hyday : t.yday = u.yday) (hisdst : t.isdst = u.isdst) : t = u := by
  cases t; cases u; simp_all

/-- Each field of a packed CalendarTime stands at its place (R108). -/
theorem CalendarTime.unpack_pack (t : CalendarTime) : CalendarTime.unpack t.pack = t := by
  have hsecond := t.second.isLt
  have hminute := t.minute.isLt
  have hhour := t.hour.isLt
  have hmday := t.mday.isLt
  have hweekday := t.weekday.isLt
  have hmonth := t.month.isLt
  have hyear := t.year.isLt
  have hyday := t.yday.isLt
  have hisdst := t.isdst.toNat_le
  apply CalendarTime.ext
  case hisdst =>
    simp only [CalendarTime.unpack, getLsbD_top, toNat_pack]
    cases t.isdst <;> simp <;> omega
  all_goals
    apply BitVec.eq_of_toNat_eq
    simp only [CalendarTime.unpack, toNat_extract_eq, toNat_pack]
    omega

/-- No bit of a packed CalendarTime is dropped (R108). -/
theorem CalendarTime.pack_unpack (v : BitVec 67) : (CalendarTime.unpack v).pack = v := by
  have hv := v.isLt
  have htop : (v.getLsbD 66).toNat = v.toNat / 2 ^ 66 := by
    obtain h | h : v.toNat / 2 ^ 66 = 0 ∨ v.toNat / 2 ^ 66 = 1 := by omega
    · rw [getLsbD_top, h]; rfl
    · rw [getLsbD_top, h]; rfl
  apply BitVec.eq_of_toNat_eq
  simp only [toNat_pack, CalendarTime.unpack, toNat_extract_eq, htop]
  omega

/-- Each byte of a packed RawTimeBlock stands at its place (R108). -/
theorem RawTimeBlock.unpack_pack (b : RawTimeBlock) : RawTimeBlock.unpack b.pack = b := by
  have hseconds := b.seconds.isLt
  have hminutes := b.minutes.isLt
  have hhours := b.hours.isLt
  have hdays := b.days.isLt
  have hweekdays := b.weekdays.isLt
  have hmonths := b.months.isLt
  have hyears := b.years.isLt
  have hpack := b.toNat_pack
  obtain ⟨seconds, minutes, hours, days, weekdays, months, years⟩ := b
  simp only [RawTimeBlock.unpack, RawTimeBlock.mk.injEq]
  refine ⟨?_, ?_, ?_, ?_, ?_, ?_, ?_⟩ <;>
    (apply BitVec.eq_of_toNat_eq
     simp only [toNat_extract_eq, hpack]
     omega)

/-- No bit of a packed RawTimeBlock is dropped (R108). -/
theorem RawTimeBlock.pack_unpack (v : BitVec 56) : (RawTimeBlock.unpack v).pack = v := by
  have hv := v.isLt
  apply BitVec.eq_of_toNat_eq
  simp only [toNat_pack, RawTimeBlock.unpack, toNat_extract_eq]
  omega

/-- Settles O4: unpacking is defined by the places of the fields, so its round trip says each place. -/
theorem Machine.packedRecordsRoundTrip : Obligations.PackedRecordsRoundTrip := by
  refine ⟨fun t => ?_, CalendarTime.pack_unpack, fun b => ?_, RawTimeBlock.pack_unpack⟩
  · have h := t.unpack_pack
    exact ⟨h, congrArg (·.second) h, congrArg (·.minute) h, congrArg (·.hour) h,
      congrArg (·.mday) h, congrArg (·.weekday) h, congrArg (·.month) h, congrArg (·.year) h,
      congrArg (·.yday) h, congrArg (·.isdst) h⟩
  · have h := b.unpack_pack
    exact ⟨h, congrArg (·.seconds) h, congrArg (·.minutes) h, congrArg (·.hours) h,
      congrArg (·.days) h, congrArg (·.weekdays) h, congrArg (·.months) h,
      congrArg (·.years) h⟩

end Sys2Proof
end

