-- ==== Sys2Proof/Proofs/CodecRules.lean ====
section
/-! SUPPORT. The rules of the codec the obligations turn on (40_codec.md): the calendar, each field of
what DECODE computes, the valid ranges, and the ends of the two commands. -/

namespace Sys2Proof

theorem CalendarTime.valid_iff (t : CalendarTime) : t.valid = true ↔
    t.second.toNat ≤ 59 ∧ t.minute.toNat ≤ 59 ∧ t.hour.toNat ≤ 23 ∧ 1 ≤ t.mday.toNat ∧
    t.mday.toNat ≤ 31 ∧ t.weekday.toNat ≤ 6 ∧ 1 ≤ t.month.toNat ∧ t.month.toNat ≤ 12 ∧
    100 ≤ t.year.toNat ∧ t.year.toNat ≤ 199 := by
  simp [CalendarTime.valid, and_assoc]

theorem RawTimeBlock.validContents_iff (b : RawTimeBlock) : b.validContents = true ↔
    bcdWithin 0 59 b.seconds = true ∧ bcdWithin 0 59 b.minutes = true ∧
    bcdWithin 0 23 b.hours = true ∧ bcdWithin 1 31 b.days = true ∧ b.weekdays.toNat ≤ 6 ∧
    bcdWithin 1 12 b.months = true ∧ bcdWithin 0 99 b.years = true := by
  simp [RawTimeBlock.validContents, and_assoc]

end Sys2Proof

namespace Sys2Proof.Machine

/-! ### The calendar -/

theorem isLeap_iff (y : Nat) : isLeap y = true ↔ (y % 4 = 0 ∧ y % 100 ≠ 0) ∨ y % 400 = 0 := by
  simp [isLeap]

/-- February is the only month the leap year reaches (R133). -/
theorem monthDays_eq (y m : Nat) :
    monthDays y m = if m = 2 then if isLeap y then 29 else 28
      else if m = 4 ∨ m = 6 ∨ m = 9 ∨ m = 11 then 30 else 31 := by
  simp only [monthDays, isLeap_iff]

/-- An entry of the tables of R134 is the sum of the month lengths before it. -/
theorem cumulativeDays_eq {y m : Nat} (h1 : 1 ≤ m) (h12 : m ≤ 12) :
    (if isLeap y then cumLeap else cumCommon).getD (m - 1) 0 =
      ((List.range (m - 1)).map fun k => monthDays y (k + 1)).sum := by
  simp only [monthDays_eq]
  generalize isLeap y = leap
  interval_cases m <;> cases leap <;> rfl

theorem dayOfYear_eq_calendarYday {y m : Nat} (d : Nat) (h1 : 1 ≤ m) (h12 : m ≤ 12) :
    dayOfYear y m d = calendarYday y m d := by
  rw [dayOfYear, calendarYday, cumulativeDays_eq h1 h12]

theorem dayOfYear_march_first (y : Nat) : dayOfYear y 3 1 = if isLeap y then 60 else 59 := by
  unfold dayOfYear
  cases isLeap y <;> rfl

theorem calendarYday_le {y m d : Nat} (h1 : 1 ≤ m) (h12 : m ≤ 12) :
    calendarYday y m d ≤ 335 + (d - 1) := by
  rw [calendarYday, ← cumulativeDays_eq h1 h12]
  generalize isLeap y = leap
  interval_cases m <;> cases leap <;> simp [cumLeap, cumCommon]

/-! ### The fields of a decoded block -/

theorem toNat_ofNat_digits (b : Byte) : (BitVec.ofNat 8 (digitsOf b)).toNat = digitsOf b := by
  have := digitsOf_le b
  rw [BitVec.toNat_ofNat]
  omega

/-- Every field of the CalendarTime but `yday`, as a number (R137, R143, R144). -/
theorem calendarOf_fields {b : RawTimeBlock} (hos : b.seconds.getLsbD 7 = false) (free : BitVec 9) :
    let c := calendarOf b free
    c.second.toNat = digitsOf b.seconds ∧ c.minute.toNat = digitsOf b.minutes ∧
    c.hour.toNat = digitsOf b.hours ∧ c.mday.toNat = digitsOf b.days ∧
    c.weekday.toNat = b.weekdays.toNat % 8 ∧ c.month.toNat = digitsOf b.months ∧
    c.year.toNat = digitsOf b.years + 100 ∧ c.isdst = false := by
  have hyears := digitsOf_le b.years
  simp only [calendarOf, mdayOf, monthOf, bcdUnpackSec_eq _ hos, bcdUnpack_eq, toNat_ofNat_digits,
    toNat_and_weekdayMask, true_and, and_true]
  rw [BitVec.toNat_ofNat]
  omega

/-- `yday` where the spec states it: the day of the year (R135). -/
theorem calendarOf_yday {b : RawTimeBlock} (h : blockYdayDefined b = true) (free : BitVec 9) :
    (calendarOf b free).yday = BitVec.ofNat 9
      (calendarYday (2000 + digitsOf b.years) (digitsOf b.months) (digitsOf b.days)) := by
  obtain ⟨h1, h12, -⟩ := (ydayDefined_iff b).1 h
  simp only [calendarOf, h, if_true, gregorianOf, monthOf, mdayOf, bcdUnpack_eq,
    dayOfYear_eq_calendarYday _ h1 h12]

/-- The day of the year of a decoded block fits its nine bits. -/
theorem calendarOf_yday_toNat {b : RawTimeBlock} (h : blockYdayDefined b = true) (free : BitVec 9) :
    (calendarOf b free).yday.toNat =
      calendarYday (2000 + digitsOf b.years) (digitsOf b.months) (digitsOf b.days) := by
  obtain ⟨h1, h12, -⟩ := (ydayDefined_iff b).1 h
  have hdays := digitsOf_le b.days
  have hle : calendarYday (2000 + digitsOf b.years) (digitsOf b.months) (digitsOf b.days) ≤ _ :=
    calendarYday_le h1 h12
  rw [calendarOf_yday h, BitVec.toNat_ofNat]
  omega

/-- `yday` where the spec leaves it unspecified is the free value (log 6). -/
theorem calendarOf_yday_free {b : RawTimeBlock} (h : blockYdayDefined b = false) (free : BitVec 9) :
    (calendarOf b free).yday = free := by
  simp [calendarOf, h]

/-! ### The valid ranges -/

/-- A valid seconds byte has its integrity bit clear (R31). -/
theorem getLsbD_seven_of_seconds : ∀ b : Byte, bcdWithin 0 59 b = true → b.getLsbD 7 = false := by
  decide

theorem and_weekdayMask_of_le : ∀ b : Byte, b.toNat ≤ 6 → b &&& weekdayMask = b := by decide

/-- A seconds byte under its mask has its integrity bit clear (R138). -/
theorem getLsbD_seven_and_secondsMask : ∀ b : Byte, (b &&& secondsMask).getLsbD 7 = false := by
  decide

theorem toNat_lt_of_getLsbD_seven : ∀ b : Byte, b.getLsbD 7 = false → b.toNat < 128 := by decide

/-- An encoded block has its integrity bit clear (R136, R138). -/
theorem getLsbD_seven_encodeTime (t : CalendarTime) : (encodeTime t).seconds.getLsbD 7 = false :=
  getLsbD_seven_and_secondsMask (bcdPack t.second.toNat)

/-- The masks of ENCODE do not reach a valid time (R138, R141). -/
theorem encodeTime_of_valid {t : CalendarTime} (h : t.valid = true) :
    encodeTime t = ⟨bcdPack t.second.toNat, bcdPack t.minute.toNat, bcdPack t.hour.toNat,
      bcdPack t.mday.toNat, t.weekday, bcdPack t.month.toNat, bcdPack (t.year.toNat - 100)⟩ := by
  obtain ⟨hsec, hmin, hhour, -, hmday, hweek, -, hmonth, hylo, hyhi⟩ := t.valid_iff.1 h
  rw [encodeTime, show t.year.toNat % 100 = t.year.toNat - 100 by omega]
  exact RawTimeBlock.mk.injEq .. |>.mpr ⟨bcdPack_and_7F hsec, bcdPack_and_7F hmin,
    bcdPack_and_3F (by omega), bcdPack_and_3F hmday, and_weekdayMask_of_le _ hweek,
    bcdPack_and_1F hmonth, and_FF _⟩

/-! ### The round trip (R141) -/

theorem blockYdayDefined_encodeTime {t : CalendarTime} (h : t.valid = true) :
    blockYdayDefined (encodeTime t) = true := by
  obtain ⟨-, -, -, hmday1, hmday, -, hmonth1, hmonth, -, -⟩ := t.valid_iff.1 h
  rw [ydayDefined_iff, encodeTime_of_valid h]
  simp only [digitsOf_bcdPack (show t.month.toNat ≤ 99 by omega),
    digitsOf_bcdPack (show t.mday.toNat ≤ 99 by omega)]
  exact ⟨hmonth1, hmonth, hmday1⟩

/-- A valid time comes back from its block, with the calendar's `yday` and `isdst` 0. -/
theorem calendarOf_encodeTime {t : CalendarTime} (h : t.valid = true) (free : BitVec 9) :
    calendarOf (encodeTime t) free = { t with
      isdst := false,
      yday := BitVec.ofNat 9
        (calendarYday (1900 + t.year.toNat) t.month.toNat t.mday.toNat) } := by
  obtain ⟨hsec, hmin, hhour, -, hmday, hweek, -, hmonth, hylo, hyhi⟩ := t.valid_iff.1 h
  have hyday := calendarOf_yday (blockYdayDefined_encodeTime h) free
  obtain ⟨c1, c2, c3, c4, c5, c6, c7, c8⟩ := calendarOf_fields (getLsbD_seven_encodeTime t) free
  have hyear := digitsOf_bcdPack (show t.year.toNat - 100 ≤ 99 by omega)
  rw [encodeTime_of_valid h] at *
  simp only [digitsOf_bcdPack (show t.second.toNat ≤ 99 by omega),
    digitsOf_bcdPack (show t.minute.toNat ≤ 99 by omega),
    digitsOf_bcdPack (show t.hour.toNat ≤ 99 by omega),
    digitsOf_bcdPack (show t.mday.toNat ≤ 99 by omega),
    digitsOf_bcdPack (show t.month.toNat ≤ 99 by omega), hyear] at *
  rw [show 2000 + (t.year.toNat - 100) = 1900 + t.year.toNat by omega] at hyday
  apply CalendarTime.ext
  case hyday => exact hyday
  case hisdst => exact c8
  all_goals
    apply BitVec.eq_of_toNat_eq
    simp only [*]
  · omega
  · omega

/-- A block of valid contents decodes to a valid time, and comes back from it. -/
theorem encodeTime_calendarOf {b : RawTimeBlock} (h : b.validContents = true) (free : BitVec 9) :
    (calendarOf b free).valid = true ∧ encodeTime (calendarOf b free) = b := by
  obtain ⟨hsec, hmin, hhour, hday, hweek, hmonth, hyear⟩ := b.validContents_iff.1 h
  obtain ⟨c1, c2, c3, c4, c5, c6, c7, -⟩ :=
    calendarOf_fields (getLsbD_seven_of_seconds _ hsec) free
  obtain ⟨bsec, -, dsec⟩ := bcdWithin_digits hsec (by decide)
  obtain ⟨bmin, -, dmin⟩ := bcdWithin_digits hmin (by decide)
  obtain ⟨bhour, -, dhour⟩ := bcdWithin_digits hhour (by decide)
  obtain ⟨bday, dday1, dday⟩ := bcdWithin_digits hday (by decide)
  obtain ⟨bmonth, dmonth1, dmonth⟩ := bcdWithin_digits hmonth (by decide)
  obtain ⟨byear, -, dyear⟩ := bcdWithin_digits hyear (by decide)
  have hvalid : (calendarOf b free).valid = true := by
    rw [CalendarTime.valid_iff]
    omega
  refine ⟨hvalid, ?_⟩
  have hw : (calendarOf b free).weekday = b.weekdays := and_weekdayMask_of_le _ hweek
  rw [encodeTime_of_valid hvalid, c1, c2, c3, c4, c6, c7, hw, Nat.add_sub_cancel,
    bcdPack_digitsOf _ bsec, bcdPack_digitsOf _ bmin, bcdPack_digitsOf _ bhour,
    bcdPack_digitsOf _ bday, bcdPack_digitsOf _ bmonth, bcdPack_digitsOf _ byear]

/-! ### The ends of the two commands -/

/-- Raising at once is the end of a command that issued nothing. -/
theorem raise_endsWith (k : ErrorKind) (s : State) : s.endsWith (raise k s) (.error k) [] :=
  ⟨⟨raise_atRest k s, raise_busReady k s, raise_inputs k s⟩, raise_rsp k s,
    (raise_trace k s).trans (List.append_nil s.trace).symm,
    (raise_slots k s).trans List.drop_zero.symm, raise_draws k s⟩

theorem exec_encode (chan : BitVec 4) (arg : Byte) {s : State} (hc : s.cut = none) :
    exec (.encode chan arg) s = .next (respondOk (.block (encodeTime s.opnd.time)) s) :=
  exec_noSteps rfl hc

theorem exec_decode (chan : BitVec 4) (arg : Byte) {s : State} (hc : s.cut = none) :
    exec (.decode chan arg) s = .next (respondDecoded s.opnd.block s) :=
  exec_noSteps rfl hc

/-- Lost integrity is refused before anything else is looked at (R139). -/
theorem respondDecoded_of_lost {b : RawTimeBlock} (h : b.seconds.getLsbD 7 = true) (s : State) :
    respondDecoded b s = raise .integrityError s := by
  rw [respondDecoded, osOf_eq, h]; rfl

/-- Where the spec states `yday`, no value is drawn (R135). -/
theorem respondDecoded_of_defined {b : RawTimeBlock} (hos : b.seconds.getLsbD 7 = false)
    (hy : blockYdayDefined b = true) (s : State) :
    respondDecoded b s = respondOk (.time (calendarOf b 0)) s := by
  rw [respondDecoded, osOf_eq, hos, hy]; rfl

/-- Where the spec leaves `yday` unspecified, one value is drawn (log 6). -/
theorem respondDecoded_of_undefined {b : RawTimeBlock} (hos : b.seconds.getLsbD 7 = false)
    (hy : blockYdayDefined b = false) (s : State) :
    respondDecoded b s =
      respondOk (.time (calendarOf b (Config.freeYday s.draws))) { s with draws := s.draws + 1 } := by
  rw [respondDecoded, osOf_eq, hos, hy]; rfl

end Sys2Proof.Machine
end

