-- ==== Sys2Proof/Proofs/Codec.lean ====
section
/-! The obligations of the Register Codec (40_codec.md). -/

namespace Sys2Proof.Machine

/-- Settles O8: ENCODE has no steps and responds with `encodeTime` of its operand; each byte is a
packed field under its mask. -/
theorem encodeAnswersPackedFields : Obligations.EncodeAnswersPackedFields := by
  intro chan arg s hc
  refine ⟨_, encodeTime s.opnd.time, exec_encode chan arg hc, respondOk_endsWith _ s,
    respondOk_mem _ s, ?_⟩
  simp only [← bcdPack_eq]
  refine ⟨rfl, rfl, rfl, rfl, toNat_and_weekdayMask _, rfl, and_FF _,
    toNat_lt_of_getLsbD_seven _ (getLsbD_seven_encodeTime _)⟩

/-- Settles O9: the word by its operation number; lost integrity is refused first; a block that is
decoded answers `calendarOf`, whose fields are the formulas, `yday` drawn only where it is undefined. -/
theorem decodeComputesEveryFieldOrRefuses : Obligations.DecodeComputesEveryFieldOrRefuses := by
  refine ⟨fun w hw => decode_of_op hw, fun chan arg s hc => ⟨fun hos => ?_, fun hos => ?_⟩⟩
  · exact ⟨_, exec_decode chan arg hc, by
      rw [respondDecoded_of_lost hos]
      exact ⟨raise_endsWith _ s, raise_mem _ s⟩⟩
  · obtain ⟨hrest, hmem, hready, hinputs, hslots, htrace⟩ := respondDecoded_keeps s.opnd.block s
    obtain ⟨c, hrsp, hfields, hyday⟩ : ∃ c, (respondDecoded s.opnd.block s).rsp = some (.ok (.time c)) ∧
        (∃ free, c = calendarOf s.opnd.block free) ∧
        (blockYdayDefined s.opnd.block = true →
          (respondDecoded s.opnd.block s).draws = s.draws) := by
      cases hy : blockYdayDefined s.opnd.block with
      | true => exact ⟨_, by rw [respondDecoded_of_defined hos hy]; rfl, ⟨_, rfl⟩,
          fun _ => by rw [respondDecoded_of_defined hos hy]; rfl⟩
      | false => exact ⟨_, by rw [respondDecoded_of_undefined hos hy]; rfl, ⟨_, rfl⟩, nofun⟩
    obtain ⟨free, rfl⟩ := hfields
    obtain ⟨c1, c2, c3, c4, c5, c6, c7, c8⟩ := calendarOf_fields hos free
    refine ⟨_, _, exec_decode chan arg hc, hrsp, ⟨hrest, hready, hinputs⟩, hmem, htrace, hslots,
      c1, c2, c3, c4, c5, c6, c7, c8, fun hvalid => ?_⟩
    have hy := (ydayDefined_iff s.opnd.block).2 hvalid
    exact ⟨calendarOf_yday_toNat hy free, hyday hy⟩

/-- Settles O10: an invalid month or day leaves `yday` undefined, and the free value is drawn. -/
theorem decodeDrawsAFreeYday : Obligations.DecodeDrawsAFreeYday := by
  intro chan arg s hc hos hinvalid
  have hy : blockYdayDefined s.opnd.block = false := by
    rw [Bool.eq_false_iff, Ne, ydayDefined_iff]
    omega
  exact ⟨_, _, exec_decode chan arg hc, by rw [respondDecoded_of_undefined hos hy]; rfl,
    calendarOf_yday_free hy _, by rw [respondDecoded_of_undefined hos hy]; rfl⟩

/-- Settles O11: `calendarOf` and `encodeTime` are inverse on valid times and valid contents, and
neither refuses them nor draws. -/
theorem roundTripOfValidTimes : Obligations.RoundTripOfValidTimes := by
  constructor
  · intro s s' ch ch' a a' hc hc' hvalid
    refine ⟨_, _, exec_encode ch a hc, respondOk_rsp _ s,
      fun hb => ⟨_, exec_decode ch' a' hc', ?_⟩⟩
    rw [hb, respondDecoded_of_defined (getLsbD_seven_encodeTime _)
      (blockYdayDefined_encodeTime hvalid), calendarOf_encodeTime hvalid, respondOk_rsp]
  · intro s s' ch ch' a a' hc hc' hvalid
    obtain ⟨hcal, henc⟩ := encodeTime_calendarOf hvalid 0
    obtain ⟨hsec, -, -, hday, -, hmonth, -⟩ := s.opnd.block.validContents_iff.1 hvalid
    obtain ⟨-, hday1, -⟩ := bcdWithin_digits hday (by decide)
    obtain ⟨-, hmonth1, hmonth12⟩ := bcdWithin_digits hmonth (by decide)
    have hy := (ydayDefined_iff s.opnd.block).2 ⟨hmonth1, hmonth12, hday1⟩
    refine ⟨_, calendarOf s.opnd.block 0, exec_decode ch a hc, by
      rw [respondDecoded_of_defined (getLsbD_seven_of_seconds _ hsec) hy]; rfl, hcal,
      fun ht => ⟨_, exec_encode ch' a' hc', ?_⟩⟩
    rw [ht, henc, respondOk_rsp]

/-- Settles O12: each table entry is the sum of the month lengths before it. -/
theorem dayOfYearCountsCalendarDays : Obligations.DayOfYearCountsCalendarDays := by
  refine ⟨fun y m d h1 h12 _ => dayOfYear_eq_calendarYday d h1 h12, fun y => ?_⟩
  simp only [dayOfYear_march_first, isLeap_iff]

/-- Settles O59: ENCODE responds with a function of its operand, and so does DECODE where it refuses
or where it draws nothing. -/
theorem codecIsPure : Obligations.CodecIsPure := by
  intro s s' t t' ch ch' a a' hop hc hc'
  constructor
  · intro ht ht'
    cases (exec_encode ch a hc).symm.trans ht
    cases (exec_encode ch' a' hc').symm.trans ht'
    rw [hop]
    rfl
  · intro ht ht' hdefined
    cases (exec_decode ch a hc).symm.trans ht
    cases (exec_decode ch' a' hc').symm.trans ht'
    rw [← hop]
    cases hos : s.opnd.block.seconds.getLsbD 7 with
    | true => rw [respondDecoded_of_lost hos, respondDecoded_of_lost hos]; rfl
    | false =>
      have hy := (ydayDefined_iff s.opnd.block).2 (hdefined.resolve_right (by rw [hos]; decide))
      rw [respondDecoded_of_defined hos hy, respondDecoded_of_defined hos hy]; rfl

end Sys2Proof.Machine
end

