-- ==== Sys2Proof/Proofs/Step.lean ====
section
/-! The obligations of the step itself (10_state.md R46, R50 to R52, 60_exceptions.md R216). -/

namespace Sys2Proof.Machine

/-! ### The branches of a step -/

theorem step_busy {s : State} (h : s.busy = true) : step s = exec (decode s.cmd) s := by
  rw [step, if_pos h]

theorem step_idle {s : State} (hb : s.busy = false) (hi : s.inputs = []) : step s = .next s := by
  simp [step, hb, hi]

theorem step_command {s : State} {w : CmdWord} {o : Operand} {rest : List Input}
    (hb : s.busy = false) (hi : s.inputs = .command w o :: rest) :
    step s = exec (decode w) (accept w o { s with inputs := rest }) := by
  simp [step, hb, hi]

theorem step_commandCut {s : State} {w : CmdWord} {o : Operand} {n : Nat} {rest : List Input}
    (hb : s.busy = false) (hi : s.inputs = .commandCut w o n :: rest) :
    step s = exec (decode w) ((accept w o { s with inputs := rest }).cutAt n) := by
  simp [step, hb, hi]

theorem step_env {s : State} {e : EnvEvent} {rest : List Input} (hb : s.busy = false)
    (hi : s.inputs = .env e :: rest) : step s = takeEvent e { s with inputs := rest } := by
  simp [step, hb, hi]

theorem step_blockReset {s : State} {rest : List Input} (hb : s.busy = false)
    (hi : s.inputs = .blockReset :: rest) :
    step s = .next (blockReset { s with inputs := rest }) := by
  simp [step, hb, hi]

theorem takeEvent_of_apply {e : EnvEvent} {s u : State} (h : e.apply s = some u) :
    takeEvent e s = .next u := by
  simp [takeEvent, h]

/-! ### Power events -/

theorem powerUp_eq (contents : Vector Byte 18) (m : Memory) :
    powerUp contents m = (m.storeBytes 0 contents.toList).set 0x04
      ((m.storeBytes 0 contents.toList).get 0x04 ||| 0x80) := rfl

/-- A power event leaves the given contents with `OS` set (R51, R229). -/
theorem get_powerUp (contents : Vector Byte 18) (m : Memory) (x : Nat) (h : x < 18) :
    (powerUp contents m).get x = if x = 0x04 then contents[x] ||| 0x80 else contents[x] := by
  have hstored : ∀ y (hy : y < 18), (m.storeBytes 0 contents.toList).get y = contents[y] := by
    intro y hy
    rw [Memory.get_storeBytes, if_pos (by simpa using hy)]
    simp [List.getD_eq_getElem?_getD, hy]
  rw [powerUp_eq, Memory.get_set, hstored x h]
  split
  next hx => subst hx; rw [hstored _ h]
  next hx => rfl

theorem osOf_or_secOS : ∀ b : Byte, osOf (b ||| 0x80) = true := by decide

theorem osOf_powerUp (contents : Vector Byte 18) (m : Memory) :
    osOf ((powerUp contents m).get 0x04) = true := by
  rw [get_powerUp contents m 0x04 (by decide), if_pos rfl]
  exact osOf_or_secOS _

/-! ### The obligations -/

/-- Settles O37, by the branches of a step; presenting a word leaves an idle block that accepts it. -/
theorem stepRunsTheDecodedCommand : Obligations.StepRunsTheDecodedCommand := by
  refine ⟨?_, ?_, fun s hb => step_busy hb, fun s w hw _ => ?_⟩
  · rintro s w o rest i hb hi rfl -
    exact step_command hb hi
  · rintro s w o n rest i hb hi rfl -
    exact step_commandCut hb hi
  · have hpresent : s.withFetchWord 16 w = presentCommand (BitVec.ofNat 16 w) s := by
      rw [State.withFetchWord, Nat.mod_eq_of_lt hw]
    rw [hpresent, step_command (rest := s.inputs) rfl rfl]
    rfl

/-- Settles O38, by the branches of a step: an event is the model's `apply`, which touches the
registers and `BUS_READY` of an idle block and nothing else. -/
theorem idleBlockWaitsAndResets : Obligations.IdleBlockWaitsAndResets := by
  intro s hb hf
  have hidle : ∀ {z : Option InFlight}, z = none → z.map InFlight.losePower = s.inFlight := by
    rintro _ rfl; exact hf.symm
  refine ⟨step_idle hb, fun rest hi => ?_, fun e rest hi he => ?_, fun b rest hi => ?_,
    fun contents rest hi => ?_⟩
  · exact ⟨_, step_blockReset hb hi, ⟨rfl, rfl, rfl, rfl, rfl, rfl, rfl, rfl⟩, rfl, rfl, rfl, rfl,
      rfl, rfl, rfl⟩
  · obtain ⟨u, hu⟩ := EnvEvent.apply_isSome he { s with inputs := rest }
    refine ⟨u, hu, (step_env hb hi).trans (takeEvent_of_apply hu), ?_⟩
    have hkeep := EnvEvent.apply_eq hu
    have hflight : u.inFlight = s.inFlight := by
      rw [EnvEvent.apply_inFlight hu]
      split
      · exact hidle hf
      · rfl
    rw [hflight] at hkeep
    exact hkeep
  · rw [step_env hb hi]
    rfl
  · refine ⟨_, (step_env hb hi).trans (takeEvent_of_apply rfl), ?_, osOf_powerUp _ _,
      get_powerUp contents s.mem⟩
    simp only [hidle hf]

/-- Settles O41, by evaluating the reset state. -/
theorem resetIsIdleWithLostIntegrity : Obligations.ResetIsIdleWithLostIntegrity :=
  ⟨⟨rfl, rfl, rfl, rfl, rfl, rfl, rfl, rfl⟩, rfl, rfl, rfl, step_idle rfl rfl⟩

/-- Settles O42: at reset nothing is answered, issued or in flight, and no register differs from the
power-on value. -/
theorem resetSatisfiesInvariant : Obligations.ResetSatisfiesInvariant where
  memory := rfl
  idleDead _ := ⟨rfl, rfl, rfl, rfl, rfl, rfl, rfl, rfl⟩
  noEarlyResponse := nofun
  position := nofun
  issuedShort := Nat.zero_le 5
  issuedIssuable := nofun
  inFlightAtPosition := nofun
  busyTraceOk := nofun
  okTraceOk := nofun
  ioErrorFailed := nofun
  otherErrorOk := nofun
  notReadyNoTxn := nofun

/-- A step that raises moves the script by one slot at most. -/
theorem CmdStep.raised_slots {c : CmdStep} {s u : State} {k : ErrorKind}
    (h : c.perform s = .raised k u) : u.slots = s.slots ∨ u.slots = s.slots.tail := by
  cases hc : c.txn s with
  | none =>
    cases c <;> simp only [CmdStep.txn, reduceCtorEq] at hc
    obtain ⟨-, t, ht⟩ | ⟨-, -, rfl⟩ := CmdStep.raised_kind h
    · cases ht
    · exact .inl rfl
  | some t =>
    rw [perform_eq hc, transact] at h
    split at h
    · split at h
      · cases h
      · rename_i s1 he
        have hs1 : s1.slots = s.slots.tail := by rw [applyEvents_eq he]
        unfold settle at h
        split at h <;> cases h
        exact .inr hs1
    · cases h

/-- Settles O46: the sequencer answers with `raise` of the state the failing step left. -/
theorem raisingEndsTheCommand : Obligations.RaisingEndsTheCommand := by
  intro finish c rest s u k hcut h
  obtain ⟨-, -, -, -, -, hinputs, hdraws, -⟩ :=
    CmdStep.perform_keeps (c := c) (s := s) (s' := u) (by rw [h]; rfl)
  have hslots := CmdStep.raised_slots h
  refine ⟨raise k u, ?_, raise_atRest k u, rfl, rfl, rfl, rfl, rfl, hinputs, hdraws, hslots⟩
  simp [runSteps, hcut, h]

end Sys2Proof.Machine
end

