-- ==== Sys2Proof/Proofs/RunRules.lean ====
section
/-! SUPPORT. What a run of a command can do, from any state and from its first step: it stays in the
register map, it goes on while other agents do, its transactions are those of the access matrix in
order, and the ways it can end. -/

namespace Sys2Proof.Machine

/-! ### No stop -/

/-- No step of a command leaves the register map (R69). -/
theorem perform_ne_outsideMap {i : Instr} {c : CmdStep} (hc : c ∈ stepsOf i) (s : State) :
    c.perform s ≠ .outsideMap := by
  rcases perform_cases hc s with ⟨-, ⟨-, h⟩ | ⟨-, h⟩⟩ | ⟨t, -, -, ⟨-, h⟩ | ⟨s1, -, h⟩⟩ <;> rw [h]
  case inr.inr => unfold settle; split <;> nofun
  all_goals nofun

theorem runSteps_ne_fault {i : Instr} {finish : State → State} {f : Fault} {steps : List CmdStep}
    (hsub : ∀ c ∈ steps, c ∈ stepsOf i) (s : State) : runSteps finish steps s ≠ .fault f := by
  induction steps generalizing s with
  | nil => unfold runSteps; split <;> nofun
  | cons c rest ih =>
    obtain ⟨hc, hrest⟩ := List.forall_mem_cons.1 hsub
    unfold runSteps
    split
    · nofun
    · split
      case h_1 => exact ih hrest _
      case h_5 h => exact absurd h (perform_ne_outsideMap hc s)
      all_goals nofun

theorem exec_ne_fault (i : Instr) (s : State) (f : Fault) : exec i s ≠ .fault f := by
  rw [exec_eq]
  exact runSteps_ne_fault (fun c hc => List.mem_of_mem_drop hc) _

/-- While other agents stay inside the register map, a step leaves a state. -/
theorem perform_isSome {i : Instr} {c : CmdStep} (hc : c ∈ stepsOf i) {s : State}
    (he : s.everyEvent EnvEvent.inMap = true) : ∃ u, (c.perform s).state = some u := by
  rcases perform_cases hc s with ⟨-, ⟨-, h⟩ | ⟨-, h⟩⟩ | ⟨t, -, -, ⟨hn, -⟩ | ⟨s1, -, h⟩⟩
  · exact ⟨s, by rw [h]; rfl⟩
  · exact ⟨s, by rw [h]; rfl⟩
  · obtain ⟨u, hu⟩ := applyEvents_isSome (everyEvent_nextSlot he) { s with slots := s.slots.tail }
    cases hn.symm.trans hu
  · rw [h]
    unfold settle
    split <;> exact ⟨_, rfl⟩

/-- What a step leaves of the script satisfies what the script satisfied. -/
theorem CmdStep.perform_everyEvent {p : EnvEvent → Bool} {c : CmdStep} {s u : State}
    (h : (c.perform s).state = some u) (he : s.everyEvent p = true) : u.everyEvent p = true := by
  obtain ⟨-, -, -, -, -, hinputs, -, hslots, -⟩ := CmdStep.perform_keeps h
  exact everyEvent_mono hinputs hslots he

/-- While other agents stay inside the register map, a command answers a next state. -/
theorem runSteps_isNext {i : Instr} {finish : State → State} {steps : List CmdStep} {s : State}
    (hsub : ∀ c ∈ steps, c ∈ stepsOf i) (he : s.everyEvent EnvEvent.inMap = true) :
    ∃ t, runSteps finish steps s = .next t := by
  induction steps generalizing s with
  | nil => unfold runSteps; split <;> exact ⟨_, rfl⟩
  | cons c rest ih =>
    obtain ⟨hc, hrest⟩ := List.forall_mem_cons.1 hsub
    obtain ⟨u, hu⟩ := perform_isSome hc he
    unfold runSteps
    split
    · exact ⟨_, rfl⟩
    · split
      case h_1 u' h =>
        exact ih hrest (CmdStep.perform_everyEvent (c := c) (u := u') (by rw [h]; rfl) he)
      case h_5 h => rw [h] at hu; cases hu
      case h_6 h => rw [h] at hu; cases hu
      all_goals exact ⟨_, rfl⟩

theorem exec_isNext (i : Instr) {s : State} (he : s.everyEvent EnvEvent.inMap = true) :
    ∃ t, exec i s = .next t := by
  rw [exec_eq]
  refine runSteps_isNext (fun c hc => List.mem_of_mem_drop hc) ?_
  cases i <;> exact he

@[simp] theorem finishOf_inputs (i : Instr) (s : State) : (finishOf i s).inputs = s.inputs := by
  cases i with
  | decode c a => exact (respondDecoded_keeps _ _).2.2.2.1
  | getTime c a => exact (respondDecoded_keeps _ _).2.2.2.1
  | _ => rfl

@[simp] theorem finishOf_busReady (i : Instr) (s : State) :
    (finishOf i s).busReady = s.busReady := by
  cases i with
  | decode c a => exact (respondDecoded_keeps _ _).2.2.1
  | getTime c a => exact (respondDecoded_keeps _ _).2.2.1
  | _ => rfl

theorem finishOf_inFlight (i : Instr) (s : State) : (finishOf i s).inFlight = none := by
  obtain ⟨-, -, -, -, -, -, -, hflight⟩ := finishOf_atRest i s
  exact hflight

theorem exec_everyEvent {p : EnvEvent → Bool} {i : Instr} {s t : State}
    (he : s.everyEvent p = true) (h : exec i s = .next t) : t.everyEvent p = true := by
  refine exec_next (P := fun u => u.everyEvent p = true) (Q := fun u => u.everyEvent p = true)
    ?_ ?_ ?_ ?_ ?_ ?_ ?_ h
  · intro c rest u u' hu _ hp
    exact CmdStep.perform_everyEvent (c := c) (u := u') (by rw [hp]; rfl) hu
  · intro c rest u k u' hu _ hp
    exact CmdStep.perform_everyEvent (c := c) (u := u') (by rw [hp]; rfl) hu
  · intro c rest u u' hu _ hp
    exact CmdStep.perform_everyEvent (c := c) (u := u') (by rw [hp]; rfl) hu
  · intro c rest u u' hu _ hp
    exact CmdStep.perform_everyEvent (c := c) (u := u') (by rw [hp]; rfl) hu
  · intro u hu _
    exact hu
  · intro u hu _ _
    exact everyEvent_mono (finishOf_inputs i u) (.inl (finishOf_slots i u)) hu
  · cases i <;> exact he

/-! ### Positions -/

/-- The steps of a command: those before its first transaction, then its access matrix (R49). -/
theorem stepsOf_map_shape (i : Instr) : (stepsOf i).map CmdStep.shape =
    List.replicate (leadSteps i) none ++ (accesses i).map some := by
  cases i <;> rfl

theorem length_stepsOf (i : Instr) :
    (stepsOf i).length = leadSteps i + (accesses i).length := by
  simpa using congrArg List.length (stepsOf_map_shape i)

theorem length_stepsOf_le (i : Instr) : (stepsOf i).length ≤ 5 := by
  cases i <;> simp [stepsOf, update]

/-- Only INIT has a step before its first transaction. -/
theorem leadSteps_of_op {i : Instr} (h : i.op = 0x2) : leadSteps i = 1 := by
  cases i with
  | init c a => rfl
  | _ => cases h

theorem accesses_issuable (i : Instr) : ∀ x ∈ accesses i, x.issuable = true := by
  cases i <;> simp only [accesses] <;> decide

/-- Every transaction of the matrix is preceded by the steps before it. -/
theorem accesses_of_position {i : Instr} {n : Nat} {c : CmdStep} {rest : List CmdStep} {x : TxnShape}
    (hd : (stepsOf i).drop n = c :: rest) (hx : c.shape = some x) :
    leadSteps i ≤ n ∧ (accesses i)[n - leadSteps i]? = some x := by
  have hc : ((stepsOf i).map CmdStep.shape)[n]? = some (some x) := by
    rw [List.getElem?_map, ← hx, ← List.head?_drop, hd]
    rfl
  rw [stepsOf_map_shape] at hc
  by_cases hn : n < leadSteps i
  · rw [List.getElem?_append_left (by simpa using hn), List.getElem?_replicate, if_pos hn] at hc
    cases hc
  · rw [List.getElem?_append_right (by simpa using hn), List.length_replicate,
      List.getElem?_map] at hc
    exact ⟨by omega, by simpa using hc⟩

/-- The transaction of a step is that of its position. -/
theorem accesses_of_txn {i : Instr} {s : State} {c : CmdStep} {rest : List CmdStep} {t : Txn}
    (hd : (stepsOf i).drop s.step = c :: rest) (ht : c.txn s = some t) :
    leadSteps i ≤ s.step ∧ (accesses i)[s.step - leadSteps i]? = some t.shape :=
  accesses_of_position hd (by rw [CmdStep.shape_eq c s, ht]; rfl)

/-- A step without a transaction is the first of INIT. -/
theorem step_of_noTxn {i : Instr} {s : State} {c : CmdStep} {rest : List CmdStep}
    (hd : (stepsOf i).drop s.step = c :: rest) (ht : c.txn s = none) :
    s.step = 0 ∧ leadSteps i = 1 := by
  cases c <;> simp only [CmdStep.txn, reduceCtorEq] at ht
  obtain ⟨hop, hn⟩ := sampleReady_pos hd
  exact ⟨hn, leadSteps_of_op hop⟩

/-- A performed step leaves the position where it was. -/
theorem CmdStep.perform_step {c : CmdStep} {s u : State} (h : (c.perform s).state = some u) :
    u.step = s.step := by
  obtain ⟨-, -, -, hstep, -⟩ := CmdStep.perform_keeps h
  exact hstep

end Sys2Proof.Machine
end

