-- ==== Sys2Proof/Proofs/RunEnds.lean ====
section
/-! SUPPORT. The ways a command run from its first step can end, said once (60_exceptions.md R214,
10_state.md R49): the obligations about responses and transactions are read off it. -/

namespace Sys2Proof.Machine

/-- The shapes of the transactions of a trace. -/
def shapes (l : List TxnRecord) : List TxnShape := l.map fun r => r.txn.shape

@[simp] theorem shapes_nil : shapes [] = [] := rfl

@[simp] theorem shapes_append_singleton (l : List TxnRecord) (r : TxnRecord) :
    shapes (l ++ [r]) = shapes l ++ [r.txn.shape] := by
  simp [shapes]

/-- Every transaction has returned `Ok`. -/
def allReturnedOk (l : List TxnRecord) : Prop :=
  ∀ r ∈ l, r.outcome ≠ .fail ∧ r.outcome ≠ .pending

theorem allReturnedOk_append_singleton {l : List TxnRecord} {r : TxnRecord} (hl : allReturnedOk l)
    (hr : r.outcome ≠ .fail ∧ r.outcome ≠ .pending) : allReturnedOk (l ++ [r]) := by
  intro q hq
  rcases List.mem_append.1 hq with hq | hq
  · exact hl q hq
  · rw [List.mem_singleton.1 hq]
    exact hr

/-- Before each step of a command run from its first step: the response is still the one it began with,
and the trace is the part of the access matrix before the position, all of it `Ok`. -/
structure OnTrack (i : Instr) (r : Option Response) (u : State) : Prop where
  rsp : u.rsp = r
  issued : shapes u.trace = (accesses i).take (u.step - leadSteps i)
  returned : allReturnedOk u.trace

/-- How a command run from its first step, with the response `r` before it, can end in `t`. -/
inductive RunEnd (i : Instr) (r : Option Response) (t : State) : Prop
  /-- it waits in a transaction -/
  | waits (x : InFlight) (hrsp : t.rsp = r) (hflight : t.inFlight = some x)
      (hreturned : allReturnedOk t.trace) (hissued : shapes t.issued <+: accesses i)
  /-- a transaction failed or was cut by a block reset -/
  | failed (l : List TxnRecord) (q : TxnRecord)
      (hrsp : t.rsp = none ∨ t.rsp = some (.error .ioError)) (hflight : t.inFlight = none)
      (htrace : t.trace = l ++ [q]) (hfail : q.outcome = .fail) (hreturned : allReturnedOk l)
      (hissued : shapes t.trace <+: accesses i)
  /-- a block reset came between two steps -/
  | cut (hrsp : t.rsp = none) (hflight : t.inFlight = none) (hreturned : allReturnedOk t.trace)
      (hissued : shapes t.trace <+: accesses i)
  /-- INIT found the transport not ready -/
  | notReady (hrsp : t.rsp = some (.error .notReady)) (hflight : t.inFlight = none)
      (htrace : t.trace = [])
  /-- all its transactions returned `Ok` -/
  | finished (hrsp : (∃ p, t.rsp = some (.ok p)) ∨ t.rsp = some (.error .integrityError))
      (hflight : t.inFlight = none) (hreturned : allReturnedOk t.trace)
      (hissued : shapes t.trace = accesses i)

/-- One more transaction of the matrix. -/
theorem take_append_of_getElem? {i : Instr} {l : List TxnShape} {n : Nat} {x : TxnShape}
    (hl : l = (accesses i).take n) (hx : (accesses i)[n]? = some x) :
    l ++ [x] = (accesses i).take (n + 1) := by
  rw [List.take_add_one, hx, hl]
  rfl

/-- A step that has issued its transaction has the trace and that transaction as part of the matrix. -/
theorem OnTrack.append {i : Instr} {r : Option Response} {u : State} {c : CmdStep}
    {rest : List CmdStep} {t : Txn} (h : OnTrack i r u) (hd : (stepsOf i).drop u.step = c :: rest)
    (ht : c.txn u = some t) :
    shapes u.trace ++ [t.shape] = (accesses i).take (u.step + 1 - leadSteps i) := by
  obtain ⟨hlead, hget⟩ := accesses_of_txn hd ht
  rw [take_append_of_getElem? h.issued hget]
  congr 1
  omega

theorem OnTrack.append_prefix {i : Instr} {r : Option Response} {u : State} {c : CmdStep}
    {rest : List CmdStep} {t : Txn} (h : OnTrack i r u) (hd : (stepsOf i).drop u.step = c :: rest)
    (ht : c.txn u = some t) : shapes u.trace ++ [t.shape] <+: accesses i := by
  rw [h.append hd ht]
  exact List.take_prefix _ _

theorem OnTrack.issued_isPrefix {i : Instr} {r : Option Response} {u : State}
    (h : OnTrack i r u) :
    shapes u.trace <+: accesses i := by
  rw [h.issued]
  exact List.take_prefix _ _

/-- The trace of a step that returned `Ok` has no pending line where there was none. -/
theorem CmdStep.perform_returned {c : CmdStep} {s s' : State} {q : TxnRecord}
    (h : (c.perform s).state = some s') (hq : s'.trace = s.trace ++ [q])
    (hs : allReturnedOk s.trace) : q.outcome ≠ .pending :=
  CmdStep.perform_notPending h (fun r hr => (hs r hr).2) q (by simp [hq])

/-- A step that returned `Ok` goes on along the matrix. -/
theorem OnTrack.done {i : Instr} {r : Option Response} {u u' : State} {c : CmdStep}
    {rest : List CmdStep} (h : OnTrack i r u) (hd : (stepsOf i).drop u.step = c :: rest)
    (hp : c.perform u = .done u') : OnTrack i r u'.advance := by
  have hstate : (c.perform u).state = some u' := by rw [hp]; rfl
  have hstep := CmdStep.perform_step hstate
  obtain ⟨-, -, -, -, hrsp, -⟩ := CmdStep.perform_keeps hstate
  have htrace := CmdStep.perform_trace c u
  rw [hp] at htrace
  obtain ⟨hno, htrace⟩ | ⟨q, htrace, hq, hok⟩ := htrace
  · obtain ⟨h0, hlead⟩ := step_of_noTxn hd hno
    refine ⟨hrsp.trans h.rsp, ?_, ?_⟩
    · rw [advance_trace, htrace, h.issued, advance_step, hstep, h0, hlead]
    · rw [advance_trace, htrace]; exact h.returned
  · refine ⟨hrsp.trans h.rsp, ?_, ?_⟩
    · rw [advance_trace, htrace, shapes_append_singleton, advance_step, hstep, h.append hd hq]
    · rw [advance_trace, htrace]
      exact allReturnedOk_append_singleton h.returned
        ⟨hok, CmdStep.perform_returned hstate htrace h.returned⟩

/-- The ways a command run from its first step can end (R214, R49). -/
theorem exec_runEnd {i : Instr} {s t : State} (hstep : s.step = 0) (htr : s.trace = [])
    (h : exec i s = .next t) : RunEnd i s.rsp t := by
  refine exec_next (P := OnTrack i s.rsp) (Q := RunEnd i s.rsp) ?_ ?_ ?_ ?_ ?_ ?_ ?_ h
  · intro c rest u u' hu hd hp
    exact hu.done hd hp
  · intro c rest u k u' hu hd hp
    have htrace := CmdStep.perform_trace c u
    rw [hp] at htrace
    obtain ⟨rfl, hno, htrace⟩ | ⟨rfl, q, htrace, hq, hfail⟩ := htrace
    · obtain ⟨h0, -⟩ := step_of_noTxn hd hno
      refine .notReady rfl rfl ?_
      have hnil := hu.issued
      rw [h0, Nat.zero_sub, List.take_zero] at hnil
      rw [raise_trace, htrace]
      exact List.map_eq_nil_iff.1 hnil
    · refine .failed u.trace q (.inr rfl) rfl htrace hfail hu.returned ?_
      rw [raise_trace, htrace, shapes_append_singleton]
      exact hu.append_prefix hd hq
  · intro c rest u u' hu hd hp
    have hstate : (c.perform u).state = some u' := by rw [hp]; rfl
    obtain ⟨-, -, -, -, hrsp, -⟩ := CmdStep.perform_keeps hstate
    have htrace := CmdStep.perform_trace c u
    rw [hp] at htrace
    cases ht : c.txn u with
    | none =>
      cases c <;> simp only [CmdStep.txn, reduceCtorEq] at ht
      rw [CmdStep.perform_sampleReady] at hp
      split at hp <;> cases hp
    | some t =>
      have hflight := CmdStep.perform_inFlight ht
      rw [hp] at hflight
      obtain ⟨x, hx, rfl, -⟩ := hflight
      refine .waits x (hrsp.trans hu.rsp) hx (htrace ▸ hu.returned) ?_
      rw [issued_of_some hx, htrace, shapes_append_singleton]
      exact hu.append_prefix hd ht
  · intro c rest u u' hu hd hp
    have htrace := CmdStep.perform_trace c u
    rw [hp] at htrace
    obtain ⟨q, htrace, hq, hfail⟩ := htrace
    refine .failed u.trace q (.inl rfl) rfl htrace hfail hu.returned ?_
    rw [blockReset_trace, htrace, shapes_append_singleton]
    exact hu.append_prefix hd hq
  · intro u hu _
    exact .cut rfl rfl hu.returned hu.issued_isPrefix
  · intro u hu hd _
    refine .finished ?_ (finishOf_inFlight i u) (by rw [finishOf_trace]; exact hu.returned) ?_
    · exact (finishOf_rsp i u).imp_right And.left
    · have hlen := List.drop_eq_nil_iff.1 hd
      rw [length_stepsOf] at hlen
      rw [finishOf_trace, hu.issued, List.take_of_length_le (by omega)]
  · have h0 : OnTrack i s.rsp s := ⟨rfl, by simp [hstep, htr], by simp [htr, allReturnedOk]⟩
    cases i with
    | setTime c a => exact ⟨h0.rsp, h0.issued, h0.returned⟩
    | _ => exact h0

end Sys2Proof.Machine
end

