-- ==== Sys2Proof/Proofs/Runs.lean ====
section
/-! The obligations about every run of every command: no stop, its transactions, its response, its
end (20_memory.md R69, R79, 60_exceptions.md R210, R214, 70_reset_and_hazards.md R266). -/

namespace Sys2Proof.Machine

/-- Settles O47: a step runs a command, which never leaves the map, or takes an input, which cannot
fault. -/
theorem noStepFaults : Obligations.NoStepFaults := by
  intro s f h
  unfold step at h
  split at h
  · exact exec_ne_fault _ _ _ h
  · split at h
    case h_2 => exact exec_ne_fault _ _ _ h
    case h_3 => exact exec_ne_fault _ _ _ h
    case h_4 => unfold takeEvent at h; split at h <;> cases h
    all_goals cases h

theorem everyEvent_tail {p : EnvEvent → Bool} {s : State} {x : Input} {rest : List Input}
    (hi : s.inputs = x :: rest) (he : s.everyEvent p = true) :
    (∀ e ∈ x.events, p e = true) ∧ State.everyEvent p { s with inputs := rest } = true := by
  simp only [State.everyEvent, hi, List.all_cons, Bool.and_eq_true, List.all_eq_true] at he ⊢
  obtain ⟨⟨hx, hrest⟩, hslots⟩ := he
  exact ⟨hx, hrest, hslots⟩

/-- Settles O48: a command goes on while other agents stay inside the map, an event inside it
applies, and the script that is left is part of the one before. -/
theorem scriptsInsideTheMapAlwaysStep : Obligations.ScriptsInsideTheMapAlwaysStep := by
  intro s he
  have hexec : ∀ (i : Instr) (u : State), u.everyEvent EnvEvent.inMap = true →
      ∃ t, exec i u = .next t ∧ t.everyEvent EnvEvent.inMap = true := by
    intro i u hu
    obtain ⟨t, ht⟩ := exec_isNext i hu
    exact ⟨t, ht, exec_everyEvent hu ht⟩
  cases hb : s.busy with
  | true => rw [step_busy hb]; exact hexec _ s he
  | false =>
    rcases hi : s.inputs with _ | ⟨x, rest⟩
    · exact ⟨s, step_idle hb hi, he⟩
    · obtain ⟨hx, hrest⟩ := everyEvent_tail hi he
      cases x with
      | command w o => rw [step_command hb hi]; exact hexec _ _ hrest
      | commandCut w o n => rw [step_commandCut hb hi]; exact hexec _ _ hrest
      | blockReset => exact ⟨_, step_blockReset hb hi, hrest⟩
      | env e =>
        obtain ⟨u, hu⟩ := EnvEvent.apply_isSome (hx e (List.mem_singleton.2 rfl))
          { s with inputs := rest }
        refine ⟨u, (step_env hb hi).trans (takeEvent_of_apply hu), ?_⟩
        rw [EnvEvent.apply_eq hu]
        exact hrest

theorem length_of_shapes {i : Instr} {l : List TxnRecord} (h : shapes l = accesses i) :
    l.length = (accesses i).length := by
  rw [← h, shapes, List.length_map]

/-- Settles O44: each way a run can end has one kind of response, and the trace that goes with it. -/
theorem responseAgreesWithTransactions : Obligations.ResponseAgreesWithTransactions := by
  intro i s t hstep hrsp htr h
  have hok : ∀ {l}, allReturnedOk l → ∀ r ∈ l, r.outcome ≠ .fail := fun hl r hr => (hl r hr).1
  cases exec_runEnd hstep htr h with
  | waits x hr _ _ _ => rw [hr, hrsp]; exact ⟨nofun, nofun, nofun, nofun⟩
  | failed l q hr _ htrace hfail hl _ =>
    refine ⟨?_, fun _ => ⟨l, q, htrace, hfail, hok hl⟩, ?_, ?_⟩
    all_goals rcases hr with hr | hr <;> rw [hr] <;> nofun
  | cut hr _ _ _ => rw [hr]; exact ⟨nofun, nofun, nofun, nofun⟩
  | notReady hr _ htrace => rw [hr]; exact ⟨nofun, nofun, nofun, fun _ => htrace⟩
  | finished hr _ hl hissued =>
    have hall := And.intro (length_of_shapes hissued) (hok hl)
    refine ⟨fun _ _ => hall, ?_, fun _ => hall, ?_⟩
    all_goals rcases hr with ⟨p, hr⟩ | hr <;> rw [hr] <;> nofun

theorem Response.code_ok (p : Payload) : (Response.ok p).code = 0 := rfl

/-- A step of a command that issues a transaction is one of a command that uses the bus. -/
theorem usesBus_of_txn {i : Instr} {s : State} {c : CmdStep} {rest : List CmdStep} {t : Txn}
    (hd : (stepsOf i).drop s.step = c :: rest) (ht : c.txn s = some t) : usesBus i = true := by
  obtain ⟨-, hget⟩ := accesses_of_txn hd ht
  have hne : accesses i ≠ [] := by
    intro hnil
    rw [hnil] at hget
    cases hget
  simp [usesBus, hne]

/-- The error of a response, if it is one, is of a kind the command can raise (R210). -/
def raisesOnlyOwn (i : Instr) (r : Option Response) : Prop :=
  (r = some (.error .notReady) → i.op = 0x2) ∧
  (r = some (.error .ioError) → usesBus i = true) ∧
  (r = some (.error .integrityError) → i.op = 0x1 ∨ i.op = 0x5)

theorem raisesOnlyOwn_none (i : Instr) : raisesOnlyOwn i none := ⟨nofun, nofun, nofun⟩

/-- What kinds of error a run can answer (R210). -/
theorem exec_raisesOnlyOwn {i : Instr} {s t : State} (hs : s.rsp = none) (h : exec i s = .next t) :
    raisesOnlyOwn i t.rsp := by
  refine exec_next (P := fun u => u.rsp = none) (Q := fun u => raisesOnlyOwn i u.rsp)
    ?_ ?_ ?_ ?_ ?_ ?_ ?_ h
  · intro c rest u u' hu _ hp
    obtain ⟨-, -, -, -, hrsp, -⟩ :=
      CmdStep.perform_keeps (c := c) (s := u) (s' := u') (by rw [hp]; rfl)
    exact hrsp.trans hu
  · intro c rest u k u' _ hd hp
    rw [raise_rsp]
    obtain ⟨rfl, t, ht⟩ | ⟨rfl, rfl, -⟩ := CmdStep.raised_kind hp
    · exact ⟨nofun, fun _ => usesBus_of_txn hd ht, nofun⟩
    · exact ⟨fun _ => (sampleReady_pos hd).1, nofun, nofun⟩
  · intro c rest u u' hu _ hp
    obtain ⟨-, -, -, -, hrsp, -⟩ :=
      CmdStep.perform_keeps (c := c) (s := u) (s' := u') (by rw [hp]; rfl)
    rw [hrsp.trans hu]
    exact raisesOnlyOwn_none i
  · exact fun _ _ _ _ _ _ _ => raisesOnlyOwn_none i
  · exact fun _ _ _ => raisesOnlyOwn_none i
  · intro u _ _ _
    obtain ⟨p, hr⟩ | ⟨hr, hop⟩ := finishOf_rsp i u
    · rw [hr]; exact ⟨nofun, nofun, nofun⟩
    · exact ⟨by rw [hr]; nofun, by rw [hr]; nofun, fun _ => hop⟩
  · cases i <;> exact hs

/-- Settles O45: `NotReady` is raised by the sampling step alone, `IoError` by a transaction, and
`IntegrityError` by the finish of a command that decodes. -/
theorem errorKindsPerCommand : Obligations.ErrorKindsPerCommand :=
  ⟨fun _ _ _ hs h => exec_raisesOnlyOwn hs h, Response.code_ok, rfl, rfl, rfl⟩

theorem issuable_of_prefix {i : Instr} {l : List TxnRecord} (h : shapes l <+: accesses i) :
    ∀ r ∈ l, r.txn.shape.issuable = true :=
  fun _ hr => accesses_issuable i _ (h.subset (List.mem_map_of_mem hr))

/-- Settles O49: each way a run can end leaves a part of the access matrix issued, the whole of it
where the command has finished, and a pending transaction only where it waits. -/
theorem commandsIssueTheirAccesses : Obligations.CommandsIssueTheirAccesses := by
  intro i s t hstep htr h
  have hended : ∀ {l : List TxnRecord}, (∀ r ∈ l, r.outcome ≠ .pending) → t.inFlight = none →
      ((∃ r ∈ l, r.outcome = .pending) ↔ t.inFlight ≠ none) := by
    intro l hl hf
    exact ⟨fun ⟨_, hr, hp⟩ => absurd hp (hl _ hr), fun hne => absurd hf hne⟩
  have hpending : ∀ {l}, allReturnedOk l → ∀ r ∈ l, r.outcome ≠ .pending :=
    fun hl r hr => (hl r hr).2
  cases exec_runEnd hstep htr h with
  | waits x hr hf hl hissued =>
    refine ⟨hissued, issuable_of_prefix hissued, fun hs => ?_, hpending hl, ?_⟩
    · rw [hr, hs]; nofun
    · rw [issued_of_some hf, hf]
      exact ⟨nofun, fun _ => ⟨⟨x.txn, .pending⟩, by simp, rfl⟩⟩
  | failed l q hr hf htrace hfail hl hissued =>
    have hp : ∀ r ∈ t.trace, r.outcome ≠ .pending := by
      rw [htrace]
      intro r hmem
      rcases List.mem_append.1 hmem with hmem | hmem
      · exact (hl r hmem).2
      · rw [List.mem_singleton.1 hmem, hfail]; nofun
    rw [issued_of_none hf]
    refine ⟨hissued, issuable_of_prefix hissued, fun _ => ?_, hp, hended hp hf⟩
    rcases hr with hr | hr <;> rw [hr] <;> nofun
  | cut hr hf hl hissued =>
    rw [issued_of_none hf]
    refine ⟨hissued, issuable_of_prefix hissued, fun _ => ?_, hpending hl, hended (hpending hl) hf⟩
    rw [hr]; nofun
  | notReady hr hf htrace =>
    rw [issued_of_none hf, htrace]
    refine ⟨List.nil_prefix, nofun, fun _ => ?_, nofun, hended nofun hf⟩
    rw [hr]; nofun
  | finished hr hf hl hissued =>
    rw [issued_of_none hf]
    have hprefix : shapes t.trace <+: accesses i := by rw [hissued]
    exact ⟨hprefix, issuable_of_prefix hprefix,
      fun _ _ => hissued, hpending hl, hended (hpending hl) hf⟩

/-! ### Every transaction answered -/

theorem answeredOk_nextSlot {k : Nat} {s : State} (h : s.answeredOk (k + 1)) :
    s.nextSlot.answer = .ok := by
  rw [nextSlot_eq_getD]
  exact h 0 (by omega)

theorem answeredOk_tail {k : Nat} {s t : State} (h : s.answeredOk (k + 1))
    (ht : t.slots = s.slots.tail) : t.answeredOk k := by
  intro j hj
  rw [ht, getD_tail]
  exact h (j + 1) (by omega)

theorem answeredOk_mono {j k : Nat} {s t : State} (h : s.answeredOk k) (hj : j ≤ k)
    (ht : t.slots = s.slots) : t.answeredOk j := by
  intro n hn
  rw [ht]
  exact h n (by omega)

/-- A transaction that is issued now and answered `Ok` completes, unless another agent's leaves the
map. -/
theorem perform_answered {i : Instr} {c : CmdStep} (hc : c ∈ stepsOf i) {s : State} {t : Txn}
    (ht : c.txn s = some t) (hf : s.inFlight = none) (ha : s.nextSlot.answer = .ok) :
    c.perform s = .foreignOutside ∨
      ∃ u, c.perform s = .done u ∧ u.slots = s.slots.tail ∧ u.inFlight = none := by
  obtain ⟨rfl, -⟩ | ⟨t', -, -, ⟨-, h⟩ | ⟨s1, he, h⟩⟩ := perform_cases hc s
  · cases ht
  · exact .inl h
  · have hf1 := applyEvents_inFlight_none he hf
    have hslots : s1.slots = s.slots.tail := by rw [applyEvents_eq he]
    rw [answerFrom_of_none hf1, ha] at h
    exact .inr ⟨_, h, by rw [CmdStep.latch_eq]; exact hslots, by rw [CmdStep.latch_eq]; rfl⟩

/-- Before each step of a command whose transactions are answered: no block reset is due, nothing is in
flight, `BUS_READY` is 1 at the first step, and the coming transactions are answered `Ok`. -/
structure Answered (u : State) : Prop where
  uncut : u.cut = none
  flight : u.inFlight = none
  ready : u.step = 0 → u.busReady = true
  answers : u.answeredOk (5 - u.step)

/-- A step of a command whose transactions are answered completes. -/
theorem Answered.perform {i : Instr} {c : CmdStep} {rest : List CmdStep} {u : State}
    (h : Answered u) (hd : (stepsOf i).drop u.step = c :: rest) :
    c.perform u = .foreignOutside ∨ ∃ u', c.perform u = .done u' ∧ Answered u'.advance := by
  obtain ⟨hc, hlt, -⟩ := drop_cons_mem hd
  have hle := length_stepsOf_le i
  have hkeep : ∀ {u'}, c.perform u = .done u' → u'.cut = u.cut ∧ u'.step = u.step := by
    intro u' hp
    obtain ⟨-, -, -, hstep, -, -, -, -, hcut, -⟩ :=
      CmdStep.perform_keeps (c := c) (s := u) (s' := u') (by rw [hp]; rfl)
    exact ⟨hcut, hstep⟩
  cases ht : c.txn u with
  | none =>
    obtain ⟨h0, -⟩ := step_of_noTxn hd ht
    cases c <;> simp only [CmdStep.txn, reduceCtorEq] at ht
    refine .inr ⟨u, by rw [CmdStep.perform_sampleReady, h.ready h0, if_pos rfl], h.uncut, h.flight,
      nofun, ?_⟩
    exact answeredOk_mono h.answers (by rw [advance_step]; omega) rfl
  | some t =>
    have hanswers : u.answeredOk (5 - (u.step + 1) + 1) := by
      rw [show 5 - (u.step + 1) + 1 = 5 - u.step by omega]
      exact h.answers
    obtain hp | ⟨u', hp, hslots, hflight⟩ :=
      perform_answered hc ht h.flight (answeredOk_nextSlot hanswers)
    · exact .inl hp
    · obtain ⟨hcut, hstep⟩ := hkeep hp
      refine .inr ⟨u', hp, hcut.trans h.uncut, hflight, nofun, ?_⟩
      rw [advance_step, hstep]
      exact answeredOk_tail (t := u'.advance) hanswers hslots

/-- A command whose transactions are answered ends with its finish. -/
theorem exec_answered {i : Instr} {s t : State} (hs : Answered s) (h : exec i s = .next t) :
    ∃ u, t = finishOf i u := by
  have hperform : ∀ {c : CmdStep} {rest : List CmdStep} {u : State} {x : StepEnd}, Answered u →
      (stepsOf i).drop u.step = c :: rest → c.perform u = x →
      x = .foreignOutside ∨ ∃ u', x = .done u' ∧ Answered u'.advance := by
    rintro c rest u _ hu hd rfl
    exact hu.perform hd
  refine exec_next (P := Answered) (Q := fun t => ∃ u, t = finishOf i u) ?_ ?_ ?_ ?_ ?_ ?_ ?_ h
  · intro c rest u u' hu hd hp
    obtain hx | ⟨u'', hx, hnext⟩ := hperform hu hd hp <;> cases hx
    exact hnext
  · intro c rest u k u' hu hd hp
    obtain hx | ⟨u'', hx, -⟩ := hperform hu hd hp <;> cases hx
  · intro c rest u u' hu hd hp
    obtain hx | ⟨u'', hx, -⟩ := hperform hu hd hp <;> cases hx
  · intro c rest u u' hu hd hp
    obtain hx | ⟨u'', hx, -⟩ := hperform hu hd hp <;> cases hx
  · intro u hu hcut
    rw [isCut_of_none hu.uncut] at hcut
    cases hcut
  · exact fun u _ _ _ => ⟨u, rfl⟩
  · cases i with
    | setTime c a => exact ⟨hs.uncut, hs.flight, hs.ready, hs.answers⟩
    | _ => exact hs

/-- Settles O50: other agents inside the map let the command go on, and with its transactions answered
it can end with its finish only. -/
theorem answeredCommandsEnd : Obligations.AnsweredCommandsEnd := by
  intro i s hbegun hready htr hanswers he
  obtain ⟨hstep, hcut, hflight⟩ := hbegun
  obtain ⟨t, ht⟩ := exec_isNext i he
  obtain ⟨u, rfl⟩ := exec_answered ⟨hcut, hflight, fun _ => hready, by simpa [hstep] using hanswers⟩ ht
  have hrsp := finishOf_rsp i u
  refine ⟨_, ht, finishOf_atRest i u, ?_, hrsp⟩
  cases exec_runEnd hstep htr ht with
  | waits x _ hf _ _ => cases (finishOf_inFlight i u).symm.trans hf
  | failed l q hr _ _ _ _ _ =>
    obtain ⟨p, hp⟩ | ⟨hp, -⟩ := hrsp <;> rw [hp] at hr <;> simp at hr
  | cut hr _ _ _ => obtain ⟨p, hp⟩ | ⟨hp, -⟩ := hrsp <;> cases hp.symm.trans hr
  | notReady hr _ _ => obtain ⟨p, hp⟩ | ⟨hp, -⟩ := hrsp <;> cases hp.symm.trans hr
  | finished _ _ _ hissued => exact length_of_shapes hissued

end Sys2Proof.Machine
end

