-- ==== Sys2Proof/Proofs/Invariant.lean ====
section
/-! The obligation that every step keeps the invariant: what holds before each step of a command, that
every step keeps it, and that every way to stop or end leads from it to the invariant. -/

namespace Sys2Proof.Machine

/-- A step of a command keeps the canonical form of the register file. -/
theorem perform_wf {i : Instr} {c : CmdStep} (hc : c ∈ stepsOf i) {s u : State}
    (h : (c.perform s).state = some u) (hw : s.mem.wf = true) : u.mem.wf = true := by
  obtain ⟨-, ⟨-, hp⟩ | ⟨-, hp⟩⟩ | ⟨t, -, ht, ⟨-, hp⟩ | ⟨s1, he, hp⟩⟩ := perform_cases hc s <;>
    rw [hp] at h
  · cases h; exact hw
  · cases h; exact hw
  · cases h
  · have hw1 : s1.mem.wf = true := applyEvents_wf he hw
    unfold settle at h
    split at h <;> cases h
    · rw [CmdStep.latch_eq]
      exact Txn.wf_store ht hw1
    · exact Txn.wf_storePart ht _ hw1
    · exact hw1
    · exact Txn.wf_storePart ht _ hw1
    · exact Txn.wf_storePart ht _ hw1

/-- What holds before each step of command `i`: the invariant of a block with a command in progress,
but for the transaction in flight. -/
structure Running (i : Instr) (u : State) : Prop where
  memory : u.mem.wf = true
  busy : u.busy = true
  rsp : u.rsp = none
  command : decode u.cmd = i
  short : u.trace.length ≤ u.step ∧ u.step ≤ 5
  issuable : ∀ r ∈ u.trace, r.txn.shape.issuable = true
  noFail : ∀ r ∈ u.trace, r.outcome ≠ .fail

theorem forall_mem_append_singleton {α : Type} {p : α → Prop} {l : List α} {x : α}
    (hl : ∀ y ∈ l, p y) (hx : p x) : ∀ y ∈ l ++ [x], p y := by
  intro y hy
  rcases List.mem_append.1 hy with hy | hy
  · exact hl y hy
  · rw [List.mem_singleton.1 hy]
    exact hx

/-- The transaction of a step of a command is issuable. -/
theorem issuable_of_txn {i : Instr} {s : State} {c : CmdStep} {rest : List CmdStep} {t : Txn}
    (hd : (stepsOf i).drop s.step = c :: rest) (ht : c.txn s = some t) :
    t.shape.issuable = true :=
  accesses_issuable i _ (List.mem_of_getElem? (accesses_of_txn hd ht).2)

/-- A step that returned `Ok` keeps `Running`. -/
theorem Running.done {i : Instr} {u u' : State} {c : CmdStep} {rest : List CmdStep}
    (h : Running i u) (hd : (stepsOf i).drop u.step = c :: rest) (hp : c.perform u = .done u') :
    Running i u'.advance := by
  have hstate : (c.perform u).state = some u' := by rw [hp]; rfl
  obtain ⟨hc, hlt, -⟩ := drop_cons_mem hd
  obtain ⟨hbusy, hcmd, -, hstep, hrsp, -⟩ := CmdStep.perform_keeps hstate
  obtain ⟨hshort, -⟩ := h.short
  have hlen := length_stepsOf_le i
  have hposition : ∀ n, n ≤ u.trace.length + 1 → n ≤ u'.advance.step ∧ u'.advance.step ≤ 5 := by
    intro n hn
    rw [advance_step, hstep]
    omega
  have hw : u'.mem.wf = true := perform_wf hc hstate h.memory
  have htrace := CmdStep.perform_trace c u
  rw [hp] at htrace
  refine ⟨hw, hbusy.trans h.busy, hrsp.trans h.rsp,
    (congrArg decode hcmd).trans h.command, ?_, ?_, ?_⟩ <;>
    rw [advance_trace] <;> obtain ⟨-, htrace⟩ | ⟨q, htrace, hq, hok⟩ := htrace <;> rw [htrace]
  · exact hposition _ (Nat.le_succ _)
  · exact hposition _ (by rw [List.length_append]; rfl)
  · exact h.issuable
  · exact forall_mem_append_singleton h.issuable (issuable_of_txn hd hq)
  · exact h.noFail
  · exact forall_mem_append_singleton h.noFail hok

/-! ### From `Running` to the invariant -/

/-- The invariant of a block at rest, from its registers, its trace and its response. -/
theorem inv_of_atRest {t : State} (hrest : t.atRest) (hw : t.mem.wf = true)
    (hshort : t.trace.length ≤ 5) (hissuable : ∀ r ∈ t.trace, r.txn.shape.issuable = true)
    (hio : t.rsp = some (.error .ioError) →
      ∃ l r, t.trace = l ++ [r] ∧ r.outcome = .fail ∧ ∀ q ∈ l, q.outcome ≠ .fail)
    (hother : t.rsp ≠ none → t.rsp ≠ some (.error .ioError) → ∀ r ∈ t.trace, r.outcome ≠ .fail)
    (hready : t.rsp = some (.error .notReady) → t.trace = []) : t.Inv := by
  obtain ⟨hbusy, -, -, -, -, -, -, hflight⟩ := id hrest
  have hidle : t.busy ≠ true := by rw [hbusy]; decide
  refine {
    memory := hw
    idleDead := fun _ => hrest
    noEarlyResponse := fun h => absurd h hidle
    position := fun h => absurd h hidle
    issuedShort := by rw [issued_of_none hflight]; exact hshort
    issuedIssuable := by rw [issued_of_none hflight]; exact hissuable
    inFlightAtPosition := fun x hx => by rw [hflight] at hx; cases hx
    busyTraceOk := fun h => absurd h hidle
    okTraceOk := fun p hp => hother (by rw [hp]; nofun) (by rw [hp]; nofun)
    ioErrorFailed := hio
    otherErrorOk := ?_
    notReadyNoTxn := hready }
  rintro (hp | hp)
  · exact hother (by rw [hp]; nofun) (by rw [hp]; nofun)
  · exact hother (by rw [hp]; nofun) (by rw [hp]; nofun)

theorem blockReset_atRest (s : State) : (blockReset s).atRest :=
  ⟨rfl, rfl, rfl, rfl, rfl, rfl, rfl, rfl⟩

/-- A block reset between steps, or while idle, leaves the invariant: nothing is answered. -/
theorem inv_blockReset {u : State} (hw : u.mem.wf = true) (hshort : u.trace.length ≤ 5)
    (hissuable : ∀ r ∈ u.trace, r.txn.shape.issuable = true) : (blockReset u).Inv :=
  inv_of_atRest (blockReset_atRest u) hw hshort hissuable nofun (fun h => absurd rfl h) nofun

/-- A step that failed, or was cut, has one more line in a trace that is still short and permitted. -/
theorem Running.failedTrace {i : Instr} {u u' : State} {c : CmdStep} {rest : List CmdStep}
    {q : TxnRecord} (h : Running i u) (hd : (stepsOf i).drop u.step = c :: rest)
    (htrace : u'.trace = u.trace ++ [q]) (hq : c.txn u = some q.txn) :
    u'.trace.length ≤ 5 ∧ ∀ r ∈ u'.trace, r.txn.shape.issuable = true := by
  obtain ⟨-, hlt, -⟩ := drop_cons_mem hd
  obtain ⟨hshort, -⟩ := h.short
  have hlen := length_stepsOf_le i
  rw [htrace]
  refine ⟨?_, forall_mem_append_singleton h.issuable (issuable_of_txn hd hq)⟩
  rw [List.length_append, List.length_singleton]
  omega

theorem Running.inv_raise {i : Instr} {u u' : State} {k : ErrorKind} {c : CmdStep}
    {rest : List CmdStep} (h : Running i u) (hd : (stepsOf i).drop u.step = c :: rest)
    (hp : c.perform u = .raised k u') : (raise k u').Inv := by
  have hw : u'.mem.wf = true := perform_wf (drop_cons_mem hd).1 (by rw [hp]; rfl) h.memory
  have htrace := CmdStep.perform_trace c u
  rw [hp] at htrace
  obtain ⟨rfl, hno, htrace⟩ | ⟨rfl, q, htrace, hq, hfail⟩ := htrace
  · obtain ⟨h0, -⟩ := step_of_noTxn hd hno
    obtain ⟨hshort, -⟩ := h.short
    have hnil : u'.trace = [] := by
      rw [htrace]
      exact List.length_eq_zero_iff.1 (by omega)
    refine inv_of_atRest (raise_atRest _ u') hw ?_ ?_ nofun ?_ (fun _ => hnil) <;>
      rw [raise_trace, hnil] <;> simp
  · obtain ⟨hshort, hissuable⟩ := h.failedTrace hd htrace hq
    exact inv_of_atRest (raise_atRest _ u') hw hshort hissuable
      (fun _ => ⟨u.trace, q, htrace, hfail, h.noFail⟩) (fun _ hne => absurd rfl hne) nofun

theorem Running.inv_waiting {i : Instr} {u u' : State} {c : CmdStep} {rest : List CmdStep}
    (h : Running i u) (hd : (stepsOf i).drop u.step = c :: rest)
    (hp : c.perform u = .waiting u') : u'.Inv := by
  have hstate : (c.perform u).state = some u' := by rw [hp]; rfl
  obtain ⟨hc, hlt, -⟩ := drop_cons_mem hd
  obtain ⟨hbusy, hcmd, -, hstep, hrsp, -⟩ := CmdStep.perform_keeps hstate
  obtain ⟨hshort, hfive⟩ := h.short
  have hlen := length_stepsOf_le i
  have htrace := CmdStep.perform_trace c u
  rw [hp] at htrace
  cases ht : c.txn u with
  | none =>
    cases c <;> simp only [CmdStep.txn, reduceCtorEq] at ht
    rw [CmdStep.perform_sampleReady] at hp
    split at hp <;> cases hp
  | some t =>
    have hflight := CmdStep.perform_inFlight ht
    rw [hp] at hflight
    obtain ⟨x, hx, rfl, -⟩ := hflight
    have hbusy' : u'.busy = true := hbusy.trans h.busy
    have hnone : u'.rsp = none := hrsp.trans h.rsp
    refine {
      memory := perform_wf hc hstate h.memory
      idleDead := fun hb => absurd hbusy' (by rw [hb]; decide)
      noEarlyResponse := fun _ => hnone
      position := fun _ => by rw [htrace, hstep]; exact h.short
      issuedShort := ?_
      issuedIssuable := ?_
      inFlightAtPosition := fun y hy => ?_
      busyTraceOk := fun _ => by rw [htrace]; exact h.noFail
      okTraceOk := fun p hq => by rw [hnone] at hq; cases hq
      ioErrorFailed := fun hq => by rw [hnone] at hq; cases hq
      otherErrorOk := fun hq => by rw [hnone] at hq; rcases hq with hq | hq <;> cases hq
      notReadyNoTxn := fun hq => by rw [hnone] at hq; cases hq }
    · rw [issued_of_some hx, htrace, List.length_append, List.length_singleton]
      omega
    · rw [issued_of_some hx, htrace]
      exact forall_mem_append_singleton h.issuable (issuable_of_txn hd ht)
    · cases hx.symm.trans hy
      rw [hcmd, h.command, hstep]
      exact accesses_of_txn hd ht

theorem Running.inv_abandoned {i : Instr} {u u' : State} {c : CmdStep} {rest : List CmdStep}
    (h : Running i u) (hd : (stepsOf i).drop u.step = c :: rest)
    (hp : c.perform u = .abandoned u') : (blockReset u').Inv := by
  have hw : u'.mem.wf = true := perform_wf (drop_cons_mem hd).1 (by rw [hp]; rfl) h.memory
  have htrace := CmdStep.perform_trace c u
  rw [hp] at htrace
  obtain ⟨q, htrace, hq, -⟩ := htrace
  obtain ⟨hshort, hissuable⟩ := h.failedTrace hd htrace hq
  exact inv_blockReset hw hshort hissuable

theorem Running.inv_finish {i : Instr} {u : State} (h : Running i u) : (finishOf i u).Inv := by
  obtain ⟨hshort, hfive⟩ := h.short
  have hrsp := finishOf_rsp i u
  refine inv_of_atRest (finishOf_atRest i u) (by rw [finishOf_mem]; exact h.memory)
    (by rw [finishOf_trace]; omega) (by rw [finishOf_trace]; exact h.issuable) ?_
    (fun _ _ => by rw [finishOf_trace]; exact h.noFail) ?_
  all_goals
    intro hq
    obtain ⟨p, hp⟩ | ⟨hp, -⟩ := hrsp <;> rw [hp] at hq <;> cases hq

/-- A command leads from `Running` to the invariant. -/
theorem Running.inv_exec {i : Instr} {s t : State} (hs : Running i s) (h : exec i s = .next t) :
    t.Inv := by
  refine exec_next (P := Running i) (Q := State.Inv) ?_ ?_ ?_ ?_ ?_ ?_ ?_ h
  · exact fun _ _ _ _ hu hd hp => hu.done hd hp
  · exact fun _ _ _ _ _ hu hd hp => hu.inv_raise hd hp
  · exact fun _ _ _ _ hu hd hp => hu.inv_waiting hd hp
  · exact fun _ _ _ _ hu hd hp => hu.inv_abandoned hd hp
  · exact fun u hu _ => inv_blockReset hu.memory (hu.short.1.trans hu.short.2) hu.issuable
  · exact fun u hu _ _ => hu.inv_finish
  · cases i with
    | setTime c a => exact ⟨hs.memory, hs.busy, hs.rsp, hs.command, hs.short, hs.issuable, hs.noFail⟩
    | _ => exact hs

/-! ### The step -/

/-- A block in progress under the invariant is `Running`. -/
theorem State.Inv.running {s : State} (h : s.Inv) (hb : s.busy = true) :
    Running (decode s.cmd) s where
  memory := h.memory
  busy := hb
  rsp := h.noEarlyResponse hb
  command := rfl
  short := h.position hb
  issuable r hr := h.issuedIssuable r (List.mem_append_left _ hr)
  noFail := h.busyTraceOk hb

/-- A command that has just been accepted is `Running`. -/
theorem running_accept (w : CmdWord) (o : Operand) {s : State} (h : s.mem.wf = true) :
    Running (decode w) (accept w o s) where
  memory := h
  busy := rfl
  rsp := rfl
  command := rfl
  short := ⟨Nat.le_refl 0, Nat.zero_le 5⟩
  issuable := nofun
  noFail := nofun

theorem running_accept_cutAt (w : CmdWord) (o : Operand) (n : Nat) {s : State}
    (h : s.mem.wf = true) : Running (decode w) ((accept w o s).cutAt n) where
  memory := h
  busy := rfl
  rsp := rfl
  command := rfl
  short := ⟨Nat.le_refl 0, Nat.zero_le 5⟩
  issuable := nofun
  noFail := nofun

/-- An event of another agent while the block is idle keeps the invariant. -/
theorem State.Inv.event {s u : State} {e : EnvEvent} {rest : List Input} (h : s.Inv)
    (hb : s.busy = false) (hu : e.apply { s with inputs := rest } = some u) : u.Inv := by
  obtain ⟨hbusy, hcmd, hopnd, hstep, htmp, hblk, hcut, hflight⟩ := h.idleDead hb
  have hflight' : u.inFlight = none := applyEvents_inFlight_none (es := [e])
    (s := { s with inputs := rest }) (by simp [applyEvents, hu]) hflight
  have hw : u.mem.wf = true := EnvEvent.apply_wf hu h.memory
  have hkeep := EnvEvent.apply_eq hu
  have htrace : u.trace = s.trace := by rw [hkeep]
  have hrsp : u.rsp = s.rsp := by rw [hkeep]
  have hissued : s.issued = s.trace := issued_of_none hflight
  have hrest : u.atRest := by
    rw [hkeep]
    exact ⟨hbusy, hcmd, hopnd, hstep, htmp, hblk, hcut, hflight'⟩
  have hother : s.rsp ≠ none → s.rsp ≠ some (.error .ioError) → ∀ r ∈ s.trace, r.outcome ≠ .fail := by
    intro h0 hio
    rcases hr : s.rsp with _ | p | k
    · exact absurd hr h0
    · exact h.okTraceOk p hr
    · cases k with
      | notReady => exact h.otherErrorOk (.inl hr)
      | ioError => exact absurd hr hio
      | integrityError => exact h.otherErrorOk (.inr hr)
  refine inv_of_atRest hrest hw ?_ ?_ ?_ ?_ ?_ <;> rw [htrace]
  · rw [← hissued]; exact h.issuedShort
  · rw [← hissued]; exact h.issuedIssuable
  · rw [hrsp]; exact h.ioErrorFailed
  · rw [hrsp]; exact hother
  · rw [hrsp]; exact h.notReadyNoTxn

/-- Settles O43: a command in progress or accepted is `Running`, which every way to stop or end takes
to the invariant; an event and a reset of an idle block keep it. -/
theorem stepKeepsInvariant : Obligations.StepKeepsInvariant := by
  intro s t hs h
  cases hb : s.busy with
  | true =>
    rw [step_busy hb] at h
    exact (hs.running hb).inv_exec h
  | false =>
    obtain ⟨-, -, -, -, -, -, -, hflight⟩ := hs.idleDead hb
    rcases hi : s.inputs with _ | ⟨x, rest⟩
    · rw [step_idle hb hi] at h
      cases h
      exact hs
    · cases x with
      | command w o =>
        rw [step_command hb hi] at h
        exact (running_accept w o (s := { s with inputs := rest }) hs.memory).inv_exec h
      | commandCut w o n =>
        rw [step_commandCut hb hi] at h
        exact (running_accept_cutAt w o n (s := { s with inputs := rest }) hs.memory).inv_exec h
      | env e =>
        rw [step_env hb hi, takeEvent] at h
        split at h
        · rename_i u hu
          cases h
          exact hs.event hb hu
        · cases h
      | blockReset =>
        rw [step_blockReset hb hi] at h
        cases h
        have hissued := issued_of_none hflight
        exact inv_blockReset (u := { s with inputs := rest }) hs.memory
          (hissued ▸ hs.issuedShort) (hissued ▸ hs.issuedIssuable)

end Sys2Proof.Machine
end

