-- ==== Sys2Proof/Proofs/Registers.lean ====
section
/-! The obligations about the register file and the chip's own moves (20_memory.md R63, R66, R76). -/

namespace Sys2Proof.Machine

/-! ### Writes -/

theorem Txn.inMap_write_iff (a : Byte) (data : List Byte) :
    (Txn.write a data).inMap = true ↔ 1 ≤ data.length ∧ a.toNat + data.length ≤ regCount := by
  simp [Txn.inMap]

/-- A burst write stores byte `k` at the `k`-th register of the burst. -/
theorem Memory.get_storeBytes_at (data : List Byte) (m : Memory) (a : Nat) {k : Nat}
    (hk : k < data.length) : (m.storeBytes a data).get (a + k) = data.getD k 0 := by
  rw [get_storeBytes, if_pos (by omega), Nat.add_sub_cancel_left]

/-- A failed write stores byte `k` at the `k`-th register where it landed. -/
theorem Memory.get_storeLanded_at (data : List Byte) (landed : List Bool) (m : Memory) (a : Nat)
    {k : Nat} (hk : k < data.length) : (m.storeLanded a landed data).get (a + k) =
      if landed.getD k false then data.getD k 0 else m.get (a + k) := by
  rw [get_storeLanded, Nat.add_sub_cancel_left]
  exact if_congr ⟨fun h => h.2.2, fun h => ⟨by omega, by omega, h⟩⟩ rfl rfl

/-- A failed burst write leaves every other cell alone. -/
theorem Memory.get_storeLanded_outside (data : List Byte) (landed : List Bool) (m : Memory)
    (a b : Nat) (h : b < a ∨ a + data.length ≤ b) :
    (m.storeLanded a landed data).get b = m.get b := by
  rw [get_storeLanded, if_neg (by omega)]

/-- Settles O33: a quiet write ends with the burst stored. -/
theorem writeStoresItsBytesOnly : Obligations.WriteStoresItsBytesOnly := by
  intro a data take s hlen ha hf hs
  have ht : (Txn.write a data).inMap = true := (Txn.inMap_write_iff a data).2 ⟨hlen, ha⟩
  exact ⟨_, transact_quiet ht hf hs, fun k hk => Memory.get_storeBytes_at data s.mem a.toNat hk,
    fun x hx => Memory.get_storeBytes_outside data s.mem a.toNat x hx⟩

/-- Settles O34: a failed write ends with the bytes that landed stored. -/
theorem failedWriteLeavesOldOrNew : Obligations.FailedWriteLeavesOldOrNew := by
  intro a data take s l hlen ha hf hs
  have ht : (Txn.write a data).inMap = true := (Txn.inMap_write_iff a data).2 ⟨hlen, ha⟩
  exact ⟨_, transact_fail ht hf hs, fun k hk => Memory.get_storeLanded_at data l s.mem a.toNat hk,
    fun x hx => Memory.get_storeLanded_outside data l s.mem a.toNat x hx⟩

/-! ### The canonical form -/

/-- In canonical form a register is listed exactly where it differs from what an unlisted one reads as. -/
theorem Memory.lookup_of_wf {m : Memory} (h : m.wf = true) (a : Nat) :
    m.lookup a = if m.get a = unlisted a then none else some (m.get a) := by
  obtain ⟨hsorted, hcells⟩ := (wf_iff m).1 h
  unfold get
  cases hl : m.lookup a with
  | none => simp
  | some v =>
    have hv : v ≠ unlisted a := (hcells _ ((lookup_eq_some_iff hsorted a v).1 hl)).2
    simp [hv]

theorem Memory.lookup_outside {m : Memory} (h : m.wf = true) {a : Nat} (ha : regCount ≤ a) :
    m.lookup a = none := by
  obtain ⟨hsorted, hcells⟩ := (wf_iff m).1 h
  cases hl : m.lookup a with
  | none => rfl
  | some v =>
    have hlt : a < regCount := (hcells _ ((lookup_eq_some_iff hsorted a v).1 hl)).1
    omega

/-- A cell list in canonical form is determined by its lookups. -/
theorem Memory.eq_of_lookup {m m' : Memory} (h : m.wf = true) (h' : m'.wf = true)
    (heq : ∀ a, m.lookup a = m'.lookup a) : m = m' := by
  obtain ⟨hsorted, -⟩ := (wf_iff m).1 h
  obtain ⟨hsorted', -⟩ := (wf_iff m').1 h'
  have hmem : ∀ c : Host.Cell, c ∈ m ↔ c ∈ m' := by
    intro c
    rw [← lookup_eq_some_iff hsorted, ← lookup_eq_some_iff hsorted', heq]
  have hnodup : m.Nodup := hsorted.imp fun {c d} hlt heq => by rw [heq] at hlt; omega
  have hnodup' : m'.Nodup := hsorted'.imp fun {c d} hlt heq => by rw [heq] at hlt; omega
  exact ((List.perm_ext_iff_of_nodup hnodup hnodup').2 hmem).eq_of_pairwise
    (fun c d _ _ hcd hdc => absurd hcd (by omega)) hsorted hsorted'

/-- Settles O36: in canonical form the registers determine the lookups, and these the list. -/
theorem canonicalRegistersAreDetermined : Obligations.CanonicalRegistersAreDetermined := by
  intro m m' h h' hget
  refine Memory.eq_of_lookup h h' fun a => ?_
  by_cases ha : a < 18
  · rw [Memory.lookup_of_wf h, Memory.lookup_of_wf h', hget a ha]
  · rw [Memory.lookup_outside h (Nat.le_of_not_lt ha),
      Memory.lookup_outside h' (Nat.le_of_not_lt ha)]

/-! ### The chip's own moves -/

/-- The clock move stores seven bytes from 0x04 on, the first with its integrity bit as it was. -/
theorem ChipMove.clock_get (b : RawTimeBlock) (m : Memory) (x : Nat) :
    ((ChipMove.clock b).apply m).get x =
      if 4 ≤ x ∧ x < 11 then
        (RawTimeBlock.toBytes { b with
          seconds := mergeBits (m.get 4) (~~~secOS) b.seconds }).getD (x - 4) 0
      else m.get x :=
  Memory.get_storeBytes _ m 4 x

theorem ChipMove.clock_get_outside (b : RawTimeBlock) (m : Memory) {x : Nat}
    (h : x < 4 ∨ 10 < x) : ((ChipMove.clock b).apply m).get x = m.get x := by
  rw [clock_get, if_neg (by omega)]

theorem ChipMove.clock_get_seconds (b : RawTimeBlock) (m : Memory) :
    ((ChipMove.clock b).apply m).get 4 = mergeBits (m.get 4) (~~~secOS) b.seconds := by
  rw [clock_get, if_pos (by decide)]
  rfl

theorem ChipMove.raiseTF_get (m : Memory) (x : Nat) :
    (ChipMove.raiseTF.apply m).get x = if x = 1 then setBits (m.get 1) ctrl2TF else m.get x :=
  Memory.get_set m 1 x _

theorem ChipMove.raiseAF_get (m : Memory) (x : Nat) :
    (ChipMove.raiseAF.apply m).get x = if x = 1 then setBits (m.get 1) ctrl2AF else m.get x :=
  Memory.get_set m 1 x _

theorem ChipMove.raiseOS_get (m : Memory) (x : Nat) :
    (ChipMove.raiseOS.apply m).get x = if x = 4 then setBits (m.get 4) secOS else m.get x :=
  Memory.get_set m 4 x _

theorem ChipMove.countdown_get (v : Byte) (m : Memory) (x : Nat) :
    ((ChipMove.countdown v).apply m).get x = if x = 0x10 then v else m.get x :=
  Memory.get_set m 0x10 x v

/-- The integrity bit of a seconds byte is bit 7 (R31). -/
theorem osOf_mergeBits (old new : Byte) : osOf (mergeBits old (~~~secOS) new) = osOf old := by
  rw [osOf_eq, osOf_eq]
  simp [mergeBits, secOS]

theorem setBits_TF : ∀ b : Byte, setBits b ctrl2TF &&& 0xB7 = b &&& 0xB7 ∧
    tfOf (setBits b ctrl2TF) = true ∧ bitSet (setBits b ctrl2TF) ctrl2AF = bitSet b ctrl2AF := by
  decide

theorem setBits_AF : ∀ b : Byte, setBits b ctrl2AF &&& 0xB7 = b &&& 0xB7 ∧
    bitSet (setBits b ctrl2AF) ctrl2AF = true ∧ tfOf (setBits b ctrl2AF) = tfOf b := by
  decide

theorem setBits_OS : ∀ b : Byte, setBits b secOS &&& 0x7F = b &&& 0x7F ∧
    osOf (setBits b secOS) = true := by decide

/-- No move of the chip reaches a register outside 0x01, 0x04 to 0x0A and 0x10. -/
theorem ChipMove.get_stable (c : ChipMove) (m : Memory) {x : Nat} (h1 : x ≠ 1)
    (htime : x < 4 ∨ 10 < x) (h10 : x ≠ 0x10) : (c.apply m).get x = m.get x := by
  cases c with
  | clock b => exact clock_get_outside b m htime
  | raiseTF => rw [raiseTF_get, if_neg h1]
  | raiseAF => rw [raiseAF_get, if_neg h1]
  | raiseOS => rw [raiseOS_get, if_neg (by omega)]
  | countdown v => rw [countdown_get, if_neg h10]

/-- What the chip's moves do to control register 2: the flags rise by their own move, the rest stays. -/
theorem ChipMove.ctrl2_get (c : ChipMove) (m : Memory) :
    (c = .raiseTF ∧ (c.apply m).get 1 = setBits (m.get 1) ctrl2TF) ∨
    (c = .raiseAF ∧ (c.apply m).get 1 = setBits (m.get 1) ctrl2AF) ∨
    (c ≠ .raiseTF ∧ c ≠ .raiseAF ∧ (c.apply m).get 1 = m.get 1) := by
  cases c with
  | clock b => exact .inr (.inr ⟨nofun, nofun, clock_get_outside b m (by decide)⟩)
  | raiseTF => exact .inl ⟨rfl, raiseTF_get m 1⟩
  | raiseAF => exact .inr (.inl ⟨rfl, raiseAF_get m 1⟩)
  | raiseOS => exact .inr (.inr ⟨nofun, nofun, raiseOS_get m 1⟩)
  | countdown v => exact .inr (.inr ⟨nofun, nofun, countdown_get v m 1⟩)

/-- What the chip's moves do to the seconds register: the clock keeps `OS`, the other move sets it. -/
theorem ChipMove.seconds_get (c : ChipMove) (m : Memory) :
    (∃ b, c = .clock b ∧ (c.apply m).get 4 = mergeBits (m.get 4) (~~~secOS) b.seconds) ∨
    (c = .raiseOS ∧ (c.apply m).get 4 = setBits (m.get 4) secOS) ∨
    ((∀ b, c ≠ .clock b) ∧ c ≠ .raiseOS ∧ (c.apply m).get 4 = m.get 4) := by
  cases c with
  | clock b => exact .inl ⟨b, rfl, clock_get_seconds b m⟩
  | raiseTF => exact .inr (.inr ⟨nofun, nofun, raiseTF_get m 4⟩)
  | raiseAF => exact .inr (.inr ⟨nofun, nofun, raiseAF_get m 4⟩)
  | raiseOS => exact .inr (.inl ⟨rfl, raiseOS_get m 4⟩)
  | countdown v => exact .inr (.inr ⟨nofun, nofun, countdown_get v m 4⟩)

/-- Settles O60: by the registers a move reaches, and what it does to 0x01 and 0x04. -/
theorem chipMovesStayWithinFree : Obligations.ChipMovesStayWithinFree := by
  intro c m
  have hctrl2 := c.ctrl2_get m
  have hseconds := c.seconds_get m
  obtain ⟨htfRest, htf, htfAF⟩ := setBits_TF (m.get 1)
  obtain ⟨hafRest, haf, hafTF⟩ := setBits_AF (m.get 1)
  obtain ⟨hosRest, hos⟩ := setBits_OS (m.get 4)
  refine ⟨fun x hx => c.get_stable m (by omega) (by omega) (by omega), ?_, ?_, ?_, ?_, ?_, ?_, ?_,
    ?_, ?_, ?_⟩
  case refine_1 =>
    rcases hctrl2 with ⟨-, h⟩ | ⟨-, h⟩ | ⟨-, -, h⟩ <;> rw [h]
    · exact htfRest
    · exact hafRest
  case refine_2 =>
    rcases hctrl2 with ⟨-, h⟩ | ⟨-, h⟩ | ⟨-, -, h⟩ <;> rw [h]
    · exact fun _ => htf
    · exact hafTF.trans
    · exact id
  case refine_3 =>
    rcases hctrl2 with ⟨-, h⟩ | ⟨-, h⟩ | ⟨-, -, h⟩ <;> rw [h]
    · exact htfAF.trans
    · exact fun _ => haf
    · exact id
  case refine_4 =>
    rcases hseconds with ⟨b, -, h⟩ | ⟨-, h⟩ | ⟨-, -, h⟩ <;> rw [h]
    · exact (osOf_mergeBits _ _).trans
    · exact fun _ => hos
    · exact id
  case refine_5 =>
    intro hclock x hx
    cases c with
    | clock b => exact absurd rfl (hclock b)
    | raiseTF => rw [ChipMove.raiseTF_get, if_neg (by omega)]
    | raiseAF => rw [ChipMove.raiseAF_get, if_neg (by omega)]
    | raiseOS => rw [ChipMove.raiseOS_get, if_neg (by omega)]
    | countdown v => rw [ChipMove.countdown_get, if_neg (by omega)]
  case refine_6 =>
    intro hclock
    rcases hseconds with ⟨b, hc, -⟩ | ⟨-, h⟩ | ⟨-, -, h⟩
    · exact absurd hc (hclock b)
    · rw [h, hosRest]
    · rw [h]
  case refine_7 =>
    intro hraise
    rcases hseconds with ⟨b, -, h⟩ | ⟨hc, -⟩ | ⟨-, -, h⟩
    · rw [h, osOf_mergeBits]
    · exact absurd hc hraise
    · rw [h]
  case refine_8 =>
    intro hcount
    cases c with
    | clock b => exact ChipMove.clock_get_outside b m (by decide)
    | countdown v => exact absurd rfl (hcount v)
    | raiseTF => exact ChipMove.raiseTF_get m 0x10
    | raiseAF => exact ChipMove.raiseAF_get m 0x10
    | raiseOS => exact ChipMove.raiseOS_get m 0x10
  case refine_9 =>
    intro hraise
    rcases hctrl2 with ⟨hc, -⟩ | ⟨-, h⟩ | ⟨-, -, h⟩
    · exact absurd hc hraise
    · rw [h, hafTF]
    · rw [h]
  case refine_10 =>
    intro hraise
    rcases hctrl2 with ⟨-, h⟩ | ⟨hc, -⟩ | ⟨-, -, h⟩
    · rw [h, htfAF]
    · exact absurd hc hraise
    · rw [h]

end Sys2Proof.Machine
end

