-- ==== Sys2Proof/Proofs/FrameRules.lean ====
section
/-! SUPPORT. What a step can do to a register, said once: the events before its transaction, then the
transaction whole or in part; and the bits of a register that a whole command keeps, its `Update`s
writing them back as they were read. -/

namespace Sys2Proof.Machine

/-! ### The registers after a step -/

/-- The registers a step with a transaction leaves: those after the events before it, with all of its
bytes stored or some of them (none, where it is a read or has not returned). -/
theorem perform_mem {i : Instr} {c : CmdStep} (hc : c ∈ stepsOf i) {s u : State} {t : Txn}
    (ht : c.txn s = some t) (h : (c.perform s).state = some u) :
    ∃ s1, applyEvents s.nextSlot.before { s with slots := s.slots.tail } = some s1 ∧
      u.busReady = s1.busReady ∧
      (u.mem = t.store s1.mem ∨ ∃ landed, u.mem = t.storePart landed s1.mem) := by
  obtain ⟨rfl, -⟩ | ⟨t', ht', -, ⟨-, hp⟩ | ⟨s1, he, hp⟩⟩ := perform_cases hc s
  · cases ht
  · rw [hp] at h; cases h
  · cases ht.symm.trans ht'
    refine ⟨s1, he, ?_⟩
    rw [hp] at h
    unfold settle at h
    split at h <;> cases h
    · rw [CmdStep.latch_eq]; exact ⟨rfl, .inl rfl⟩
    · exact ⟨rfl, .inr ⟨_, rfl⟩⟩
    · exact ⟨rfl, .inr ⟨[], (Txn.storePart_nil t _).symm⟩⟩
    · exact ⟨rfl, .inr ⟨_, rfl⟩⟩
    · exact ⟨rfl, .inr ⟨_, rfl⟩⟩

/-- Sampling `BUS_READY` leaves the state. -/
theorem CmdStep.perform_noTxn {c : CmdStep} {s u : State} (ht : c.txn s = none)
    (h : (c.perform s).state = some u) : u = s := by
  cases c <;> simp only [CmdStep.txn, reduceCtorEq] at ht
  rw [perform_sampleReady] at h
  split at h <;> cases h <;> rfl

/-- What a step that completed has read stands in `tmp`, and in the register it was read from. -/
theorem perform_done_readTmp {i : Instr} {a : Byte} (hc : CmdStep.readTmp a ∈ stepsOf i)
    {s u : State} (h : (CmdStep.readTmp a).perform s = .done u) : u.tmp = u.mem.get a.toNat := by
  obtain ⟨h', -⟩ | ⟨t, ht, -, ⟨-, hp⟩ | ⟨s1, -, hp⟩⟩ := perform_cases hc s
  · cases h'
  · rw [hp] at h; cases h
  · cases ht
    rw [hp] at h
    unfold settle at h
    split at h <;> cases h
    rfl

/-- The write half of an `Update` stands behind its read half (20_memory.md R64). -/
theorem readTmp_before_writeBack {i : Instr} {n : Nat} {a mask val : Byte} {rest : List CmdStep}
    (h : (stepsOf i).drop n = .writeBack a mask val :: rest) :
    ∃ k, n = k + 1 ∧ (stepsOf i).drop k = .readTmp a :: .writeBack a mask val :: rest := by
  cases i <;> simp only [stepsOf, update, List.cons_append, List.nil_append] at h ⊢ <;>
    (rcases n with _ | _ | _ | _ | _ | n <;> simp at h) <;>
    (obtain ⟨⟨rfl, rfl, rfl⟩, rfl⟩ := h; exact ⟨_, rfl, rfl⟩)

/-! ### Bits a command keeps -/

/-- Whatever is stored, a step leaves the bits of `bits` in register `x` as they are, provided an
`Update` writes back what stood there. -/
def CmdStep.keepsBits (x : Nat) (bits : Byte) : CmdStep → Bool
  | .writeBack a mask _ => a.toNat != x || mask &&& bits == 0
  | .writeByte a _ => a.toNat != x
  | .writeBlock a => decide (x < a.toNat) || decide (a.toNat + blockLen ≤ x)
  | .sampleReady | .probe _ | .readTmp _ | .readBlock _ => true

/-- The bits outside the mask of an `Update` are those that were read. -/
theorem mergeBits_and {tmp mask val bits : Byte} (h : mask &&& bits = 0) :
    mergeBits tmp mask val &&& bits = tmp &&& bits := by
  have hbit : ∀ k, k < 8 → ¬(mask.getLsbD k = true ∧ bits.getLsbD k = true) := by
    intro k hk ⟨hm, hb⟩
    have := congrArg (·.getLsbD k) h
    simp [hm, hb] at this
  apply BitVec.eq_of_getLsbD_eq
  intro k hk
  have := hbit k hk
  simp only [mergeBits, BitVec.getLsbD_and, BitVec.getLsbD_or, BitVec.getLsbD_not, hk, decide_true,
    Bool.true_and]
  cases hm : mask.getLsbD k <;> cases hb : bits.getLsbD k <;> simp_all

/-- What a write of one byte leaves of the bits, if its byte has them. -/
theorem write_one_bits {a v bits old : Byte} {x : Nat} {m : Memory}
    (hm : m.get x &&& bits = old) (hv : a.toNat = x → v &&& bits = old) (landed : List Bool) :
    ((Txn.write a [v]).store m).get x &&& bits = old ∧
    ((Txn.write a [v]).storePart landed m).get x &&& bits = old := by
  constructor
  · rw [show (Txn.write a [v]).store m = m.set a.toNat v from rfl, Memory.get_set]
    split
    · rename_i hx; exact hv hx.symm
    · exact hm
  · rw [get_storePart_one]
    split
    · rename_i hx; exact hv hx.1.symm
    · exact hm

/-- A transaction of a step that keeps the bits keeps them, whole or in part. -/
theorem CmdStep.keepsBits_txn {c : CmdStep} {x : Nat} {bits old : Byte} {s : State} {t : Txn}
    {m : Memory} (hk : c.keepsBits x bits = true) (ht : c.txn s = some t)
    (htmp : ∀ a mask val, c = .writeBack a mask val → a.toNat = x → s.tmp &&& bits = old)
    (hm : m.get x &&& bits = old) (landed : List Bool) :
    (t.store m).get x &&& bits = old ∧ (t.storePart landed m).get x &&& bits = old := by
  cases c with
  | sampleReady => cases ht
  | probe a => cases ht; exact ⟨hm, hm⟩
  | readTmp a => cases ht; exact ⟨hm, hm⟩
  | readBlock a => cases ht; exact ⟨hm, hm⟩
  | writeByte a v =>
    cases ht
    have hne : a.toNat ≠ x := by simpa [keepsBits] using hk
    exact write_one_bits hm (fun hx => absurd hx hne) landed
  | writeBack a mask val =>
    cases ht
    refine write_one_bits hm (fun hx => ?_) landed
    have hmask : mask &&& bits = 0 := by simpa [keepsBits, hx] using hk
    rw [mergeBits_and hmask]
    exact htmp a mask val rfl hx
  | writeBlock a =>
    cases ht
    have hout : x < a.toNat ∨ a.toNat + s.blk.toBytes.length ≤ x :=
      (Bool.or_eq_true_iff.1 hk).imp of_decide_eq_true of_decide_eq_true
    rw [show ((Txn.write a s.blk.toBytes).store m).get x = m.get x from
        Memory.get_storeBytes_outside _ _ _ _ hout,
      show ((Txn.write a s.blk.toBytes).storePart landed m).get x = m.get x from
        Memory.get_storeLanded_outside _ _ _ _ _ hout]
    exact ⟨hm, hm⟩

/-- Before each step of a command that keeps the bits: they stand in the register, and in `tmp` where
the next step writes it back there; the coming events satisfy `p`. -/
structure BitsKept (i : Instr) (p : EnvEvent → Bool) (x : Nat) (bits old : Byte) (u : State) :
    Prop where
  events : u.slots.all (fun sl => sl.before.all p) = true
  mem : u.mem.get x &&& bits = old
  tmp : ∀ a mask val rest, (stepsOf i).drop u.step = .writeBack a mask val :: rest → a.toNat = x →
    u.tmp &&& bits = old

theorem events_nextSlot {p : EnvEvent → Bool} {s : State}
    (h : s.slots.all (fun sl => sl.before.all p) = true) : ∀ e ∈ s.nextSlot.before, p e = true := by
  unfold State.nextSlot
  cases hs : s.slots with
  | nil => simp [Slot.quiet]
  | cons sl l =>
    rw [hs, List.all_cons, Bool.and_eq_true, List.all_eq_true] at h
    exact h.1

/-- What a step leaves of the slots satisfies what the slots satisfied. -/
theorem CmdStep.perform_events {p : EnvEvent → Bool} {c : CmdStep} {s u : State}
    (h : (c.perform s).state = some u) (hs : s.slots.all (fun sl => sl.before.all p) = true) :
    u.slots.all (fun sl => sl.before.all p) = true := by
  obtain ⟨-, -, -, -, -, -, -, hslots, -⟩ := CmdStep.perform_keeps h
  rw [List.all_eq_true] at hs ⊢
  intro sl hsl
  rcases hslots with hu | hu | hu <;> rw [hu] at hsl
  · exact hs sl hsl
  · exact hs sl (List.mem_of_mem_tail hsl)
  · rcases List.mem_cons.1 hsl with rfl | hsl
    · rfl
    · exact hs sl (List.mem_of_mem_tail hsl)

/-- A command run from its first step keeps the bits of a register that its steps keep and that the
events between them keep. -/
theorem exec_bits {i : Instr} {p : EnvEvent → Bool} {x : Nat} {bits : Byte} {s t : State}
    (hev : ∀ {e : EnvEvent} {a b : State}, p e = true → e.apply a = some b →
      b.mem.get x &&& bits = a.mem.get x &&& bits)
    (hk : (stepsOf i).all (CmdStep.keepsBits x bits) = true)
    (hp : s.slots.all (fun sl => sl.before.all p) = true) (hstep : s.step = 0)
    (h : exec i s = .next t) : t.mem.get x &&& bits = s.mem.get x &&& bits := by
  have hkeep : ∀ {c : CmdStep} {rest : List CmdStep} {u u' : State},
      BitsKept i p x bits (s.mem.get x &&& bits) u → (stepsOf i).drop u.step = c :: rest →
      (c.perform u).state = some u' → u'.mem.get x &&& bits = s.mem.get x &&& bits := by
    intro c rest u u' hu hd he
    have hmem := (drop_cons_mem hd).1
    cases ht : c.txn u with
    | none => rw [CmdStep.perform_noTxn ht he]; exact hu.mem
    | some t =>
      obtain ⟨s1, hs1, -, hst⟩ := perform_mem hmem ht he
      have hev1 : s1.mem.get x &&& bits = u.mem.get x &&& bits :=
        applyEvents_rel (R := fun a b => b.mem.get x &&& bits = a.mem.get x &&& bits)
          (s := { u with slots := u.slots.tail }) (fun _ => rfl) (fun h1 h2 => h2.trans h1) hev (events_nextSlot hu.events) hs1
      have hbits := CmdStep.keepsBits_txn (List.all_eq_true.1 hk c hmem) ht
        (fun a mask val hcw => hu.tmp a mask val rest (hcw ▸ hd)) (hev1.trans hu.mem)
      rcases hst with hst | ⟨landed, hst⟩ <;> rw [hst]
      · exact (hbits []).1
      · exact (hbits landed).2
  refine exec_next (P := BitsKept i p x bits (s.mem.get x &&& bits))
    (Q := fun u => u.mem.get x &&& bits = s.mem.get x &&& bits) ?_ ?_ ?_ ?_ ?_ ?_ ?_ h
  · intro c rest u u' hu hd hdone
    have he : (c.perform u).state = some u' := by rw [hdone]; rfl
    have hmem := hkeep hu hd he
    refine ⟨CmdStep.perform_events (u := u') he hu.events, hmem, ?_⟩
    intro a mask val rest' hd' hx
    rw [advance_step, CmdStep.perform_step he] at hd'
    obtain ⟨k, hk', hread⟩ := readTmp_before_writeBack hd'
    cases hk'
    cases hd.symm.trans hread
    rw [advance_tmp, perform_done_readTmp (drop_cons_mem hd).1 hdone, hx]
    exact hmem
  · exact fun c rest u k u' hu hd hr => hkeep (u' := u') hu hd (by rw [hr]; rfl)
  · exact fun c rest u u' hu hd hw => hkeep (u' := u') hu hd (by rw [hw]; rfl)
  · exact fun c rest u u' hu hd ha => hkeep (u' := u') hu hd (by rw [ha]; rfl)
  · exact fun u hu _ => hu.mem
  · intro u hu _ _
    rw [finishOf_mem]
    exact hu.mem
  · have h0 : BitsKept i p x bits (s.mem.get x &&& bits) s := by
      refine ⟨hp, rfl, fun a mask val rest hd => ?_⟩
      obtain ⟨k, hk', -⟩ := readTmp_before_writeBack hd
      rw [hstep] at hk'
      cases hk'
    cases i with
    | setTime c a => exact ⟨h0.events, h0.mem, h0.tmp⟩
    | _ => exact h0

end Sys2Proof.Machine
end

