-- ==== Sys2Proof/Proofs/Frame.lean ====
section
/-! The obligations about what commands leave alone (10_state.md R41, R49, 43_alarm.md R183,
70_reset_and_hazards.md R263). -/

namespace Sys2Proof.Machine

/-! ### One caller and a chip that moves by itself -/

/-- Under one caller an event leaves the registers or is a move of the chip. -/
theorem EnvEvent.chipOnly_mem {e : EnvEvent} {s t : State} (he : e.chipOnly = true)
    (h : e.apply s = some t) : t.mem = s.mem ∨ ∃ c : ChipMove, t.mem = c.apply s.mem := by
  cases e with
  | chip c => cases h; exact .inr ⟨c, rfl⟩
  | busReady b => cases h; exact .inl rfl
  | foreign n x f => cases he
  | powerEvent v => cases he

theorem EnvEvent.chipOnly_TF {e : EnvEvent} {s t : State} (he : e.chipOnly = true)
    (h : e.apply s = some t) (hTF : tfOf (s.mem.get 1) = true) : tfOf (t.mem.get 1) = true := by
  obtain hm | ⟨c, hm⟩ := chipOnly_mem he h <;> rw [hm]
  · exact hTF
  · obtain ⟨-, -, hkeep, -⟩ := chipMovesStayWithinFree c s.mem
    exact hkeep hTF

theorem EnvEvent.chipOnly_OS {e : EnvEvent} {s t : State} (he : e.chipOnly = true)
    (h : e.apply s = some t) (hOS : osOf (s.mem.get 4) = true) : osOf (t.mem.get 4) = true := by
  obtain hm | ⟨c, hm⟩ := chipOnly_mem he h <;> rw [hm]
  · exact hOS
  · obtain ⟨-, -, -, -, hkeep, -⟩ := chipMovesStayWithinFree c s.mem
    exact hkeep hOS

theorem EnvEvent.chipOnly_stable {e : EnvEvent} {s t : State} {x : Nat} (hx : x ≠ 1)
    (htime : x < 4 ∨ 10 < x) (h10 : x ≠ 0x10) (he : e.chipOnly = true) (h : e.apply s = some t) :
    t.mem.get x = s.mem.get x := by
  obtain hm | ⟨c, hm⟩ := chipOnly_mem he h <;> rw [hm]
  exact c.get_stable s.mem hx htime h10

theorem and_AIE_of_and_B7 : ∀ b : Byte, b &&& ctrl2AIE = (b &&& 0xB7) &&& ctrl2AIE := by decide

theorem EnvEvent.chipOnly_AIE {e : EnvEvent} {s t : State} (he : e.chipOnly = true)
    (h : e.apply s = some t) : t.mem.get 1 &&& ctrl2AIE = s.mem.get 1 &&& ctrl2AIE := by
  obtain hm | ⟨c, hm⟩ := chipOnly_mem he h <;> rw [hm]
  obtain ⟨-, hkeep, -⟩ := chipMovesStayWithinFree c s.mem
  rw [and_AIE_of_and_B7, and_AIE_of_and_B7 (s.mem.get 1), hkeep]

theorem slots_of_everyEvent {p : EnvEvent → Bool} {s : State} (h : s.everyEvent p = true) :
    s.slots.all (fun sl => sl.before.all p) = true :=
  (Bool.and_eq_true_iff.1 h).2

/-! ### The cells of the access matrix -/

/-- Only the two alarm commands write control register 2. -/
theorem writesCell_ctrl2 {i : Instr} (h7 : i.op ≠ 0x7) (h8 : i.op ≠ 0x8) :
    writesCell (accesses i) 1 = false := by
  cases i with
  | setAlarm c a => exact absurd rfl h7
  | cancelAlarm c a => exact absurd rfl h8
  | _ => rfl

/-- Only SET_TIME writes the seconds register. -/
theorem writesCell_seconds {i : Instr} (h6 : i.op ≠ 0x6) : writesCell (accesses i) 4 = false := by
  cases i with
  | setTime c a => exact absurd rfl h6
  | _ => rfl

/-- No command writes an unused register. -/
theorem writesCell_unused (i : Instr) {x : Nat} (hx : x = 0x03 ∨ (0x0B ≤ x ∧ x ≤ 0x0F)) :
    writesCell (accesses i) x = false := by
  have hx' : x = 3 ∨ x = 11 ∨ x = 12 ∨ x = 13 ∨ x = 14 ∨ x = 15 := by omega
  rcases hx' with rfl | rfl | rfl | rfl | rfl | rfl <;> cases i <;> rfl

/-- Settles O25: the chip never clears `TF`, and no other command writes its register. -/
theorem timerFlagStaysUntilAlarmCommands : Obligations.TimerFlagStaysUntilAlarmCommands := by
  intro i s t he hTF h7 h8 h
  exact exec_cell (ρ := fun a b => tfOf a = true → tfOf b = true) (fun _ => id)
    (fun h1 h2 => h2 ∘ h1) EnvEvent.chipOnly_TF (slots_of_everyEvent he) (writesCell_ctrl2 h7 h8) h
    hTF

/-- Settles O52: no command writes these registers and no move of the chip reaches them. -/
theorem unusedRegistersStay : Obligations.UnusedRegistersStay := by
  intro s t he h x hx
  have hev : ∀ {e : EnvEvent} {a b : State}, e.chipOnly = true → e.apply a = some b →
      b.mem.get x = a.mem.get x :=
    EnvEvent.chipOnly_stable (by omega) (by omega) (by omega)
  have hexec : ∀ (i : Instr) (u : State), exec i u = .next t → u.slots = s.slots → u.mem = s.mem →
      t.mem.get x = s.mem.get x := by
    intro i u hu hslots hmem
    rw [← hmem]
    exact exec_cell (ρ := fun a b => b = a) (fun _ => rfl) (fun h1 h2 => h2.trans h1) hev
      (hslots ▸ slots_of_everyEvent he) (writesCell_unused i hx) hu
  cases hb : s.busy with
  | true => rw [step_busy hb] at h; exact hexec _ s h rfl rfl
  | false =>
    rcases hi : s.inputs with _ | ⟨y, rest⟩
    · rw [step_idle hb hi] at h; cases h; rfl
    · obtain ⟨hy, -⟩ := everyEvent_tail hi he
      cases y with
      | command w o => rw [step_command hb hi] at h; exact hexec _ _ h rfl rfl
      | commandCut w o n => rw [step_commandCut hb hi] at h; exact hexec _ _ h rfl rfl
      | blockReset => rw [step_blockReset hb hi] at h; cases h; rfl
      | env e =>
        rw [step_env hb hi, takeEvent] at h
        split at h
        · rename_i u hu
          cases h
          exact hev (a := { s with inputs := rest }) (hy e (List.mem_singleton.2 rfl)) hu
        · cases h

/-! ### `STOP` and `AIE` are written back as read -/

/-- Testing a mask tests the bits under it. -/
theorem bitSet_congr {b b' mask : Byte} (h : b &&& mask = b' &&& mask) :
    bitSet b mask = bitSet b' mask := by
  rw [bitSet, bitSet, h]

/-- Every command but START and STOP keeps `STOP`, SET_CAP_SELECT by writing it back. -/
theorem keepsBits_STOP {i : Instr} (h3 : i.op ≠ 0x3) (h4 : i.op ≠ 0x4) :
    (stepsOf i).all (CmdStep.keepsBits 0 ctrl1Stop) = true := by
  cases i with
  | start c a => exact absurd rfl h3
  | stop c a => exact absurd rfl h4
  | _ => rfl

/-- Every command keeps `AIE`, the alarm commands by writing it back. -/
theorem keepsBits_AIE (i : Instr) : (stepsOf i).all (CmdStep.keepsBits 1 ctrl2AIE) = true := by
  cases i <;> rfl

/-- Settles O53: `OS` as a register that only SET_TIME writes, `STOP` and `AIE` as bits that are
outside the masks of the `Update`s. -/
theorem onlyNamedCommandsChangeOSAndSTOP : Obligations.OnlyNamedCommandsChangeOSAndSTOP := by
  intro i s t he hstep h
  have hslots := slots_of_everyEvent he
  refine ⟨fun hOS h6 => ?_, fun h3 h4 => ?_, ?_⟩
  · exact exec_cell (ρ := fun a b => osOf a = true → osOf b = true) (fun _ => id)
      (fun h1 h2 => h2 ∘ h1) EnvEvent.chipOnly_OS hslots (writesCell_seconds h6) h hOS
  · refine bitSet_congr (exec_bits (x := 0) ?_ (keepsBits_STOP h3 h4) hslots hstep h)
    intro e a b hp ha
    rw [EnvEvent.chipOnly_stable (by decide) (by decide) (by decide) hp ha]
  · exact bitSet_congr (exec_bits (x := 1) EnvEvent.chipOnly_AIE (keepsBits_AIE i) hslots hstep h)

/-! ### Nobody else acting -/

theorem silent_iff (s : State) :
    s.silent = true ↔ s.slots.all (fun sl => sl.before.all fun _ => false) = true := by
  have hslot : ∀ sl : Slot, (sl.before == []) = sl.before.all fun _ => false := by
    intro sl
    cases sl.before <;> rfl
  rw [State.silent, funext hslot]

theorem before_of_silent {s : State} (h : s.silent = true) : s.nextSlot.before = [] :=
  List.eq_nil_iff_forall_not_mem.2 fun e he => by
    cases events_nextSlot ((silent_iff s).1 h) e he

theorem CmdStep.perform_silent {c : CmdStep} {s u : State} (h : (c.perform s).state = some u)
    (hs : s.silent = true) : u.silent = true :=
  (silent_iff u).2 (CmdStep.perform_events h ((silent_iff s).1 hs))

/-- The draws a finish takes: one at most, and only where the command decodes. -/
theorem finishOf_draws (i : Instr) (u : State) :
    (finishOf i u).draws = u.draws ∨
      ((i.op = 0x1 ∨ i.op = 0x5) ∧ (finishOf i u).draws = u.draws + 1) := by
  have hdecode : ∀ b, (respondDecoded b u).draws = u.draws ∨
      (respondDecoded b u).draws = u.draws + 1 := by
    intro b
    unfold respondDecoded
    split
    · exact .inl rfl
    · split
      · exact .inl rfl
      · exact .inr rfl
  cases i with
  | decode c a => exact (hdecode u.opnd.block).imp_right fun h => ⟨.inl rfl, h⟩
  | getTime c a => exact (hdecode u.blk).imp_right fun h => ⟨.inr rfl, h⟩
  | _ => exact .inl rfl

/-- Before each step of a command, nobody else acting: `BUS_READY`, the host's script and the draws
stand as at its start. -/
structure Undisturbed (s u : State) : Prop where
  silent : u.silent = true
  busReady : u.busReady = s.busReady
  inputs : u.inputs = s.inputs
  draws : u.draws = s.draws

theorem Undisturbed.perform {i : Instr} {s u u' : State} {c : CmdStep} (hc : c ∈ stepsOf i)
    (hu : Undisturbed s u) (h : (c.perform u).state = some u') : Undisturbed s u' := by
  obtain ⟨-, -, -, -, -, hinputs, hdraws, -⟩ := CmdStep.perform_keeps h
  refine ⟨CmdStep.perform_silent h hu.silent, ?_, hinputs.trans hu.inputs, hdraws.trans hu.draws⟩
  cases ht : c.txn u with
  | none => rw [CmdStep.perform_noTxn ht h]; exact hu.busReady
  | some t =>
    obtain ⟨s1, hs1, hready, -⟩ := perform_mem hc ht h
    rw [before_of_silent hu.silent, applyEvents_nil] at hs1
    cases hs1
    exact hready.trans hu.busReady

/-- What a command leaves, nobody else acting, but for the registers. -/
theorem exec_undisturbed {i : Instr} {s t : State} (hs : s.silent = true) (h : exec i s = .next t) :
    t.busReady = s.busReady ∧ t.inputs = s.inputs ∧
      (t.draws = s.draws ∨ ((i.op = 0x1 ∨ i.op = 0x5) ∧ t.draws = s.draws + 1)) := by
  refine exec_next (P := Undisturbed s) (Q := fun t => t.busReady = s.busReady ∧
    t.inputs = s.inputs ∧
      (t.draws = s.draws ∨ ((i.op = 0x1 ∨ i.op = 0x5) ∧ t.draws = s.draws + 1))) ?_ ?_ ?_ ?_ ?_ ?_
    ?_ h
  · intro c rest u u' hu hd hp
    obtain ⟨h1, h2, h3, h4⟩ := hu.perform (u' := u') (drop_cons_mem hd).1 (by rw [hp]; rfl)
    exact ⟨h1, h2, h3, h4⟩
  · intro c rest u k u' hu hd hp
    obtain ⟨-, h2, h3, h4⟩ := hu.perform (u' := u') (drop_cons_mem hd).1 (by rw [hp]; rfl)
    exact ⟨h2, h3, .inl h4⟩
  · intro c rest u u' hu hd hp
    obtain ⟨-, h2, h3, h4⟩ := hu.perform (u' := u') (drop_cons_mem hd).1 (by rw [hp]; rfl)
    exact ⟨h2, h3, .inl h4⟩
  · intro c rest u u' hu hd hp
    obtain ⟨-, h2, h3, h4⟩ := hu.perform (u' := u') (drop_cons_mem hd).1 (by rw [hp]; rfl)
    exact ⟨h2, h3, .inl h4⟩
  · exact fun u hu _ => ⟨hu.busReady, hu.inputs, .inl hu.draws⟩
  · intro u hu _ _
    rw [finishOf_busReady, finishOf_inputs, ← hu.draws]
    exact ⟨hu.busReady, hu.inputs, finishOf_draws i u⟩
  · have h0 : Undisturbed s s := ⟨hs, rfl, rfl, rfl⟩
    cases i with
    | setTime c a => exact ⟨h0.silent, h0.busReady, h0.inputs, h0.draws⟩
    | _ => exact h0

/-- Settles O51: a register outside the cells of the matrix is changed by other agents alone, and the
rest by the finish alone. -/
theorem frameOfEveryCommand : Obligations.FrameOfEveryCommand := by
  intro i s t hs h
  obtain ⟨hready, hinputs, hdraws⟩ := exec_undisturbed hs h
  refine ⟨fun x hx => ?_, hready, hinputs, fun h1 h5 => ?_, hdraws.imp_right And.right⟩
  · exact exec_cell (ρ := fun a b => b = a) (p := fun _ => false) (fun _ => rfl)
      (fun h1 h2 => h2.trans h1) nofun ((silent_iff s).1 hs) hx h
  · exact hdraws.resolve_right fun h => h.1.elim h1 h5

end Sys2Proof.Machine
end

