-- ==== Sys2Proof/Proofs/QuietRuns.lean ====
section
/-! SUPPORT. A command whose transactions complete while nobody acts, as a function: the state after
each step, the lines of the trace, and what each register becomes. The claims about commands under a
quiet script, up to a transaction that fails, hangs or is cut, are read off it. -/

namespace Sys2Proof.Machine

/-! ### One quiet step -/

/-- The state after a step whose transaction completes while nobody acts. -/
def CmdStep.quietly (c : CmdStep) (s : State) : State :=
  match c.txn s with
  | none => s.advance
  | some t => (c.latch (t.bytesRead s.mem) { s with
      slots := s.slots.tail, trace := s.trace ++ [⟨t, t.okOutcome s.mem⟩],
      mem := t.store s.mem, inFlight := none }).advance

/-- The line a quiet step adds to the trace. -/
def CmdStep.quietRecord (c : CmdStep) (s : State) : List TxnRecord :=
  ((c.txn s).map fun t => ⟨t, t.okOutcome s.mem⟩).toList

section
variable (c : CmdStep) (s : State)

@[simp] theorem quietly_busy : (c.quietly s).busy = s.busy := by cases c <;> rfl
@[simp] theorem quietly_cmd : (c.quietly s).cmd = s.cmd := by cases c <;> rfl
@[simp] theorem quietly_opnd : (c.quietly s).opnd = s.opnd := by cases c <;> rfl
@[simp] theorem quietly_step : (c.quietly s).step = s.step + 1 := by cases c <;> rfl
@[simp] theorem quietly_cut : (c.quietly s).cut = s.cut := by cases c <;> rfl
@[simp] theorem quietly_rsp : (c.quietly s).rsp = s.rsp := by cases c <;> rfl
@[simp] theorem quietly_busReady : (c.quietly s).busReady = s.busReady := by cases c <;> rfl
@[simp] theorem quietly_inputs : (c.quietly s).inputs = s.inputs := by cases c <;> rfl
@[simp] theorem quietly_draws : (c.quietly s).draws = s.draws := by cases c <;> rfl

theorem quietly_slots : (c.quietly s).slots = s.slots.drop c.shape.toList.length := by
  cases c <;> first | exact List.drop_zero.symm | exact List.drop_one.symm

theorem quietly_trace : (c.quietly s).trace = s.trace ++ c.quietRecord s := by
  cases c <;> first | exact (List.append_nil _).symm | rfl

end

theorem quietly_inFlight (c : CmdStep) {s : State} (h : s.inFlight = none) :
    (c.quietly s).inFlight = none := by
  cases c <;> first | exact h | rfl

theorem quietly_of_txn {c : CmdStep} {s : State} {t : Txn} (ht : c.txn s = some t) :
    c.quietly s = (c.latch (t.bytesRead s.mem) { s with
      slots := s.slots.tail, trace := s.trace ++ [⟨t, t.okOutcome s.mem⟩],
      mem := t.store s.mem, inFlight := none }).advance := by
  rw [CmdStep.quietly, ht]

theorem quietly_mem {c : CmdStep} {s : State} {t : Txn} (ht : c.txn s = some t) :
    (c.quietly s).mem = t.store s.mem := by
  rw [quietly_of_txn ht, advance_mem, CmdStep.latch_eq]

/-- A step of a command is quiet where its slot is and `BUS_READY` is 1. -/
theorem perform_quietly {i : Instr} {c : CmdStep} (hc : c ∈ stepsOf i) {s : State}
    (hf : s.inFlight = none) (hready : c.shape = none → s.busReady = true)
    (hq : c.shape ≠ none → s.nextSlot = .quiet) :
    ∃ u, c.perform s = .done u ∧ u.advance = c.quietly s := by
  cases ht : c.txn s with
  | none =>
    cases c <;> simp only [CmdStep.txn, reduceCtorEq] at ht
    exact ⟨s, by rw [CmdStep.perform_sampleReady, hready rfl, if_pos rfl], rfl⟩
  | some t =>
    have hshape : c.shape ≠ none := by rw [CmdStep.shape_eq c s, ht]; nofun
    exact ⟨_, CmdStep.perform_quiet ht (stepsOf_inMap hc ht) hf (hq hshape),
      (quietly_of_txn ht).symm⟩

/-! ### A quiet run -/

/-- The state after steps whose transactions complete while nobody acts. -/
def quietRun (l : List CmdStep) (s : State) : State := l.foldl (fun u c => c.quietly u) s

/-- The lines such steps add to the trace. -/
def quietRecords : List CmdStep → State → List TxnRecord
  | [], _ => []
  | c :: rest, s => c.quietRecord s ++ quietRecords rest (c.quietly s)

@[simp] theorem quietRun_nil (s : State) : quietRun [] s = s := rfl
@[simp] theorem quietRun_cons (c : CmdStep) (l : List CmdStep) (s : State) :
    quietRun (c :: l) s = quietRun l (c.quietly s) := rfl

theorem quietRun_append (l l' : List CmdStep) (s : State) :
    quietRun (l ++ l') s = quietRun l' (quietRun l s) := List.foldl_append

/-- What quiet steps leave of the state: everything but the registers and the data latches. -/
theorem quietRun_keeps (l : List CmdStep) (s : State) :
    (quietRun l s).busy = s.busy ∧ (quietRun l s).cmd = s.cmd ∧ (quietRun l s).opnd = s.opnd ∧
    (quietRun l s).step = s.step + l.length ∧ (quietRun l s).cut = s.cut ∧
    (quietRun l s).rsp = s.rsp ∧ (quietRun l s).busReady = s.busReady ∧
    (quietRun l s).inputs = s.inputs ∧ (quietRun l s).draws = s.draws ∧
    (quietRun l s).slots = s.slots.drop (l.filterMap CmdStep.shape).length ∧
    (quietRun l s).trace = s.trace ++ quietRecords l s := by
  induction l generalizing s with
  | nil => simp [quietRecords]
  | cons c l ih =>
    obtain ⟨h1, h2, h3, h4, h5, h6, h7, h8, h9, h10, h11⟩ := ih (c.quietly s)
    simp only [quietRun_cons, h1, h2, h3, h4, h5, h6, h7, h8, h9, h10, h11, quietly_busy, quietly_cmd,
      quietly_opnd, quietly_step, quietly_cut, quietly_rsp, quietly_busReady, quietly_inputs,
      quietly_draws, quietly_slots, quietly_trace, quietRecords, List.append_assoc, List.drop_drop,
      List.length_cons, true_and, and_true]
    refine ⟨by omega, ?_⟩
    congr 1
    cases hc : c.shape with
    | none => simp [hc]
    | some x => simp [hc]; omega

theorem quietRun_inFlight (l : List CmdStep) {s : State} (h : s.inFlight = none) :
    (quietRun l s).inFlight = none := by
  induction l generalizing s with
  | nil => exact h
  | cons c l ih => exact ih (quietly_inFlight c h)

theorem length_quietRecords (l : List CmdStep) (s : State) :
    (quietRecords l s).length = (l.filterMap CmdStep.shape).length := by
  induction l generalizing s with
  | nil => rfl
  | cons c l ih =>
    rw [quietRecords, List.length_append, ih, CmdStep.quietRecord]
    rw [List.filterMap_cons, CmdStep.shape_eq c s]
    cases c.txn s <;> simp [Nat.add_comm]

theorem quietRecords_append (l l' : List CmdStep) (s : State) :
    quietRecords (l ++ l') s = quietRecords l s ++ quietRecords l' (quietRun l s) := by
  induction l generalizing s with
  | nil => rfl
  | cons c l ih => simp only [List.cons_append, quietRecords, ih, List.append_assoc, quietRun_cons]

/-- The sequencer runs quiet steps as their function. -/
theorem runSteps_quietRun {i : Instr} {finish : State → State} {pre rest : List CmdStep} {s : State}
    (hpre : ∀ c ∈ pre, c ∈ stepsOf i) (hcut : ∀ n, s.cut = some n → s.step + pre.length ≤ n)
    (hf : s.inFlight = none) (hready : ∀ c ∈ pre, c.shape = none → s.busReady = true)
    (hq : s.quietFor (pre.filterMap CmdStep.shape).length) :
    runSteps finish (pre ++ rest) s = runSteps finish rest (quietRun pre s) := by
  induction pre generalizing s with
  | nil => rfl
  | cons c pre ih =>
    obtain ⟨hc, hpre⟩ := List.forall_mem_cons.1 hpre
    obtain ⟨hready0, hready⟩ := List.forall_mem_cons.1 hready
    have hnow : s.isCut = false := by
      rw [Bool.eq_false_iff, Ne, isCut_iff]
      intro h
      have := hcut _ h
      rw [List.length_cons] at this
      omega
    have hslot : c.shape ≠ none → s.nextSlot = .quiet := by
      intro hne
      obtain ⟨x, hx⟩ := Option.ne_none_iff_exists'.1 hne
      rw [List.filterMap_cons, hx] at hq
      exact quietFor_nextSlot hq
    obtain ⟨u, hu, hadv⟩ := perform_quietly hc hf hready0 hslot
    rw [List.cons_append, runSteps_done' hnow hu, hadv, quietRun_cons]
    refine ih hpre ?_ (quietly_inFlight c hf) (by simpa using hready) ?_
    · intro n hn
      have := hcut n (by simpa using hn)
      rw [List.length_cons] at this
      rw [quietly_step]
      omega
    · rw [List.filterMap_cons] at hq
      cases hx : c.shape with
      | none =>
        rw [hx] at hq
        intro j hj
        rw [quietly_slots, hx]
        exact hq j hj
      | some x =>
        rw [hx] at hq
        exact quietFor_tail hq (by rw [quietly_slots, hx]; exact List.drop_one)

/-! ### A quiet command -/

/-- The state of a command begun in `s` after its first `n` steps, all quiet. -/
def quietAt (i : Instr) (n : Nat) (s : State) : State :=
  quietRun ((stepsOf i).take n) (prepare i s)

/-- The lines of the trace of a quiet command. -/
def recordsOf (i : Instr) (s : State) : List TxnRecord := quietRecords (stepsOf i) (prepare i s)

/-- The transactions of the first `n` steps. -/
theorem filterMap_shape_take (i : Instr) (n : Nat) :
    ((stepsOf i).take n).filterMap CmdStep.shape = (accesses i).take (n - leadSteps i) := by
  have hid : ∀ l : List CmdStep, l.filterMap CmdStep.shape = (l.map CmdStep.shape).filterMap id := by
    intro l
    rw [List.filterMap_map]
    rfl
  rw [hid, List.map_take, stepsOf_map_shape, List.take_append, List.filterMap_append,
    List.length_replicate, List.take_replicate, ← List.map_take, List.filterMap_map]
  simp

theorem length_filterMap_shape_take {i : Instr} {n : Nat} (hn : n ≤ (stepsOf i).length) :
    (((stepsOf i).take n).filterMap CmdStep.shape).length = n - leadSteps i := by
  rw [length_stepsOf] at hn
  rw [filterMap_shape_take, List.length_take]
  omega

/-- The first step of INIT is the only one without a transaction. -/
theorem leadSteps_of_shape_none {i : Instr} {c : CmdStep} {n : Nat} (hc : c ∈ (stepsOf i).take n)
    (hs : c.shape = none) : leadSteps i ≠ 0 ∧ n ≠ 0 := by
  constructor
  · intro hlead
    have hmem : c.shape ∈ (stepsOf i).map CmdStep.shape :=
      List.mem_map_of_mem (List.mem_of_mem_take hc)
    rw [stepsOf_map_shape, hlead, hs] at hmem
    simp at hmem
  · rintro rfl
    cases hc

@[simp] theorem prepare_step (i : Instr) (s : State) : (prepare i s).step = s.step := by
  cases i <;> rfl
@[simp] theorem prepare_cut (i : Instr) (s : State) : (prepare i s).cut = s.cut := by
  cases i <;> rfl
@[simp] theorem prepare_inFlight (i : Instr) (s : State) : (prepare i s).inFlight = s.inFlight := by
  cases i <;> rfl
@[simp] theorem prepare_slots (i : Instr) (s : State) : (prepare i s).slots = s.slots := by
  cases i <;> rfl
@[simp] theorem prepare_busReady (i : Instr) (s : State) :
    (prepare i s).busReady = s.busReady := by cases i <;> rfl
@[simp] theorem prepare_mem (i : Instr) (s : State) : (prepare i s).mem = s.mem := by
  cases i <;> rfl
@[simp] theorem prepare_trace (i : Instr) (s : State) : (prepare i s).trace = s.trace := by
  cases i <;> rfl
@[simp] theorem prepare_inputs (i : Instr) (s : State) : (prepare i s).inputs = s.inputs := by
  cases i <;> rfl
@[simp] theorem prepare_draws (i : Instr) (s : State) : (prepare i s).draws = s.draws := by
  cases i <;> rfl
@[simp] theorem prepare_rsp (i : Instr) (s : State) : (prepare i s).rsp = s.rsp := by
  cases i <;> rfl
@[simp] theorem prepare_busy (i : Instr) (s : State) : (prepare i s).busy = s.busy := by
  cases i <;> rfl
@[simp] theorem prepare_cmd (i : Instr) (s : State) : (prepare i s).cmd = s.cmd := by
  cases i <;> rfl
@[simp] theorem prepare_opnd (i : Instr) (s : State) : (prepare i s).opnd = s.opnd := by
  cases i <;> rfl

/-- What the first `n` steps of a quiet command leave. -/
theorem quietAt_keeps {i : Instr} {n : Nat} (hn : n ≤ (stepsOf i).length) {s : State}
    (hstep : s.step = 0) (hf : s.inFlight = none) :
    (quietAt i n s).step = n ∧ (quietAt i n s).inFlight = none ∧ (quietAt i n s).cut = s.cut ∧
    (quietAt i n s).busReady = s.busReady ∧ (quietAt i n s).inputs = s.inputs ∧
    (quietAt i n s).draws = s.draws ∧ (quietAt i n s).slots = s.slots.drop (n - leadSteps i) ∧
    (quietAt i n s).trace = s.trace ++ (recordsOf i s).take (n - leadSteps i) ∧
    (quietAt i n s).rsp = s.rsp ∧ (quietAt i n s).busy = s.busy ∧ (quietAt i n s).cmd = s.cmd ∧
    (quietAt i n s).opnd = s.opnd := by
  obtain ⟨h1, h2, h3, h4, h5, h6, h7, h8, h9, h10, h11⟩ :=
    quietRun_keeps ((stepsOf i).take n) (prepare i s)
  have hflight : (prepare i s).inFlight = none := by rw [prepare_inFlight, hf]
  have hrecords : quietRecords ((stepsOf i).take n) (prepare i s) =
      (recordsOf i s).take (n - leadSteps i) := by
    rw [recordsOf]
    conv_rhs => rw [← List.take_append_drop n (stepsOf i), quietRecords_append]
    rw [List.take_left' ((length_quietRecords _ _).trans (length_filterMap_shape_take hn))]
  refine ⟨?_, quietRun_inFlight _ hflight, h5.trans (prepare_cut i s),
    h7.trans (prepare_busReady i s), h8.trans (prepare_inputs i s), h9.trans (prepare_draws i s), ?_,
    ?_, h6.trans (prepare_rsp i s), h1.trans (prepare_busy i s), h2.trans (prepare_cmd i s),
    h3.trans (prepare_opnd i s)⟩
  · rw [quietAt, h4, prepare_step, hstep, List.length_take]
    omega
  · rw [quietAt, h10, prepare_slots, length_filterMap_shape_take hn]
  · rw [quietAt, h11, prepare_trace, hrecords]

/-- A command whose first `n` steps are quiet goes on from the state they leave. -/
theorem exec_quietAt {i : Instr} {n : Nat} (hn : n ≤ (stepsOf i).length) {s : State}
    (hstep : s.step = 0) (hf : s.inFlight = none) (hcut : ∀ m, s.cut = some m → n ≤ m)
    (hready : leadSteps i = 0 ∨ s.busReady = true ∨ n = 0) (hq : s.quietFor (n - leadSteps i)) :
    exec i s = runSteps (finishOf i) ((stepsOf i).drop n) (quietAt i n s) := by
  have hsplit := List.take_append_drop n (stepsOf i)
  have hlen : ((stepsOf i).take n).length = n := by rw [List.length_take]; omega
  have hslots : (prepare i s).quietFor (((stepsOf i).take n).filterMap CmdStep.shape).length := by
    rw [length_filterMap_shape_take hn]
    intro j hj
    rw [prepare_slots]
    exact hq j hj
  rw [exec_eq_start i hstep]
  conv_lhs => rw [← hsplit]
  refine runSteps_quietRun (i := i) (fun c hc => List.mem_of_mem_take hc) ?_ ?_ ?_ hslots
  · intro m hm
    rw [prepare_cut] at hm
    rw [prepare_step, hstep, hlen, Nat.zero_add]
    exact hcut m hm
  · rw [prepare_inFlight, hf]
  · intro c hc hs
    obtain ⟨hlead, hzero⟩ := leadSteps_of_shape_none hc hs
    rw [prepare_busReady]
    exact (hready.resolve_left hlead).resolve_right hzero

theorem quietAt_succ {i : Instr} {n : Nat} {c : CmdStep} (hc : (stepsOf i)[n]? = some c)
    (s : State) : quietAt i (n + 1) s = c.quietly (quietAt i n s) := by
  rw [quietAt, List.take_add_one, hc, quietRun_append]
  rfl

/-- A quiet command ends with its finish. -/
theorem exec_quiet {i : Instr} {s : State} (hs : s.begun)
    (hready : leadSteps i = 0 ∨ s.busReady = true) (hq : s.quietFor (accesses i).length) :
    exec i s = .next (finishOf i (quietAt i (stepsOf i).length s)) := by
  obtain ⟨hstep, hcut, hf⟩ := hs
  have hlen := length_stepsOf i
  obtain ⟨-, -, hcut', -⟩ := quietAt_keeps (Nat.le_refl (stepsOf i).length) hstep hf
  rw [exec_quietAt (Nat.le_refl _) hstep hf (fun m hm => by rw [hcut] at hm; cases hm)
    (hready.imp_right .inl) (by rw [hlen, Nat.add_sub_cancel_left]; exact hq),
    List.drop_length, runSteps_nil (hcut'.trans hcut)]

/-- The step of the transaction `k` of a command. -/
theorem step_of_access {i : Instr} {k : Nat} (hk : k < (accesses i).length) :
    ∃ c rest, (stepsOf i).drop (leadSteps i + k) = c :: rest ∧
      (stepsOf i)[leadSteps i + k]? = some c ∧ c ∈ stepsOf i ∧
      c.shape = some (accesses i)[k] := by
  have hlt : leadSteps i + k < (stepsOf i).length := by rw [length_stepsOf]; omega
  have hshape : ((stepsOf i).map CmdStep.shape)[leadSteps i + k]? = some (some (accesses i)[k]) := by
    rw [stepsOf_map_shape, List.getElem?_append_right (by simp)]
    simp [hk]
  have hget : (stepsOf i)[leadSteps i + k]? = some (stepsOf i)[leadSteps i + k] :=
    List.getElem?_eq_getElem hlt
  rw [List.getElem?_map, hget] at hshape
  exact ⟨_, _, List.drop_eq_getElem_cons hlt, hget, List.getElem_mem hlt, Option.some.inj hshape⟩

/-- A command up to its transaction `k`, the ones before it quiet: the step that issues it, in the
state before it, with its line of the quiet trace. -/
theorem exec_upTo {i : Instr} {s : State} {k : Nat} {x : BusAnswer} (hs : s.begun)
    (hready : leadSteps i = 0 ∨ s.busReady = true) (hk : k < (accesses i).length)
    (hq : s.quietThen k x) :
    ∃ c rest t, (stepsOf i)[leadSteps i + k]? = some c ∧ c ∈ stepsOf i ∧
      c.txn (quietAt i (leadSteps i + k) s) = some t ∧ t.inMap = true ∧
      (accesses i)[k]? = some t.shape ∧ (∃ r, (recordsOf i s)[k]? = some r ∧ r.txn = t) ∧
      (quietAt i (leadSteps i + k) s).nextSlot = ⟨[], x⟩ ∧
      exec i s = runSteps (finishOf i) (c :: rest) (quietAt i (leadSteps i + k) s) := by
  obtain ⟨hstep, hcut, hf⟩ := hs
  obtain ⟨hqfor, hqx⟩ := hq
  obtain ⟨c, rest, hd, hget, hc, hshape⟩ := step_of_access hk
  have hn : leadSteps i + k ≤ (stepsOf i).length := by rw [length_stepsOf]; omega
  obtain ⟨-, -, -, -, -, -, hslots, htrace, -⟩ := quietAt_keeps hn hstep hf
  rw [CmdStep.shape_eq c (quietAt i (leadSteps i + k) s)] at hshape
  obtain ⟨t, ht, hts⟩ := Option.map_eq_some_iff.1 hshape
  refine ⟨c, rest, t, hget, hc, ht, stepsOf_inMap hc ht, ?_, ?_, ?_, ?_⟩
  · rw [hts]
    exact List.getElem?_eq_getElem hk
  · refine ⟨⟨t, t.okOutcome (quietAt i (leadSteps i + k) s).mem⟩, ?_, rfl⟩
    have hsplit : recordsOf i s = quietRecords ((stepsOf i).take (leadSteps i + k)) (prepare i s) ++
        (c.quietRecord (quietAt i (leadSteps i + k) s) ++
          quietRecords rest (c.quietly (quietAt i (leadSteps i + k) s))) := by
      rw [recordsOf]
      conv_lhs => rw [← List.take_append_drop (leadSteps i + k) (stepsOf i), quietRecords_append, hd]
      rfl
    have hlen : (quietRecords ((stepsOf i).take (leadSteps i + k)) (prepare i s)).length = k := by
      rw [length_quietRecords, length_filterMap_shape_take hn, Nat.add_sub_cancel_left]
    rw [hsplit, List.getElem?_append_right (by omega), hlen, Nat.sub_self, CmdStep.quietRecord, ht]
    rfl
  · rw [nextSlot_eq_getD, hslots, Nat.add_sub_cancel_left, ← hqx]
    simp [List.getD_eq_getElem?_getD]
  · rw [exec_quietAt hn hstep hf (fun m hm => by rw [hcut] at hm; cases hm) (hready.imp_right .inl)
      (by rw [Nat.add_sub_cancel_left]; exact hqfor), hd]

end Sys2Proof.Machine
end

