-- ==== Sys2Proof/Proofs/QuietEnds.lean ====
section
/-! SUPPORT. What each register becomes under a quiet command, and how a command ends whose transaction
`k` is the first that is not quiet: it fails, a block reset cuts it, or it never returns. -/

namespace Sys2Proof.Machine

/-! ### The registers under a quiet command -/

/-- The byte `b` of register `x` after a quiet step of a command with operand `o`. -/
def CmdStep.onCell (o : Operand) (x : Nat) (b : Byte) : CmdStep → Byte
  | .writeBack a mask val => if x = a.toNat then mergeBits b mask val else b
  | .writeByte a v => if x = a.toNat then v else b
  | .writeBlock a =>
    if a.toNat ≤ x ∧ x < a.toNat + 7 then (encodeTime o.time).toBytes.getD (x - a.toNat) 0 else b
  | .sampleReady | .probe _ | .readTmp _ | .readBlock _ => b

/-- The byte `b` of register `x` after the first `n` steps of a quiet command with operand `o`. -/
def cellAfter (i : Instr) (o : Operand) (n x : Nat) (b : Byte) : Byte :=
  ((stepsOf i).take n).foldl (fun b c => c.onCell o x b) b

@[simp] theorem cellAfter_zero (i : Instr) (o : Operand) (x : Nat) (b : Byte) :
    cellAfter i o 0 x b = b := rfl

theorem cellAfter_succ {i : Instr} {n : Nat} {c : CmdStep} (hc : (stepsOf i)[n]? = some c)
    (o : Operand) (x : Nat) (b : Byte) :
    cellAfter i o (n + 1) x b = c.onCell o x (cellAfter i o n x b) := by
  rw [cellAfter, List.take_add_one, hc, List.foldl_append]
  rfl

theorem cellAfter_past {i : Instr} {n : Nat} (hn : (stepsOf i).length ≤ n) (o : Operand) (x : Nat)
    (b : Byte) : cellAfter i o n x b = cellAfter i o (stepsOf i).length x b := by
  rw [cellAfter, cellAfter, List.take_of_length_le hn, List.take_length]

theorem drop_of_getElem? {α : Type} {l : List α} {n : Nat} {c : α} (h : l[n]? = some c) :
    ∃ rest, l.drop n = c :: rest := by
  obtain ⟨hlt, rfl⟩ := List.getElem?_eq_some_iff.1 h
  exact ⟨_, List.drop_eq_getElem_cons hlt⟩

/-- Only SET_TIME writes the block, in its first step. -/
theorem writeBlock_position {i : Instr} {n : Nat} {a : Byte}
    (h : (stepsOf i)[n]? = some (.writeBlock a)) : n = 0 ∧ ∃ ch arg, i = .setTime ch arg := by
  cases i with
  | setTime ch arg =>
    refine ⟨?_, ch, arg, rfl⟩
    cases n with
    | zero => rfl
    | succ n => simp [stepsOf] at h
  | _ => simpa [stepsOf, update] using List.mem_of_getElem? h

/-- What the write half of an `Update` writes back is what stands in its register. -/
theorem quietAt_tmp {i : Instr} {n : Nat} {a mask val : Byte} {s : State}
    (h : (stepsOf i)[n]? = some (.writeBack a mask val)) :
    (quietAt i n s).tmp = (quietAt i n s).mem.get a.toNat := by
  obtain ⟨rest, hd⟩ := drop_of_getElem? h
  obtain ⟨k, rfl, hk⟩ := readTmp_before_writeBack hd
  have hread : (stepsOf i)[k]? = some (.readTmp a) := by
    rw [← List.head?_drop, hk]
    rfl
  rw [quietAt_succ hread]
  rfl

/-- What SET_TIME writes is the encoded operand. -/
theorem quietAt_blk {i : Instr} {n : Nat} {a : Byte} {s : State}
    (h : (stepsOf i)[n]? = some (.writeBlock a)) :
    (quietAt i n s).blk = encodeTime s.opnd.time := by
  obtain ⟨rfl, ch, arg, rfl⟩ := writeBlock_position h
  rfl

/-- A quiet step of a command does to each register what `onCell` says. -/
theorem get_quietly {i : Instr} {n : Nat} {c : CmdStep} (hc : (stepsOf i)[n]? = some c) (s : State)
    (x : Nat) : (c.quietly (quietAt i n s)).mem.get x =
      c.onCell s.opnd x ((quietAt i n s).mem.get x) := by
  cases c with
  | sampleReady => rfl
  | probe a => rfl
  | readTmp a => rfl
  | readBlock a => rfl
  | writeByte a v => exact Memory.get_set _ a.toNat x v
  | writeBack a mask val =>
    refine (Memory.get_set _ a.toNat x _).trans ?_
    rw [quietAt_tmp hc, CmdStep.onCell]
    split
    · rename_i hx; rw [hx]
    · rfl
  | writeBlock a =>
    refine (Memory.get_storeBytes _ _ a.toNat x).trans ?_
    rw [quietAt_blk hc]
    rfl

/-- The registers after the first `n` steps of a quiet command. -/
theorem get_quietAt (i : Instr) (n : Nat) (s : State) (x : Nat) :
    (quietAt i n s).mem.get x = cellAfter i s.opnd n x (s.mem.get x) := by
  induction n with
  | zero => rw [quietAt, List.take_zero, quietRun_nil, prepare_mem, cellAfter_zero]
  | succ n ih =>
    cases hc : (stepsOf i)[n]? with
    | none =>
      have hn := List.getElem?_eq_none_iff.1 hc
      rw [cellAfter_past (by omega), ← cellAfter_past hn, ← ih, quietAt, quietAt,
        List.take_of_length_le hn, List.take_of_length_le (by omega)]
    | some c => rw [quietAt_succ hc, get_quietly hc, ih, cellAfter_succ hc]

/-- A transaction that failed leaves each register as before it or as after its success. -/
theorem Txn.get_storePart (t : Txn) (landed : List Bool) (m : Memory) (x : Nat) :
    (t.storePart landed m).get x = m.get x ∨ (t.storePart landed m).get x = (t.store m).get x := by
  cases t with
  | read a n => exact .inl rfl
  | write a data =>
    rw [show (Txn.write a data).storePart landed m = m.storeLanded a.toNat landed data from rfl,
      show (Txn.write a data).store m = m.storeBytes a.toNat data from rfl,
      Memory.get_storeLanded, Memory.get_storeBytes]
    split
    · rename_i h
      rw [if_pos ⟨h.1, h.2.1⟩]
      exact .inr rfl
    · exact .inl rfl

/-- The registers where the transaction of step `n` stores a part of its bytes, all before it quiet. -/
theorem get_storePart_quietAt {i : Instr} {n : Nat} {c : CmdStep} {t : Txn} {s : State}
    (hc : (stepsOf i)[n]? = some c) (ht : c.txn (quietAt i n s) = some t) (landed : List Bool)
    (x : Nat) :
    (t.storePart landed (quietAt i n s).mem).get x = cellAfter i s.opnd n x (s.mem.get x) ∨
    (t.storePart landed (quietAt i n s).mem).get x =
      cellAfter i s.opnd (n + 1) x (s.mem.get x) := by
  rw [← get_quietAt, ← get_quietAt, quietAt_succ hc, quietly_mem ht]
  exact t.get_storePart landed _ x

/-! ### Transaction `k` is the first that is not quiet -/

/-- What a command leaves that ended in its transaction `k`, which did not succeed, with the part
`landed` of its bytes stored. -/
def cutShort (i : Instr) (k : Nat) (t : Txn) (landed : List Bool) (s : State) : State :=
  let u := quietAt i (leadSteps i + k) s
  { u with
    slots := s.slots.drop (k + 1), trace := s.trace ++ ((recordsOf i s).take k ++ [⟨t, .fail⟩]),
    mem := t.storePart landed u.mem, inFlight := none }

/-- The state before transaction `k` with its slot taken and its failure recorded. -/
theorem cutShort_eq {i : Instr} {k : Nat} (hk : k < (accesses i).length) (t : Txn)
    (landed : List Bool) {s : State} (hs : s.begun) :
    let u := quietAt i (leadSteps i + k) s
    { u with
      slots := u.slots.tail, trace := u.trace ++ [⟨t, .fail⟩],
      mem := t.storePart landed u.mem, inFlight := none } = cutShort i k t landed s := by
  obtain ⟨hstep, -, hf⟩ := hs
  have hn : leadSteps i + k ≤ (stepsOf i).length := by rw [length_stepsOf]; omega
  obtain ⟨-, -, -, -, -, -, hslots, htrace, -⟩ := quietAt_keeps hn hstep hf
  simp only [cutShort, hslots, htrace, Nat.add_sub_cancel_left, List.tail_drop, List.append_assoc]

/-- A command whose transaction `k` fails, the ones before it quiet (R214, R217). -/
theorem exec_failsAt {i : Instr} {s : State} {k : Nat} {l : List Bool} (hs : s.begun)
    (hready : leadSteps i = 0 ∨ s.busReady = true) (hk : k < (accesses i).length)
    (hq : s.quietThen k (.fail l)) :
    ∃ c t, (stepsOf i)[leadSteps i + k]? = some c ∧
      c.txn (quietAt i (leadSteps i + k) s) = some t ∧
      (∃ r, (recordsOf i s)[k]? = some r ∧ r.txn = t) ∧
      exec i s = .next (raise .ioError (cutShort i k t l s)) := by
  obtain ⟨c, rest, t, hget, -, ht, hin, -, hrec, hslot, he⟩ := exec_upTo hs hready hk hq
  obtain ⟨hstep, hcut, hf⟩ := id hs
  have hn : leadSteps i + k ≤ (stepsOf i).length := by rw [length_stepsOf]; omega
  obtain ⟨-, hflight, hcut', -⟩ := quietAt_keeps hn hstep hf
  refine ⟨c, t, hget, ht, hrec, ?_⟩
  rw [he, runSteps_raised (hcut'.trans hcut) (CmdStep.perform_fail ht hin hflight hslot),
    cutShort_eq hk t l hs]

/-- A command whose transaction `k` a block reset cuts, the ones before it quiet (R50). -/
theorem exec_resetAt {i : Instr} {s : State} {k : Nat} {l : List Bool} (hs : s.begun)
    (hready : leadSteps i = 0 ∨ s.busReady = true) (hk : k < (accesses i).length)
    (hq : s.quietThen k (.blockReset l)) :
    ∃ c t, (stepsOf i)[leadSteps i + k]? = some c ∧
      c.txn (quietAt i (leadSteps i + k) s) = some t ∧
      (∃ r, (recordsOf i s)[k]? = some r ∧ r.txn = t) ∧
      exec i s = .next (blockReset (cutShort i k t l s)) := by
  obtain ⟨c, rest, t, hget, -, ht, hin, -, hrec, hslot, he⟩ := exec_upTo hs hready hk hq
  obtain ⟨hstep, hcut, hf⟩ := id hs
  have hn : leadSteps i + k ≤ (stepsOf i).length := by rw [length_stepsOf]; omega
  obtain ⟨-, hflight, hcut', -⟩ := quietAt_keeps hn hstep hf
  refine ⟨c, t, hget, ht, hrec, ?_⟩
  rw [he, runSteps_abandoned (hcut'.trans hcut) (CmdStep.perform_reset ht hin hflight hslot),
    cutShort_eq hk t l hs]

/-- The registers of a command that ended in its transaction `k`. -/
theorem get_cutShort {i : Instr} {k : Nat} {c : CmdStep} {t : Txn} {s : State}
    (hc : (stepsOf i)[leadSteps i + k]? = some c)
    (ht : c.txn (quietAt i (leadSteps i + k) s) = some t) (landed : List Bool) (x : Nat) :
    (cutShort i k t landed s).mem.get x = cellAfter i s.opnd (leadSteps i + k) x (s.mem.get x) ∨
    (cutShort i k t landed s).mem.get x =
      cellAfter i s.opnd (leadSteps i + k + 1) x (s.mem.get x) :=
  get_storePart_quietAt hc ht landed x

/-- What the end of a command in transaction `k` keeps of the rest of the state. -/
theorem cutShort_keeps {i : Instr} {k : Nat} (hk : k < (accesses i).length) (t : Txn)
    (landed : List Bool) {s : State} (hs : s.begun) :
    (cutShort i k t landed s).busReady = s.busReady ∧
    (cutShort i k t landed s).inputs = s.inputs ∧ (cutShort i k t landed s).draws = s.draws := by
  obtain ⟨hstep, -, hf⟩ := hs
  have hn : leadSteps i + k ≤ (stepsOf i).length := by rw [length_stepsOf]; omega
  obtain ⟨-, -, -, hready, hinputs, hdraws, -⟩ := quietAt_keeps hn hstep hf
  exact ⟨hready, hinputs, hdraws⟩

theorem length_recordsOf (i : Instr) (s : State) :
    (recordsOf i s).length = (accesses i).length := by
  rw [recordsOf, length_quietRecords, accesses_eq]

/-- What is observed of a command whose transaction `k` fails, the ones before it quiet. -/
theorem exec_fails {i : Instr} {s : State} {k : Nat} {l : List Bool} (hs : s.begun)
    (hready : leadSteps i = 0 ∨ s.busReady = true) (hk : k < (accesses i).length)
    (hq : s.quietThen k (.fail l)) :
    ∃ t r, (recordsOf i s)[k]? = some r ∧ exec i s = .next t ∧
      s.endsWith t (.error .ioError) ((recordsOf i s).take k ++ [⟨r.txn, .fail⟩]) ∧
      t.mem = r.txn.storePart l (quietAt i (leadSteps i + k) s).mem ∧
      ∀ x, t.mem.get x = cellAfter i s.opnd (leadSteps i + k) x (s.mem.get x) ∨
        t.mem.get x = cellAfter i s.opnd (leadSteps i + k + 1) x (s.mem.get x) := by
  obtain ⟨c, t, hc, ht, ⟨r, hr, rfl⟩, he⟩ := exec_failsAt hs hready hk hq
  obtain ⟨hbus, hinputs, hdraws⟩ := cutShort_keeps hk r.txn l hs
  refine ⟨_, r, hr, he, ⟨⟨raise_atRest _ _, hbus, hinputs⟩, rfl, rfl, ?_, hdraws⟩,
    rfl, get_cutShort hc ht l⟩
  rw [List.length_append, List.length_take, length_recordsOf, Nat.min_eq_left hk.le]
  rfl

/-- What is observed of a command whose transaction `k` a block reset cuts, the ones before it quiet. -/
theorem exec_resets {i : Instr} {s : State} {k : Nat} {l : List Bool} (hs : s.begun)
    (hready : leadSteps i = 0 ∨ s.busReady = true) (hk : k < (accesses i).length)
    (hq : s.quietThen k (.blockReset l)) :
    ∃ t r, (recordsOf i s)[k]? = some r ∧ exec i s = .next t ∧ s.endedFrom t ∧ t.rsp = none ∧
      t.trace = s.trace ++ ((recordsOf i s).take k ++ [⟨r.txn, .fail⟩]) ∧
      t.slots = s.slots.drop (k + 1) ∧
      t.mem = r.txn.storePart l (quietAt i (leadSteps i + k) s).mem ∧
      ∀ x, t.mem.get x = cellAfter i s.opnd (leadSteps i + k) x (s.mem.get x) ∨
        t.mem.get x = cellAfter i s.opnd (leadSteps i + k + 1) x (s.mem.get x) := by
  obtain ⟨c, t, hc, ht, ⟨r, hr, rfl⟩, he⟩ := exec_resetAt hs hready hk hq
  obtain ⟨hbus, hinputs, -⟩ := cutShort_keeps hk r.txn l hs
  exact ⟨_, r, hr, he, ⟨blockReset_atRest _, hbus, hinputs⟩, rfl, rfl, rfl, rfl,
    get_cutShort hc ht l⟩

/-- What is observed of a quiet command. -/
theorem exec_succeeds {i : Instr} {s : State} (hs : s.begun)
    (hready : leadSteps i = 0 ∨ s.busReady = true) (hq : s.quietFor (accesses i).length) :
    ∃ u, exec i s = .next (finishOf i u) ∧ u = quietAt i (stepsOf i).length s ∧
      s.endedFrom (finishOf i u) ∧ (finishOf i u).trace = s.trace ++ recordsOf i s ∧
      (finishOf i u).slots = s.slots.drop (accesses i).length ∧ u.draws = s.draws ∧
      ∀ x, (finishOf i u).mem.get x =
        cellAfter i s.opnd (stepsOf i).length x (s.mem.get x) := by
  obtain ⟨hstep, -, hf⟩ := id hs
  have hlen : (stepsOf i).length - leadSteps i = (accesses i).length := by
    rw [length_stepsOf, Nat.add_sub_cancel_left]
  obtain ⟨-, -, -, hbus, hinputs, hdraws, hslots, htrace, -⟩ :=
    quietAt_keeps (Nat.le_refl (stepsOf i).length) hstep hf
  refine ⟨_, exec_quiet hs hready hq, rfl, ⟨finishOf_atRest _ _, ?_, ?_⟩, ?_, ?_, hdraws,
    fun x => ?_⟩
  · rw [finishOf_busReady, hbus]
  · rw [finishOf_inputs, hinputs]
  · rw [finishOf_trace, htrace, hlen, ← length_recordsOf i s, List.take_length]
  · rw [finishOf_slots, hslots, hlen]
  · rw [finishOf_mem, get_quietAt]

end Sys2Proof.Machine
end

