-- ==== Sys2Proof/Proofs/Updates.lean ====
section
/-! The obligations of the commands that are one `Update` (41_control.md START and STOP,
44_calibration.md, 10_state.md R50), and of INIT and the stubs. -/

namespace Sys2Proof.Machine

/-! ### One `Update` -/

theorem modeVal_modeOf : ∀ arg : Byte,
    modeVal (modeOf arg) = if arg.getLsbD 0 then 0x80 else 0x00 := by decide

theorem valueVal_valueOf : ∀ arg : Byte, valueVal (valueOf arg) = arg &&& 0x7F := by decide

theorem selVal_selOf : ∀ arg : Byte,
    selVal (selOf arg) = if arg.getLsbD 0 then 0x01 else 0x00 := by decide

/-- The commands that are one `Update`: their steps, and that they respond `Ok` without payload. -/
theorem updateOf_spec {i : Instr} {a mask val : Byte} (h : updateOf i = some (a, mask, val)) :
    stepsOf i = update a mask val ∧ leadSteps i = 0 ∧ (accesses i).length = 2 ∧
    (∀ s, prepare i s = s) ∧ (∀ s, finishOf i s = respondOk .none s) ∧ i.op ≠ 0x2 := by
  cases i with
  | start c arg => cases h; exact ⟨rfl, rfl, rfl, fun _ => rfl, fun _ => rfl, nofun⟩
  | stop c arg => cases h; exact ⟨rfl, rfl, rfl, fun _ => rfl, fun _ => rfl, nofun⟩
  | setOffsetMode c arg =>
    cases h
    exact ⟨by rw [← modeVal_modeOf]; rfl, rfl, rfl, fun _ => rfl, fun _ => rfl, nofun⟩
  | setOffsetValue c arg =>
    cases h
    exact ⟨by rw [← valueVal_valueOf]; rfl, rfl, rfl, fun _ => rfl, fun _ => rfl, nofun⟩
  | setCapSelect c arg =>
    cases h
    exact ⟨by rw [← selVal_selOf]; rfl, rfl, rfl, fun _ => rfl, fun _ => rfl, nofun⟩
  | _ => cases h

/-- The transactions of an `Update`: the read, and the write of the byte changed under the mask. -/
theorem recordsOf_update {i : Instr} {a mask val : Byte} (h : updateOf i = some (a, mask, val))
    (s : State) : recordsOf i s = [⟨.read a 1, .okRead [s.mem.get a.toNat]⟩,
      ⟨.write a [mergeBits (s.mem.get a.toNat) mask val], .okWrite⟩] := by
  obtain ⟨hsteps, -, -, hprepare, -⟩ := updateOf_spec h
  rw [recordsOf, hsteps, hprepare]
  rfl

/-- An `Update` changes its register in its second step. -/
theorem cellAfter_update {i : Instr} {a mask val : Byte} (h : updateOf i = some (a, mask, val))
    (o : Operand) (x : Nat) (b : Byte) : cellAfter i o 1 x b = b ∧
      cellAfter i o 2 x b = if x = a.toNat then mergeBits b mask val else b := by
  obtain ⟨hsteps, -⟩ := updateOf_spec h
  rw [cellAfter, cellAfter, hsteps]
  exact ⟨rfl, rfl⟩

/-- A register of an `Update` whose write did not succeed is old or new, the others are old. -/
theorem update_oldOrNew {i : Instr} {a mask val : Byte} (h : updateOf i = some (a, mask, val))
    {s t : State} (ht : ∀ x, t.mem.get x = cellAfter i s.opnd 1 x (s.mem.get x) ∨
      t.mem.get x = cellAfter i s.opnd 2 x (s.mem.get x)) :
    (t.mem.get a.toNat = s.mem.get a.toNat ∨
      t.mem.get a.toNat = mergeBits (s.mem.get a.toNat) mask val) ∧
    ∀ x, x ≠ a.toNat → t.mem.get x = s.mem.get x := by
  simp only [(cellAfter_update h s.opnd _ _).1, (cellAfter_update h s.opnd _ _).2] at ht
  refine ⟨by simpa using ht a.toNat, fun x hx => ?_⟩
  simpa [hx] using ht x

/-- A command that is one `Update` does what R64 says. -/
theorem isUpdateCommand_of_updateOf {i : Instr} {a mask val : Byte}
    (h : updateOf i = some (a, mask, val)) : isUpdateCommand i a mask val := by
  obtain ⟨hsteps, hlead, hlen, hprepare, hfinish, hop⟩ := updateOf_spec h
  refine ⟨fun s hs => ?_, fun s t ht hrsp => ?_⟩
  · have hrec := recordsOf_update h s
    refine ⟨fun hq => ?_, fun l hq => ?_, fun l hq => ?_⟩
    · obtain ⟨u, he, -, hended, htrace, hslots, hdraws, hmem⟩ :=
        exec_succeeds hs (.inl hlead) (hlen.symm ▸ hq)
      rw [hfinish] at he hended htrace hslots hmem
      rw [hrec] at htrace
      rw [hlen] at hslots
      refine ⟨_, he, ⟨hended, rfl, htrace, hslots, hdraws⟩, fun x => ?_⟩
      rw [hmem, hsteps]
      refine ((cellAfter_update h s.opnd x _).2).trans ?_
      split
      · rename_i hx; rw [hx]; rfl
      · rfl
    · obtain ⟨t, r, hr, he, hends, hmem, -⟩ := exec_fails hs (.inl hlead) (by omega) hq
      rw [hrec] at hr hends
      cases hr
      rw [hlead] at hmem
      exact ⟨t, he, hends, hmem.trans (congrArg State.mem (hprepare s))⟩
    · obtain ⟨t, r, hr, he, hends, -, hcells⟩ := exec_fails hs (.inl hlead) (by omega) hq
      rw [hrec] at hr hends
      cases hr
      rw [hlead] at hcells
      exact ⟨t, he, hends, update_oldOrNew h hcells⟩
  · obtain hnone | ⟨u, rfl⟩ | hio | ⟨-, hready⟩ := exec_rsp_cases ht hrsp
    · exact .inl hnone
    · exact .inr (.inl (by rw [hfinish]; rfl))
    · exact .inr (.inr hio)
    · exact absurd hready hop

/-- The bits under the mask of an `Update` are those of the value. -/
theorem mergeBits_and_mask (tmp mask val : Byte) : mergeBits tmp mask val &&& mask = val &&& mask := by
  apply BitVec.eq_of_getLsbD_eq
  intro k hk
  simp only [mergeBits, BitVec.getLsbD_and, BitVec.getLsbD_or, BitVec.getLsbD_not]
  cases mask.getLsbD k <;> simp

/-- The registers after a quiet `Update`: the new byte, its bits outside the mask and under it, and
every other register. -/
theorem exec_update_quiet {i : Instr} {a mask val : Byte} (h : updateOf i = some (a, mask, val))
    {s : State} (hs : s.begun) (hq : s.quietFor 2) : ∃ t, exec i s = .next t ∧
      t.reg a = mergeBits (s.reg a) mask val ∧
      (∀ bits, mask &&& bits = 0 → t.reg a &&& bits = s.reg a &&& bits) ∧
      t.reg a &&& mask = val &&& mask ∧ ∀ x, x ≠ a.toNat → t.mem.get x = s.mem.get x := by
  obtain ⟨hquiet, -, -⟩ := (isUpdateCommand_of_updateOf h).1 s hs
  obtain ⟨t, he, -, hmem⟩ := hquiet hq
  have hnew : t.reg a = mergeBits (s.reg a) mask val := (hmem a.toNat).trans (if_pos rfl)
  refine ⟨t, he, hnew, fun bits hbits => ?_, ?_, fun x hx => (hmem x).trans (if_neg hx)⟩
  · rw [hnew, mergeBits_and hbits]
  · rw [hnew, mergeBits_and_mask]

/-! ### START and STOP -/

/-- Settles O14: START is one `Update` that clears bit 5 and reaches no other bit. -/
theorem startClearsStopAndKeepsTheRest : Obligations.StartClearsStopAndKeepsTheRest := by
  refine ⟨fun w hw => decode_of_op hw, fun chan arg => isUpdateCommand_of_updateOf rfl,
    fun chan arg s hs hq => ?_⟩
  obtain ⟨t, he, -, hkeep, hput, hother⟩ := exec_update_quiet (i := .start chan arg) rfl hs hq
  exact ⟨t, he, bitSet_congr (b' := 0x00) hput, bitSet_congr (hkeep ctrl1CapSel (by decide)),
    hkeep 0xDF (by decide), congrArg osOf (hother 4 (by decide))⟩

/-- Settles O15: STOP is one `Update` that sets bit 5 and reaches no other bit. -/
theorem stopSetsStopAndKeepsTheRest : Obligations.StopSetsStopAndKeepsTheRest := by
  refine ⟨fun w hw => decode_of_op hw, fun chan arg => isUpdateCommand_of_updateOf rfl,
    fun chan arg s hs hq => ?_⟩
  obtain ⟨t, he, -, hkeep, hput, -⟩ := exec_update_quiet (i := .stop chan arg) rfl hs hq
  exact ⟨t, he, bitSet_congr (b' := 0x20) hput, bitSet_congr (hkeep ctrl1CapSel (by decide)),
    hkeep 0xDF (by decide)⟩

/-! ### Calibration -/

/-- The offset is bits 6:0 of its register (R29). -/
theorem valueOf_congr {b b' : Byte} (h : b &&& 0x7F = b' &&& 0x7F) : valueOf b = valueOf b' := by
  rw [← valueOf_and_7F b, h, valueOf_and_7F]

/-- One bit of an operand under its mask of a flag. -/
theorem bitSet_ite (bit : Bool) {mask : Byte} (h : bitSet mask mask = true) :
    bitSet (if bit then mask else 0x00) mask = bit := by
  cases bit
  · simp [bitSet]
  · exact h

/-- Settles O27: one `Update` of bit 7 with bit 0 of the immediate. -/
theorem setOffsetModeWritesBitSeven : Obligations.SetOffsetModeWritesBitSeven := by
  refine ⟨fun w hw => decode_of_op hw, fun chan arg => ⟨isUpdateCommand_of_updateOf rfl,
    fun s hs hq => ?_⟩⟩
  obtain ⟨t, he, -, hkeep, hput, -⟩ := exec_update_quiet (i := .setOffsetMode chan arg) rfl hs hq
  exact ⟨t, he, (bitSet_congr hput).trans (bitSet_ite _ (by decide)),
    valueOf_congr (hkeep 0x7F (by decide))⟩

/-- Settles O28: one `Update` of bits 6:0 with bits 6:0 of the immediate. -/
theorem setOffsetValueWritesLowSevenBits : Obligations.SetOffsetValueWritesLowSevenBits := by
  refine ⟨fun w hw => decode_of_op hw, fun chan arg => ⟨isUpdateCommand_of_updateOf rfl,
    fun s hs hq => ?_⟩⟩
  obtain ⟨t, he, hnew, hkeep, hput, -⟩ :=
    exec_update_quiet (i := .setOffsetValue chan arg) rfl hs hq
  have hidem : arg &&& 0x7F &&& 0x7F = arg &&& 0x7F := by rw [BitVec.and_assoc, BitVec.and_self]
  rw [hidem] at hput
  refine ⟨t, he, valueOf_congr hput, bitSet_congr (hkeep offsetMode (by decide)), ?_⟩
  rw [hnew, mergeBits, hidem]
  rfl

/-- Settles O29: one `Update` of bit 0 with bit 0 of the immediate. -/
theorem setCapSelectWritesBitZero : Obligations.SetCapSelectWritesBitZero := by
  refine ⟨fun w hw => decode_of_op hw, fun chan arg => ⟨isUpdateCommand_of_updateOf rfl,
    fun s hs hq => ?_⟩⟩
  obtain ⟨t, he, hnew, hkeep, hput, -⟩ := exec_update_quiet (i := .setCapSelect chan arg) rfl hs hq
  refine ⟨t, he, (bitSet_congr hput).trans (bitSet_ite _ (by decide)),
    bitSet_congr (hkeep ctrl1Stop (by decide)), ?_⟩
  rw [hnew, mergeBits]
  cases arg.getLsbD 0 <;> rfl

/-! ### A block reset inside an `Update` -/

/-- Settles O39: the transaction in flight is the last of the trace, failed, and has the effect of a
failed one. -/
theorem resetDuringUpdateAbandonsIt : Obligations.ResetDuringUpdateAbandonsIt := by
  intro i a mask val s l h hs
  obtain ⟨-, hlead, hlen, hprepare, -⟩ := updateOf_spec h
  have hrec := recordsOf_update h s
  constructor
  · intro hq
    obtain ⟨t, r, hr, he, hended, hrsp, htrace, -, hmem, -⟩ :=
      exec_resets hs (.inl hlead) (by omega) hq
    rw [hrec] at hr htrace
    cases hr
    rw [hlead] at hmem
    exact ⟨t, he, hended, hrsp, htrace, hmem.trans (congrArg State.mem (hprepare s))⟩
  · intro hq
    obtain ⟨t, r, hr, he, hended, hrsp, htrace, -, -, hcells⟩ :=
      exec_resets hs (.inl hlead) (by omega) hq
    rw [hrec] at hr htrace
    cases hr
    rw [hlead] at hcells
    exact ⟨t, he, hended, hrsp, htrace, update_oldOrNew h hcells⟩

/-! ### INIT and the stubs -/

/-- INIT's sampling finds the transport not ready. -/
theorem exec_init_notReady (chan : BitVec 4) (arg : Byte) {s : State} (hs : s.begun)
    (hb : s.busReady = false) : exec (.init chan arg) s = .next (raise .notReady s) := by
  obtain ⟨hstep, hcut, -⟩ := hs
  have hsample : CmdStep.sampleReady.perform s = .raised .notReady s := by
    rw [CmdStep.perform_sampleReady, hb]
    rfl
  rw [exec_eq_start _ hstep]
  exact runSteps_raised hcut hsample

/-- Settles O13: the sampling step, then one quiet or failing probe, which stores nothing. -/
theorem initProbesOrReportsNotReady : Obligations.InitProbesOrReportsNotReady := by
  intro chan arg s hs
  refine ⟨fun hb => ⟨_, exec_init_notReady chan arg hs hb, raise_endsWith _ s, rfl⟩,
    fun hb hq => ?_, fun l hb hq => ?_, fun t ht hrsp => ?_⟩
  · obtain ⟨u, he, rfl, hended, htrace, hslots, hdraws, -⟩ :=
      exec_succeeds (i := .init chan arg) hs (.inr hb) hq
    exact ⟨_, he, ⟨hended, rfl, htrace, hslots, hdraws⟩, rfl⟩
  · obtain ⟨t, r, hr, he, hends, hmem, -⟩ :=
      exec_fails (i := .init chan arg) (k := 0) hs (.inr hb) (by decide : 0 < 1) hq
    cases hr
    exact ⟨t, he, hends, hmem⟩
  · obtain hnone | ⟨u, rfl⟩ | hio | ⟨hready, -⟩ := exec_rsp_cases ht hrsp
    · exact .inl hnone
    · exact .inr (.inl rfl)
    · exact .inr (.inr (.inr hio))
    · exact .inr (.inr (.inl hready))

/-- Settles O31: both commands have no steps and respond at once. -/
theorem topStubsAnswerOk : Obligations.TopStubsAnswerOk := by
  intro chan arg s hc
  refine ⟨⟨_, exec_noSteps rfl hc, respondOk_endsWith .none s, respondOk_mem .none s⟩,
    _, exec_noSteps rfl hc, respondOk_endsWith (.value 0) s, respondOk_mem (.value 0) s, ?_⟩
  rw [show (finishOf (.getTop chan arg) s).rsp = some (.ok (.value 0)) from rfl]
  decide

end Sys2Proof.Machine
end

