-- ==== Sys2Proof/Proofs/Time.lean ====
section
/-! The obligations of GET_TIME and SET_TIME (42_time.md, 60_exceptions.md R213). -/

namespace Sys2Proof.Machine

/-! ### GET_TIME -/

/-- A quiet GET_TIME reads the time block and answers its decoding, the registers as they were. -/
theorem exec_getTime_quiet (chan : BitVec 4) (arg : Byte) {s : State} (hs : s.begun)
    (hq : s.quietFor 1) : ∃ u, exec (.getTime chan arg) s =
        .next (respondDecoded s.mem.timeBlock u) ∧
      u.draws = s.draws ∧ (respondDecoded s.mem.timeBlock u).mem = s.mem ∧
      s.endedFrom (respondDecoded s.mem.timeBlock u) ∧
      (respondDecoded s.mem.timeBlock u).slots = s.slots.drop 1 ∧
      (respondDecoded s.mem.timeBlock u).trace =
        s.trace ++ [⟨.read 0x04 7, .okRead [s.mem.get 4, s.mem.get 5, s.mem.get 6, s.mem.get 7,
          s.mem.get 8, s.mem.get 9, s.mem.get 10]⟩] := by
  obtain ⟨u, he, rfl, hended, htrace, hslots, hdraws, -⟩ :=
    exec_succeeds (i := .getTime chan arg) hs (.inl rfl) hq
  exact ⟨_, he, hdraws, finishOf_mem (.getTime chan arg) (quietAt (.getTime chan arg) 1 s), hended, hslots, htrace⟩

/-- GET_TIME answers a time, `IntegrityError` or `IoError`, never `NotReady`. -/
theorem exec_getTime_ne_notReady {chan : BitVec 4} {arg : Byte} {s t : State}
    (h : exec (.getTime chan arg) s = .next t) (hs : s.rsp = none) :
    t.rsp ≠ some (.error .notReady) := by
  obtain hnone | ⟨u, rfl⟩ | hio | ⟨-, hop⟩ := exec_rsp_cases h hs
  · rw [hnone]; nofun
  · obtain hr | ⟨c, hr⟩ := respondDecoded_rsp u.blk u
    · rw [show (finishOf (.getTime chan arg) u).rsp = _ from hr]; nofun
    · rw [show (finishOf (.getTime chan arg) u).rsp = _ from hr]; nofun
  · rw [hio]; nofun
  · cases hop

/-- Settles O16: GET_TIME ends as DECODE of the block it read, with the same draws before it. -/
theorem getTimeReadsOneBurstAndDecodes : Obligations.GetTimeReadsOneBurstAndDecodes := by
  refine ⟨fun w hw => decode_of_op hw, fun chan arg s hs => ⟨fun hq => ?_, fun l hq => ?_, ?_⟩⟩
  · obtain ⟨u, he, hdraws, hmem, hended, hslots, htrace⟩ := exec_getTime_quiet chan arg hs hq
    obtain ⟨-, hcut, -⟩ := hs
    obtain ⟨hrsp, hdrawn⟩ := respondDecoded_congr s.mem.timeBlock
      (s := u) (s' := { s with opnd := ⟨.zero, s.mem.timeBlock⟩ }) hdraws
    exact ⟨_, _, he, exec_decode chan arg hcut, hrsp, respondDecoded_integrity _ _, hmem, hended,
      hslots, hdrawn, htrace⟩
  · obtain ⟨t, r, hr, he, hends, hmem, -⟩ :=
      exec_fails (i := .getTime chan arg) (k := 0) hs (.inl rfl) (by decide : 0 < 1) hq
    cases hr
    exact ⟨t, he, hends, hmem⟩
  · exact fun t h hrsp => exec_getTime_ne_notReady h hrsp

/-! ### SET_TIME -/

theorem timeBlock_storeBytes (b : RawTimeBlock) (m : Memory) :
    (m.storeBytes 4 b.toBytes).timeBlock = b := by
  have hget : ∀ k, k < 7 → (m.storeBytes 4 b.toBytes).get (4 + k) = b.toBytes.getD k 0 :=
    fun k hk => Memory.get_storeBytes_at b.toBytes m 4 hk
  have h0 := hget 0 (by decide)
  have h1 := hget 1 (by decide)
  have h2 := hget 2 (by decide)
  have h3 := hget 3 (by decide)
  have h4 := hget 4 (by decide)
  have h5 := hget 5 (by decide)
  have h6 := hget 6 (by decide)
  simp only [Nat.reduceAdd] at h0 h1 h2 h3 h4 h5 h6
  rw [Memory.timeBlock, h0, h1, h2, h3, h4, h5, h6]
  rfl

/-- A quiet SET_TIME stores the encoded operand. -/
theorem exec_setTime_quiet (chan : BitVec 4) (arg : Byte) {s : State} (hs : s.begun)
    (hq : s.quietFor 1) : ∃ t, exec (.setTime chan arg) s = .next t ∧
      s.endsWith t (.ok .none) [⟨.write 0x04 (encodeTime s.opnd.time).toBytes, .okWrite⟩] ∧
      t.mem = s.mem.storeBytes 4 (encodeTime s.opnd.time).toBytes := by
  obtain ⟨u, he, rfl, hended, htrace, hslots, hdraws, -⟩ :=
    exec_succeeds (i := .setTime chan arg) hs (.inl rfl) hq
  exact ⟨_, he, ⟨hended, rfl, htrace, hslots, hdraws⟩, rfl⟩

/-- Settles O17: the block ENCODE answers, written whole or in part at 0x04. -/
theorem setTimeWritesOneBurst : Obligations.SetTimeWritesOneBurst := by
  refine ⟨fun w hw => decode_of_op hw, fun chan arg s hs => ?_⟩
  obtain ⟨-, hcut, -⟩ := id hs
  refine ⟨_, encodeTime s.opnd.time, exec_encode chan arg hcut, respondOk_rsp _ s, fun hq => ?_,
    fun l hq => ?_, fun t ht hrsp => ?_⟩
  · obtain ⟨t, he, hends, hmem⟩ := exec_setTime_quiet chan arg hs hq
    have hblock : t.mem.timeBlock = encodeTime s.opnd.time := by
      rw [hmem, timeBlock_storeBytes]
    refine ⟨t, he, hends, ?_, hblock, fun x hx => ?_⟩
    · rw [show t.OS = osOf t.mem.timeBlock.seconds from rfl, hblock, osOf_eq,
        getLsbD_seven_encodeTime]
    · rw [hmem, Memory.get_storeBytes_outside _ _ _ _ (hx.imp id Nat.succ_le_of_lt)]
  · obtain ⟨t, r, hr, he, hends, hmem, -⟩ :=
      exec_fails (i := .setTime chan arg) (k := 0) hs (.inl rfl) (by decide : 0 < 1) hq
    cases hr
    have hland : t.mem = s.mem.storeLanded 4 l (encodeTime s.opnd.time).toBytes := hmem
    refine ⟨t, he, hends, fun k hk => ?_, fun x hx => ?_⟩
    · rw [hland, Memory.get_storeLanded_at _ _ _ _ hk]
      split
      · exact .inr rfl
      · exact .inl rfl
    · rw [hland, Memory.get_storeLanded_outside _ _ _ _ _ (hx.imp id Nat.succ_le_of_lt)]
  · obtain hnone | ⟨u, rfl⟩ | hio | ⟨-, hop⟩ := exec_rsp_cases ht hrsp
    · exact .inl hnone
    · exact .inr (.inl rfl)
    · exact .inr (.inr hio)
    · cases hop

/-! ### Two commands in a row -/

theorem accept_begun (w : CmdWord) (o : Operand) (s : State) : (accept w o s).begun :=
  ⟨rfl, rfl, rfl⟩

theorem quietFor_drop {j k : Nat} {s t : State} (h : s.quietFor (j + k))
    (ht : t.slots = s.slots.drop j) : t.quietFor k := by
  intro n hn
  rw [ht, List.getD_eq_getElem?_getD, List.getElem?_drop, ← List.getD_eq_getElem?_getD]
  exact h (j + n) (by omega)

/-- Settles O18: SET_TIME leaves the encoded block in the registers, GET_TIME decodes it (R141). -/
theorem setTimeThenGetTimeReturnsTheTime : Obligations.SetTimeThenGetTimeReturnsTheTime := by
  intro s w w' o o' rest hb hw hw' hi hq hvalid
  have hset := step_command hb hi
  rw [decode_of_op hw] at hset
  obtain ⟨t, ht, ⟨⟨hrest, -, hinputs⟩, hrsp, -, hslots, -⟩, hmem⟩ :=
    exec_setTime_quiet (chanOf w) (argOf w) 
      (accept_begun w o { s with inputs := .command w' o' :: rest }) (quietFor_mono hq (by decide))
  have hblock : t.mem.timeBlock = encodeTime o.time := by rw [hmem, timeBlock_storeBytes]; rfl
  obtain ⟨hbusy, -⟩ := hrest
  have hget := step_command hbusy hinputs
  rw [decode_of_op hw'] at hget
  obtain ⟨u, hu, -, -, ⟨-, -, hleft⟩, -⟩ := exec_getTime_quiet (chanOf w') (argOf w')
    (accept_begun w' o' { t with inputs := rest }) (quietFor_drop hq hslots)
  refine ⟨t, _, hset.trans ht, hrsp, hget.trans hu, hleft, ?_⟩
  rw [show (accept w' o' { t with inputs := rest }).mem.timeBlock = encodeTime o.time from hblock,
    respondDecoded_of_defined (getLsbD_seven_encodeTime _) (blockYdayDefined_encodeTime hvalid),
    calendarOf_encodeTime hvalid, respondOk_rsp]

/-- GET_TIME of a block whose integrity is lost: one transaction, no register changed. -/
theorem step_getTime_lost {s : State} {w : CmdWord} {o : Operand} {rest : List Input}
    (hb : s.busy = false) (hw : opOf w = 0x5) (hi : s.inputs = .command w o :: rest)
    (hq : s.quietFor 1) (hos : s.OS = true) :
    ∃ t, step s = .next t ∧ t.rsp = some (.error .integrityError) ∧ t.mem = s.mem ∧
      t.trace.length = 1 ∧ t.busy = false ∧ t.inputs = rest ∧ t.slots = s.slots.drop 1 := by
  have hstep := step_command hb hi
  rw [decode_of_op hw] at hstep
  obtain ⟨u, hu, -, hmem, ⟨⟨hbusy, -⟩, -, hinputs⟩, hslots, htrace⟩ := exec_getTime_quiet (chanOf w)
    (argOf w) (accept_begun w o { s with inputs := rest }) hq
  exact ⟨_, hstep.trans hu, (respondDecoded_integrity _ u).2 hos, hmem, by rw [htrace]; rfl, hbusy,
    hinputs, hslots⟩

/-- Settles O19: the first GET_TIME leaves the registers and the block as the second needs them. -/
theorem integrityErrorPersists : Obligations.IntegrityErrorPersists := by
  intro s w w' o o' rest hb hw hw' hi hq hos
  obtain ⟨t, ht, hrsp, hmem, hlen, hbusy, hinputs, hslots⟩ :=
    step_getTime_lost hb hw hi (quietFor_mono hq (by decide)) hos
  have hos' : t.OS = true := by rw [State.OS, State.reg, hmem]; exact hos
  obtain ⟨u, hu, hrsp', hmem', -⟩ :=
    step_getTime_lost hbusy hw' hinputs (quietFor_drop hq hslots) hos'
  exact ⟨t, u, ht, hrsp, hmem, hlen, hu, hrsp', hmem'.trans hmem⟩

end Sys2Proof.Machine
end

