-- ==== Sys2Proof/Proofs/AlarmCommands.lean ====
section
/-! The obligations of SET_ALARM and CANCEL_ALARM (43_alarm.md), and of writes and flags that come
between the two halves of an `Update` (70_reset_and_hazards.md R255, R256). -/

namespace Sys2Proof.Machine

/-! ### The bytes the alarm commands write -/

theorem mergeBits_TF : ∀ b : Byte, mergeBits b ctrl2TF 0x00 = b &&& 0xF7 := by decide

theorem mergeBits_arm : ∀ b : Byte, mergeBits b armMask armVal = (b &&& 0xE1) ||| 0x16 := by decide

theorem mergeBits_disarm : ∀ b : Byte, mergeBits b disarmMask 0x00 = b &&& 0xF8 := by decide

/-- Clearing `TF` leaves `AF` (R180 (a)). -/
theorem flags_of_clearTF : ∀ b : Byte, tfOf (b &&& 0xF7) = false ∧
    bitSet (b &&& 0xF7) ctrl2AF = bitSet b ctrl2AF := by decide

/-- The timer mode SET_ALARM leaves (R180 (c), D14). -/
theorem mode_of_arm : ∀ b : Byte, ((b &&& 0xE1) ||| 0x16).extractLsb' 3 2 = 0b10 ∧
    bitSet ((b &&& 0xE1) ||| 0x16) tmodeTE = true ∧
    bitSet ((b &&& 0xE1) ||| 0x16) tmodeTIE = true ∧
    bitSet ((b &&& 0xE1) ||| 0x16) tmodeTITP = bitSet b tmodeTITP := by decide

/-- The timer mode CANCEL_ALARM leaves (R181 (b)). -/
theorem mode_of_disarm : ∀ b : Byte, bitSet (b &&& 0xF8) tmodeTE = false ∧
    bitSet (b &&& 0xF8) tmodeTIE = false ∧ bitSet (b &&& 0xF8) tmodeTITP = false ∧
    (b &&& 0xF8).extractLsb' 3 2 = b.extractLsb' 3 2 := by decide

/-! ### Their transactions and cells -/

theorem recordsOf_setAlarm (chan : BitVec 4) (arg : Byte) (s : State) :
    recordsOf (.setAlarm chan arg) s =
      [⟨.read 0x01 1, .okRead [s.mem.get 0x01]⟩,
        ⟨.write 0x01 [s.mem.get 0x01 &&& 0xF7], .okWrite⟩, ⟨.write 0x10 [arg], .okWrite⟩,
        ⟨.read 0x11 1, .okRead [s.mem.get 0x11]⟩,
        ⟨.write 0x11 [(s.mem.get 0x11 &&& 0xE1) ||| 0x16], .okWrite⟩] := by
  have hmode : ((s.mem.set 0x01 (mergeBits (s.mem.get 0x01) ctrl2TF 0x00)).set 0x10 arg).get 0x11 =
      s.mem.get 0x11 := by
    rw [Memory.get_set_ne _ (by decide), Memory.get_set_ne _ (by decide)]
  rw [← mergeBits_TF, ← mergeBits_arm, ← hmode]
  rfl

theorem recordsOf_cancelAlarm (chan : BitVec 4) (arg : Byte) (s : State) :
    recordsOf (.cancelAlarm chan arg) s =
      [⟨.read 0x01 1, .okRead [s.mem.get 0x01]⟩,
        ⟨.write 0x01 [s.mem.get 0x01 &&& 0xF7], .okWrite⟩,
        ⟨.read 0x11 1, .okRead [s.mem.get 0x11]⟩,
        ⟨.write 0x11 [s.mem.get 0x11 &&& 0xF8], .okWrite⟩] := by
  have hmode : (s.mem.set 0x01 (mergeBits (s.mem.get 0x01) ctrl2TF 0x00)).get 0x11 =
      s.mem.get 0x11 := Memory.get_set_ne _ (by decide) _
  rw [← mergeBits_TF, ← mergeBits_disarm, ← hmode]
  rfl

/-- A register is written in one step of SET_ALARM: 0x01 in the second, 0x10 in the third, 0x11 in the
fifth. -/
theorem cellAfter_setAlarm (chan : BitVec 4) (arg : Byte) (o : Operand) {n : Nat} (hn : n ≤ 5)
    (x : Nat) (b : Byte) : cellAfter (.setAlarm chan arg) o n x b =
      if x = 0x01 then if 2 ≤ n then b &&& 0xF7 else b
      else if x = 0x10 then if 3 ≤ n then arg else b
      else if x = 0x11 then if 5 ≤ n then (b &&& 0xE1) ||| 0x16 else b
      else b := by
  rw [← mergeBits_TF, ← mergeBits_arm]
  have haddr : addrCtrl2.toNat = 0x01 ∧ addrTimerValue.toNat = 0x10 ∧
      addrTimerMode.toNat = 0x11 := ⟨rfl, rfl, rfl⟩
  interval_cases n <;>
    simp only [cellAfter, stepsOf, update, List.cons_append, List.nil_append, List.take_succ_cons,
      List.take_zero, List.foldl_cons, List.foldl_nil, CmdStep.onCell, haddr, ticksOf] <;>
    (split_ifs <;> first | rfl | omega)

theorem cellAfter_cancelAlarm (chan : BitVec 4) (arg : Byte) (o : Operand) {n : Nat} (hn : n ≤ 4)
    (x : Nat) (b : Byte) : cellAfter (.cancelAlarm chan arg) o n x b =
      if x = 0x01 then if 2 ≤ n then b &&& 0xF7 else b
      else if x = 0x11 then if 4 ≤ n then b &&& 0xF8 else b
      else b := by
  rw [← mergeBits_TF, ← mergeBits_disarm]
  have haddr : addrCtrl2.toNat = 0x01 ∧ addrTimerMode.toNat = 0x11 := ⟨rfl, rfl⟩
  interval_cases n <;>
    simp only [cellAfter, stepsOf, update, List.cons_append, List.nil_append, List.take_succ_cons,
      List.take_zero, List.foldl_cons, List.foldl_nil, CmdStep.onCell, haddr] <;>
    (split_ifs <;> first | rfl | omega)

/-! ### Success -/

/-- Settles O20: the quiet run of SET_ALARM, register by register. -/
theorem setAlarmArmsTheTimer : Obligations.SetAlarmArmsTheTimer := by
  intro chan arg s hs hq
  obtain ⟨u, he, -, hended, htrace, hslots, hdraws, hmem⟩ :=
    exec_succeeds (i := .setAlarm chan arg) hs (.inl rfl) hq
  rw [recordsOf_setAlarm] at htrace
  have hcells : ∀ x, (finishOf (.setAlarm chan arg) u).mem.get x =
      if x = 0x01 then s.mem.get 0x01 &&& 0xF7 else if x = 0x10 then arg
      else if x = 0x11 then (s.mem.get 0x11 &&& 0xE1) ||| 0x16 else s.mem.get x := by
    intro x
    refine (hmem x).trans ((cellAfter_setAlarm _ _ _ (Nat.le_refl 5) x _).trans ?_)
    split_ifs <;> first | rfl | omega | (subst x; rfl)
  obtain ⟨htf, haf⟩ := flags_of_clearTF (s.mem.get 0x01)
  obtain ⟨htcf, hte, htie, htitp⟩ := mode_of_arm (s.mem.get 0x11)
  have h01 := hcells 0x01
  have h10 := hcells 0x10
  have h11 := hcells 0x11
  exact ⟨_, he, ⟨hended, rfl, htrace, hslots, hdraws⟩, hcells, (congrArg tfOf h01).trans htf,
    (congrArg (bitSet · ctrl2AF) h01).trans haf, h10,
    (congrArg (BitVec.extractLsb' 3 2) h11).trans htcf, (congrArg (bitSet · tmodeTE) h11).trans hte,
    (congrArg (bitSet · tmodeTIE) h11).trans htie, (congrArg (bitSet · tmodeTITP) h11).trans htitp⟩

/-- Settles O22: the quiet run of CANCEL_ALARM, register by register. -/
theorem cancelAlarmDisarmsTheTimer : Obligations.CancelAlarmDisarmsTheTimer := by
  intro chan arg s hs hq
  obtain ⟨u, he, -, hended, htrace, hslots, hdraws, hmem⟩ :=
    exec_succeeds (i := .cancelAlarm chan arg) hs (.inl rfl) hq
  rw [recordsOf_cancelAlarm] at htrace
  have hcells : ∀ x, (finishOf (.cancelAlarm chan arg) u).mem.get x =
      if x = 0x01 then s.mem.get 0x01 &&& 0xF7
      else if x = 0x11 then s.mem.get 0x11 &&& 0xF8 else s.mem.get x := by
    intro x
    refine (hmem x).trans ((cellAfter_cancelAlarm _ _ _ (Nat.le_refl 4) x _).trans ?_)
    split_ifs <;> first | rfl | omega | (subst x; rfl)
  obtain ⟨htf, haf⟩ := flags_of_clearTF (s.mem.get 0x01)
  obtain ⟨hte, htie, htitp, htcf⟩ := mode_of_disarm (s.mem.get 0x11)
  have h01 := hcells 0x01
  have h11 := hcells 0x11
  exact ⟨_, he, ⟨hended, rfl, htrace, hslots, hdraws⟩, hcells, (congrArg tfOf h01).trans htf,
    (congrArg (bitSet · ctrl2AF) h01).trans haf, (congrArg (bitSet · tmodeTE) h11).trans hte,
    (congrArg (bitSet · tmodeTIE) h11).trans htie, (congrArg (bitSet · tmodeTITP) h11).trans htitp,
    (congrArg (BitVec.extractLsb' 3 2) h11).trans htcf, hcells 0x10⟩

/-! ### Partial failures -/

/-- A register that is written in step `m` alone, after a run that failed in step `k + 1`: old if it
had not come to it, old or new if it failed in it, new if it was past it. -/
theorem cell_of_failure {k m : Nat} {v old new : Byte}
    (h : v = (if m ≤ k then new else old) ∨ v = (if m ≤ k + 1 then new else old)) :
    (k + 1 < m → v = old) ∧ (k + 1 = m → v = old ∨ v = new) ∧ (m ≤ k → v = new) := by
  refine ⟨fun hk => ?_, fun hk => ?_, fun hk => ?_⟩
  · rwa [if_neg (by omega), if_neg (by omega), or_self] at h
  · rwa [if_neg (by omega), if_pos (by omega)] at h
  · rwa [if_pos hk, if_pos (by omega), or_self] at h

/-- Settles O21: a run that fails in its transaction `k` leaves each register as before or after the
step of that transaction. -/
theorem setAlarmPartialFailures : Obligations.SetAlarmPartialFailures := by
  intro chan arg s k l hs hk hq
  obtain ⟨t, r, hr, he, hends, -, hcells⟩ :=
    exec_fails (i := .setAlarm chan arg) (k := k) hs (.inl rfl) hk hq
  rw [recordsOf_setAlarm] at hr hends
  rw [show leadSteps (.setAlarm chan arg) + k = k from Nat.zero_add k] at hcells
  simp only [cellAfter_setAlarm _ _ _ (show k ≤ 5 by omega),
    cellAfter_setAlarm _ _ _ (show k + 1 ≤ 5 by omega)] at hcells
  obtain ⟨h01before, h01at, h01after⟩ := cell_of_failure (hcells 0x01)
  obtain ⟨h10before, h10at, h10after⟩ := cell_of_failure (hcells 0x10)
  obtain ⟨h11before, h11at, -⟩ := cell_of_failure (hcells 0x11)
  refine ⟨t, r, hr, he, hends, fun h => h01before (by omega), fun h => h01at (by omega), h01after,
    fun h => h10before (by omega), fun h => h10at (by omega), h10after,
    fun h => h11before (by omega), fun h => h11at (by omega), fun x h1 h2 h3 => ?_⟩
  simpa [h1, h2, h3] using hcells x

/-- Settles O23, as for SET_ALARM. -/
theorem cancelAlarmPartialFailures : Obligations.CancelAlarmPartialFailures := by
  intro chan arg s k l hs hk hq
  obtain ⟨t, r, hr, he, hends, -, hcells⟩ :=
    exec_fails (i := .cancelAlarm chan arg) (k := k) hs (.inl rfl) hk hq
  rw [recordsOf_cancelAlarm] at hr hends
  rw [show leadSteps (.cancelAlarm chan arg) + k = k from Nat.zero_add k] at hcells
  simp only [cellAfter_cancelAlarm _ _ _ (show k ≤ 4 by omega),
    cellAfter_cancelAlarm _ _ _ (show k + 1 ≤ 4 by omega)] at hcells
  obtain ⟨h01before, h01at, h01after⟩ := cell_of_failure (hcells 0x01)
  obtain ⟨h11before, h11at, -⟩ := cell_of_failure (hcells 0x11)
  refine ⟨t, r, hr, he, hends, fun h => h01before (by omega), fun h => h01at (by omega), h01after,
    fun h => h11before (by omega), fun h => h11at (by omega), fun x h1 h2 => ?_⟩
  simpa [h1, h2] using hcells x

/-! ### One arm cycle -/

/-- An idle block with the commands `rest` to come, `n` slots after `s`. -/
def State.idleAfter (n : Nat) (s t : State) (rest : List Input) : Prop :=
  t.busy = false ∧ t.inputs = rest ∧ t.slots = s.slots.drop n

theorem idleAfter_of_endsWith {s t : State} {w : CmdWord} {o : Operand} {rest : List Input}
    {r : Response} {recs : List TxnRecord}
    (h : (accept w o { s with inputs := rest }).endsWith t r recs) :
    s.idleAfter recs.length t rest := by
  obtain ⟨⟨⟨hbusy, -⟩, -, hinputs⟩, -, -, hslots, -⟩ := h
  exact ⟨hbusy, hinputs, hslots⟩

theorem step_setAlarm {s : State} {w : CmdWord} {o : Operand} {rest : List Input}
    (hb : s.busy = false) (hw : opOf w = 0x7) (hi : s.inputs = .command w o :: rest)
    (hq : s.quietFor 5) : ∃ t, step s = .next t ∧ t.rsp = some (.ok .none) ∧ t.TF = false ∧
      s.idleAfter 5 t rest := by
  obtain ⟨t, he, hends, -, htf, -⟩ := setAlarmArmsTheTimer (chanOf w) (argOf w)
    (accept w o { s with inputs := rest }) (accept_begun _ _ _) hq
  obtain ⟨-, hrsp, -⟩ := id hends
  exact ⟨t, by rw [step_command hb hi, decode_of_op hw]; exact he, hrsp, htf,
    idleAfter_of_endsWith hends⟩

theorem step_cancelAlarm {s : State} {w : CmdWord} {o : Operand} {rest : List Input}
    (hb : s.busy = false) (hw : opOf w = 0x8) (hi : s.inputs = .command w o :: rest)
    (hq : s.quietFor 4) : ∃ t, step s = .next t ∧ t.rsp = some (.ok .none) ∧ t.TF = false ∧
      s.idleAfter 4 t rest := by
  obtain ⟨t, he, hends, -, htf, -⟩ := cancelAlarmDisarmsTheTimer (chanOf w) (argOf w)
    (accept w o { s with inputs := rest }) (accept_begun _ _ _) hq
  obtain ⟨-, hrsp, -⟩ := id hends
  exact ⟨t, by rw [step_command hb hi, decode_of_op hw]; exact he, hrsp, htf,
    idleAfter_of_endsWith hends⟩

theorem step_poll {s : State} {w : CmdWord} {o : Operand} {rest : List Input}
    (hb : s.busy = false) (hw : opOf w = 0x9) (hi : s.inputs = .command w o :: rest)
    (hq : s.quietFor 1) : ∃ t, step s = .next t ∧ t.rsp = some (.ok (.flag s.TF)) ∧ t.TF = s.TF ∧
      s.idleAfter 1 t rest := by
  obtain ⟨t, he, hends, hmem⟩ := exec_getPendingInt_quiet (chanOf w) (argOf w)
    (accept_begun w o { s with inputs := rest }) hq
  obtain ⟨-, hrsp, -⟩ := id hends
  exact ⟨t, by rw [step_command hb hi, decode_of_op hw]; exact he, hrsp,
    congrArg (fun m : Memory => tfOf (m.get 1)) hmem, idleAfter_of_endsWith hends⟩

theorem step_raiseTF {s : State} {rest : List Input} (hb : s.busy = false)
    (hi : s.inputs = .env (.chip .raiseTF) :: rest) :
    ∃ t, step s = .next t ∧ t.TF = true ∧ s.idleAfter 0 t rest := by
  refine ⟨_, (step_env hb hi).trans (takeEvent_of_apply rfl), ?_, hb, rfl, rfl⟩
  obtain ⟨-, htf, -⟩ := setBits_TF (s.mem.get 1)
  exact (congrArg tfOf (ChipMove.raiseTF_get s.mem 1)).trans htf

/-- Settles O26: each step leaves an idle block, the next inputs and the slots that are left; the polls
answer `TF`, which the chip raises and the alarm commands clear. -/
theorem armCycleIsReported : Obligations.ArmCycleIsReported := by
  intro s wA wP wP' wP'' wC wP3 o rest hb hq hA hP hP' hP'' hC hP3 hi
  obtain ⟨s1, e1, r1, f1, b1, i1, l1⟩ := step_setAlarm hb hA hi (quietFor_mono hq (by decide))
  have q1 : s1.quietFor 8 := quietFor_drop hq l1
  obtain ⟨s2, e2, r2, -, b2, i2, l2⟩ := step_poll b1 hP i1 (quietFor_mono q1 (by decide))
  have q2 : s2.quietFor 7 := quietFor_drop q1 l2
  obtain ⟨s3, e3, f3, b3, i3, l3⟩ := step_raiseTF b2 i2
  have q3 : s3.quietFor 7 := quietFor_drop (j := 0) (by rwa [Nat.zero_add]) l3
  obtain ⟨s4, e4, r4, f4, b4, i4, l4⟩ := step_poll b3 hP' i3 (quietFor_mono q3 (by decide))
  have q4 : s4.quietFor 6 := quietFor_drop q3 l4
  obtain ⟨s5, e5, r5, -, b5, i5, l5⟩ := step_poll b4 hP'' i4 (quietFor_mono q4 (by decide))
  have q5 : s5.quietFor 5 := quietFor_drop q4 l5
  obtain ⟨s6, e6, r6, f6, b6, i6, l6⟩ := step_cancelAlarm b5 hC i5 (quietFor_mono q5 (by decide))
  have q6 : s6.quietFor 1 := quietFor_drop q5 l6
  obtain ⟨s7, e7, r7, -, -, i7, -⟩ := step_poll b6 hP3 i6 q6
  rw [f1] at r2
  rw [f3] at r4 f4
  rw [f4] at r5
  rw [f6] at r7
  exact ⟨s1, s2, s3, s4, s5, s6, s7, e1, e2, e3, e4, e5, e6, e7, r1, r2, r4, r5, r6, r7, i7⟩

end Sys2Proof.Machine
end

