-- ==== Sys2Proof/Proofs/Interference.lean ====
section
/-! The obligations about other agents that act between the two halves of an `Update`
(70_reset_and_hazards.md R255, R256). -/

namespace Sys2Proof.Machine

/-- The script begins with one quiet slot, then the slots `more`. -/
theorem quietFor_of_cons {s : State} {more : List Slot} (h : s.slots = .quiet :: more) :
    s.quietFor 1 := by
  intro j hj
  obtain rfl : j = 0 := by omega
  rw [h]
  rfl

/-- An `Update` between whose halves the events `es` happen, which turn the registers into `m`: the
write-back goes on top of them, with what was read before them. -/
theorem runSteps_update_between {finish : State → State} {rest : List CmdStep} {a mask val : Byte}
    {s : State} {es : List EnvEvent} {m : Memory} {more : List Slot} (ha : a.toNat < regCount)
    (hc : s.cut = none) (hf : s.inFlight = none) (hslots : s.slots = .quiet :: ⟨es, .ok⟩ :: more)
    (hev : ∀ u : State, u.mem = s.mem → applyEvents es u = some { u with mem := m }) :
    ∃ u : State, u.mem = m.set a.toNat (mergeBits (s.mem.get a.toNat) mask val) ∧
      u.slots = more ∧ u.cut = none ∧ u.inFlight = none ∧
      runSteps finish (update a mask val ++ rest) s = runSteps finish rest u := by
  have hwrite : ∀ u : State, u.slots = ⟨es, .ok⟩ :: more → u.mem = s.mem → u.inFlight = none →
      (CmdStep.writeBack a mask val).perform u = .done { u with
        slots := more, mem := m.set a.toNat (mergeBits u.tmp mask val), inFlight := none,
        trace := u.trace ++ [⟨.write a [mergeBits u.tmp mask val], .okWrite⟩] } := by
    intro u hu hmem hflight
    rw [CmdStep.perform_eq (c := .writeBack a mask val) rfl, transact, if_pos (inMap_write_one _ ha)]
    simp only [State.nextSlot, hu, List.headD_cons, List.tail_cons]
    rw [hev { u with slots := more } hmem]
    simp only
    rw [answerFrom_of_none (by exact hflight)]
    rfl
  rw [update, List.cons_append, runSteps_readTmp_quiet ha hc hf (quietFor_of_cons hslots)]
  refine ⟨_, ?_, ?_, ?_, ?_, runSteps_done (by exact hc) (hwrite _ (by rw [hslots]; rfl) rfl rfl)⟩
  · rfl
  · rfl
  · exact hc
  · rfl

/-- A step that writes one byte, quietly. -/
theorem runSteps_writeByte_next {finish : State → State} {rest : List CmdStep} {a v : Byte}
    {s : State} {more : List Slot} (ha : a.toNat < regCount) (hc : s.cut = none)
    (hf : s.inFlight = none) (hslots : s.slots = .quiet :: more) :
    ∃ u : State, u.mem = s.mem.set a.toNat v ∧ u.slots = more ∧ u.cut = none ∧
      u.inFlight = none ∧ runSteps finish (.writeByte a v :: rest) s = runSteps finish rest u := by
  rw [runSteps_writeByte_quiet ha hc hf (quietFor_of_cons hslots)]
  refine ⟨_, ?_, ?_, ?_, ?_, rfl⟩
  · rfl
  · rw [hslots]; rfl
  · exact hc
  · rfl

/-- An `Update` nobody acts in. -/
theorem runSteps_update_next {finish : State → State} {rest : List CmdStep} {a mask val : Byte}
    {s : State} {more : List Slot} (ha : a.toNat < regCount) (hc : s.cut = none)
    (hf : s.inFlight = none) (hslots : s.slots = .quiet :: .quiet :: more) :
    ∃ u : State, u.mem = s.mem.set a.toNat (mergeBits (s.mem.get a.toNat) mask val) ∧
      u.slots = more ∧ u.cut = none ∧ u.inFlight = none ∧
      runSteps finish (update a mask val ++ rest) s = runSteps finish rest u :=
  runSteps_update_between ha hc hf hslots fun u hu => by rw [← hu]; rfl

/-- Another caller's write of one byte inside the map. -/
theorem applyEvents_foreign {a v : Byte} (ha : a.toNat < regCount) (n : Nat) (m : Memory) (u : State)
    (hu : u.mem = m) : applyEvents [.foreign n (.write a [v]) none] u =
      some { u with mem := m.set a.toNat v } := by
  rw [← hu, applyEvents, EnvEvent.apply, if_pos (inMap_write_one v ha)]
  rfl

/-! ### The sequences of steps of the two alarm commands -/

theorem exec_setAlarm_start (chan : BitVec 4) (arg : Byte) {s : State} (h : s.step = 0) :
    exec (.setAlarm chan arg) s = runSteps (respondOk .none)
      (update addrCtrl2 ctrl2TF 0x00 ++
        (.writeByte addrTimerValue arg :: (update addrTimerMode armMask armVal ++ []))) s :=
  exec_eq_start _ h

theorem exec_cancelAlarm_start (chan : BitVec 4) (arg : Byte) {s : State} (h : s.step = 0) :
    exec (.cancelAlarm chan arg) s = runSteps (respondOk .none)
      (update addrCtrl2 ctrl2TF 0x00 ++ (update addrTimerMode disarmMask 0x00 ++ [])) s :=
  exec_eq_start _ h

theorem exec_updateOf_start {i : Instr} {a mask val : Byte} (h : updateOf i = some (a, mask, val))
    {s : State} (hs : s.step = 0) :
    exec i s = runSteps (respondOk .none) (update a mask val ++ []) s := by
  obtain ⟨hsteps, -, -, hprepare, hfinish, -⟩ := updateOf_spec h
  rw [exec_eq_start i hs, hsteps, hprepare, List.append_nil]
  congr 1
  exact funext hfinish

theorem updateOf_addr {i : Instr} {a mask val : Byte} (h : updateOf i = some (a, mask, val)) :
    a.toNat < regCount := by
  cases i with
  | start c arg => cases h; decide
  | stop c arg => cases h; decide
  | setOffsetMode c arg => cases h; decide
  | setOffsetValue c arg => cases h; decide
  | setCapSelect c arg => cases h; decide
  | _ => cases h

/-! ### The obligations -/

/-- A foreign write under a write-back to the same register leaves nothing. -/
theorem get_set_set (m : Memory) (a : Nat) (v w : Byte) (x : Nat) :
    ((m.set a v).set a w).get x = if x = a then w else m.get x := by
  rw [Memory.get_set, Memory.get_set]
  split <;> rfl

/-- Settles O54: the write-back goes on top of the foreign write, with the byte read before it. -/
theorem foreignWriteInsideUpdateIsLost : Obligations.ForeignWriteInsideUpdateIsLost := by
  intro s v n more hs writes
  obtain ⟨hstep, hcut, hflight⟩ := hs
  have haddr : addrCtrl2.toNat = 0x01 ∧ addrTimerValue.toNat = 0x10 ∧
      addrTimerMode.toNat = 0x11 := ⟨rfl, rfl, rfl⟩
  refine ⟨fun i a mask val hi hslots => ?_, fun chan arg hslots => ?_, fun chan arg hslots => ?_⟩
  · have ha := updateOf_addr hi
    obtain ⟨u, hmem, -, hc, -, hrun⟩ := runSteps_update_between (finish := respondOk .none)
      (rest := []) (mask := mask) (val := val) ha hcut hflight hslots (applyEvents_foreign ha n _)
    refine ⟨respondOk .none u, ?_, rfl, fun x => ?_⟩
    · rw [exec_updateOf_start hi hstep, hrun, runSteps_nil hc]
    · rw [respondOk_mem, hmem, get_set_set]
      rfl
  · obtain ⟨u1, m1, l1, c1, f1, e1⟩ := runSteps_update_between (a := addrCtrl2) (by decide) hcut
      hflight hslots (applyEvents_foreign (a := addrCtrl2) (by decide) n _)
    obtain ⟨u2, m2, l2, c2, f2, e2⟩ := runSteps_writeByte_next (a := addrTimerValue)
      (by decide) c1 f1 l1
    obtain ⟨u3, m3, -, c3, -, e3⟩ := runSteps_update_between (a := addrTimerMode) (by decide) c2 f2 l2
      (applyEvents_foreign (a := addrTimerMode) (by decide) n _)
    refine ⟨respondOk .none u3, ?_, rfl, fun x => ?_⟩
    · rw [exec_setAlarm_start chan arg hstep, e1, e2, e3, runSteps_nil c3]
    · rw [respondOk_mem, m3, m2, m1, mergeBits_TF, mergeBits_arm]
      simp only [Memory.get_set, haddr, Nat.reduceEqDiff, if_false]
      split_ifs <;> first | rfl | omega
  · obtain ⟨u1, m1, l1, c1, f1, e1⟩ := runSteps_update_between (a := addrCtrl2) (by decide) hcut
      hflight hslots (applyEvents_foreign (a := addrCtrl2) (by decide) n _)
    obtain ⟨u2, m2, -, c2, -, e2⟩ := runSteps_update_between (a := addrTimerMode) (by decide) c1 f1 l1
      (applyEvents_foreign (a := addrTimerMode) (by decide) n _)
    refine ⟨respondOk .none u2, ?_, rfl, fun x => ?_⟩
    · rw [exec_cancelAlarm_start chan arg hstep, e1, e2, runSteps_nil c2]
    · rw [respondOk_mem, m2, m1, mergeBits_TF, mergeBits_disarm]
      simp only [Memory.get_set, haddr, Nat.reduceEqDiff, if_false]
      split_ifs <;> first | rfl | omega

/-- The chip raises `AF`, then `TF`. -/
theorem applyEvents_raiseFlags (m : Memory) (u : State) (hu : u.mem = m) :
    applyEvents [.chip .raiseAF, .chip .raiseTF] u =
      some { u with mem := ChipMove.raiseTF.apply (ChipMove.raiseAF.apply m) } := by
  rw [← hu]
  rfl

/-- Settles O55: step (a) ends with the flags it read, `TF` cleared, and the rest of either command
does not reach their register. -/
theorem alarmFlagRaisedInsideStepAIsLost : Obligations.AlarmFlagRaisedInsideStepAIsLost := by
  intro i s more hs hop hslots
  obtain ⟨hstep, hcut, hflight⟩ := hs
  have hflags : ∀ {t : State}, t.mem.get 1 = mergeBits (s.mem.get 1) ctrl2TF 0x00 →
      t.AF = s.AF ∧ t.TF = false := by
    intro t ht
    rw [mergeBits_TF] at ht
    obtain ⟨htf, haf⟩ := flags_of_clearTF (s.mem.get 1)
    exact ⟨(congrArg (bitSet · ctrl2AF) ht).trans haf, (congrArg tfOf ht).trans htf⟩
  cases i with
  | setAlarm chan arg =>
    obtain ⟨u1, m1, l1, c1, f1, e1⟩ := runSteps_update_between (a := addrCtrl2) (by decide) hcut
      hflight hslots (applyEvents_raiseFlags _)
    obtain ⟨u2, m2, l2, c2, f2, e2⟩ := runSteps_writeByte_next (a := addrTimerValue) (by decide) c1 f1
      l1
    obtain ⟨u3, m3, -, c3, -, e3⟩ := runSteps_update_next (a := addrTimerMode) (by decide) c2 f2 l2
    refine ⟨respondOk .none u3, ?_, rfl, hflags ?_⟩
    · rw [exec_setAlarm_start chan arg hstep, e1, e2, e3, runSteps_nil c3]
    · rw [respondOk_mem, m3, Memory.get_set_ne _ (by decide), m2, Memory.get_set_ne _ (by decide), m1]
      exact Memory.get_set_same _ _ _
  | cancelAlarm chan arg =>
    obtain ⟨u1, m1, l1, c1, f1, e1⟩ := runSteps_update_between (a := addrCtrl2) (by decide) hcut
      hflight hslots (applyEvents_raiseFlags _)
    obtain ⟨u2, m2, -, c2, -, e2⟩ := runSteps_update_next (a := addrTimerMode) (by decide) c1 f1 l1
    refine ⟨respondOk .none u2, ?_, rfl, hflags ?_⟩
    · rw [exec_cancelAlarm_start chan arg hstep, e1, e2, runSteps_nil c2]
    · rw [respondOk_mem, m2, Memory.get_set_ne _ (by decide), m1]
      exact Memory.get_set_same _ _ _
  | _ => rcases hop with hop | hop <;> cases hop

end Sys2Proof.Machine
end

