-- ==== Sys2Proof/Proofs/Abandoned.lean ====
section
/-! The obligations that compare two runs of a command: one that a block reset abandons with one that
fails (10_state.md R50), and a retry with a first success (60_exceptions.md R218). -/

namespace Sys2Proof.Machine

/-! ### The same command in another environment -/

/-- The state with another script, another position of a block reset and another `BUS_READY`. -/
def State.under (z : List Slot) (cut : Option Nat) (ready : Bool) (s : State) : State :=
  { s with slots := z, cut := cut, busReady := ready }

section
variable (z : List Slot) (cut : Option Nat) (ready : Bool)

theorem prepare_under (i : Instr) (s : State) :
    prepare i (s.under z cut ready) = (prepare i s).under z cut ready := by
  cases i <;> rfl

/-- Quiet steps do not see the environment but for the slots they use. -/
theorem quietRun_under (l : List CmdStep) (s : State) :
    ∃ z', quietRun l (s.under z cut ready) = (quietRun l s).under z' cut ready := by
  induction l generalizing s z with
  | nil => exact ⟨z, rfl⟩
  | cons c l ih =>
    obtain ⟨z', hz'⟩ : ∃ z', c.quietly (s.under z cut ready) =
        (c.quietly s).under z' cut ready := by cases c <;> exact ⟨_, rfl⟩
    rw [quietRun_cons, quietRun_cons, hz']
    exact ih z' (c.quietly s)

theorem quietRecords_under (l : List CmdStep) (s : State) :
    quietRecords l (s.under z cut ready) = quietRecords l s := by
  induction l generalizing s z with
  | nil => rfl
  | cons c l ih =>
    obtain ⟨z', hz'⟩ : ∃ z', c.quietly (s.under z cut ready) =
        (c.quietly s).under z' cut ready := by cases c <;> exact ⟨_, rfl⟩
    have hrecord : c.quietRecord (s.under z cut ready) = c.quietRecord s := by cases c <;> rfl
    rw [quietRecords, quietRecords, hz', ih, hrecord]

theorem quietAt_under_mem (i : Instr) (n : Nat) (s : State) :
    (quietAt i n (s.under z cut ready)).mem = (quietAt i n s).mem := by
  obtain ⟨z', hz'⟩ := quietRun_under z cut ready ((stepsOf i).take n) (prepare i s)
  rw [quietAt, prepare_under, hz']
  rfl

theorem recordsOf_under (i : Instr) (s : State) :
    recordsOf i (s.under z cut ready) = recordsOf i s := by
  rw [recordsOf, prepare_under, quietRecords_under]
  rfl

end

theorem quietThen_failingAfter (k : Nat) (l : List Bool) (cut : Option Nat) (ready : Bool)
    (s : State) : (s.under (failingAfter k l) cut ready).quietThen k (.fail l) := by
  constructor
  · intro j hj
    show (failingAfter k l).getD j .quiet = .quiet
    rw [failingAfter, List.getD_append _ _ _ _ (by simpa using hj), List.getD_replicate _ hj]
  · show (failingAfter k l).getD k .quiet = ⟨[], .fail l⟩
    rw [failingAfter, List.getD_append_right _ _ _ _ (by simp)]
    simp

/-- The steps before the first transaction leave the registers. -/
theorem quietAt_mem_of_lead {i : Instr} {n : Nat} (hn : n ≤ leadSteps i) (s : State) :
    (quietAt i n s).mem = s.mem := by
  have hzero : (quietAt i 0 s).mem = s.mem := prepare_mem i s
  cases i with
  | init c a =>
    obtain rfl | rfl : n = 0 ∨ n = 1 := by have : n ≤ 1 := hn; omega
    · rfl
    · rfl
  | _ =>
    obtain rfl : n = 0 := Nat.le_zero.1 hn
    exact hzero

/-- A block reset after the first `n` steps, these quiet: the block ends where they left it. -/
theorem exec_cutAfter {i : Instr} {n : Nat} {s : State} (hn : n ≤ (stepsOf i).length)
    (hstep : s.step = 0) (hcut : s.cut = some n) (hf : s.inFlight = none)
    (hready : s.busReady = true ∨ n = 0) (hq : s.quietFor (n - leadSteps i)) :
    exec i s = .next (blockReset (quietAt i n s)) := by
  obtain ⟨hstep', -, hcut', -⟩ := quietAt_keeps hn hstep hf
  rw [exec_quietAt hn hstep hf (fun m hm => by rw [hcut] at hm; cases hm; exact Nat.le_refl n)
    (.inr hready) hq]
  refine runSteps_cut ?_
  rw [isCut_iff, hcut', hcut, hstep']

/-- Settles O40: both runs are quiet up to the same point; there a reset in a transaction leaves what
its failure leaves, and one between steps what a failure with nothing stored leaves. -/
theorem resetAtAnyPointAbandonsTheCommand : Obligations.ResetAtAnyPointAbandonsTheCommand := by
  constructor
  · intro i s k l hs hready hk hq
    obtain ⟨t, r, hr, he, hended, hrsp, htrace, hslots, hmem, -⟩ := exec_resets hs (.inr hready) hk hq
    obtain ⟨hstep, hcut, hf⟩ := hs
    have hunder : ({ s with slots := failingAfter k l } : State) =
        s.under (failingAfter k l) s.cut s.busReady := rfl
    obtain ⟨u, r', hr', he', ⟨-, hrsp', htrace', -, -⟩, hmem', -⟩ :=
      exec_fails (i := i) (s := s.under (failingAfter k l) s.cut s.busReady) ⟨hstep, hcut, hf⟩
        (.inr hready) hk (quietThen_failingAfter k l _ _ s)
    rw [recordsOf_under] at hr' htrace'
    cases hr.symm.trans hr'
    rw [quietAt_under_mem, ← hmem] at hmem'
    exact ⟨t, u, he, hunder ▸ he', hended, hrsp, hrsp', hmem'.symm, htrace.trans htrace'.symm, hslots⟩
  · intro i s n hstep hcut hf hready hn hq
    rw [← length_stepsOf] at hn
    have he := exec_cutAfter hn hstep hcut hf hready hq
    obtain ⟨-, -, -, hbus, hinputs, hdraws, hslots, htrace, -⟩ := quietAt_keeps hn hstep hf
    have hlen := length_stepsOf i
    have hrecs := length_recordsOf i s
    have hmem : (quietAt i n s).mem = (quietAt i (leadSteps i + (n - leadSteps i)) s).mem := by
      obtain hle | hle := Nat.le_total (leadSteps i) n
      · rw [Nat.add_sub_cancel' hle]
      · rw [quietAt_mem_of_lead hle, quietAt_mem_of_lead (by omega)]
    obtain ⟨u, he', hmem', tail, htrace'⟩ : ∃ u,
        exec i (s.under (failingAfter (n - leadSteps i) []) none true) = .next u ∧
        u.mem = (quietAt i n s).mem ∧
        ∃ tail, u.trace = s.trace ++ ((recordsOf i s).take (n - leadSteps i) ++ tail) := by
      have hq' := quietThen_failingAfter (n - leadSteps i) [] none true s
      have hbegun : (s.under (failingAfter (n - leadSteps i) []) none true).begun := ⟨hstep, rfl, hf⟩
      obtain hk | hk := Nat.lt_or_ge (n - leadSteps i) (accesses i).length
      · obtain ⟨u, r, -, he', ⟨-, -, htrace', -, -⟩, hmem', -⟩ := exec_fails hbegun (.inr rfl) hk hq'
        rw [recordsOf_under] at htrace'
        rw [Txn.storePart_nil, quietAt_under_mem, ← hmem] at hmem'
        exact ⟨u, he', hmem', _, htrace'⟩
      · obtain ⟨u, he', rfl, -, htrace', -⟩ :=
          exec_succeeds hbegun (.inr rfl) (quietFor_mono hq'.1 hk)
        rw [recordsOf_under] at htrace'
        refine ⟨_, he', ?_, [], ?_⟩
        · rw [finishOf_mem, quietAt_under_mem, hmem]
          congr 2
          omega
        · rw [htrace', List.append_nil, List.take_of_length_le (by omega)]
          rfl
    refine ⟨_, u, he, he', ⟨blockReset_atRest _, hbus, hinputs⟩, rfl, hmem'.symm, hslots, hdraws,
      ?_, ?_⟩
    · rw [htrace', List.drop_left, List.take_left' (by rw [List.length_take]; omega)]
      exact htrace
    · rw [blockReset_trace, htrace, List.length_append, List.length_take]
      omega

/-! ### A retry -/

/-- The step writes the register `x`. -/
def CmdStep.touches (x : Nat) : CmdStep → Bool
  | .writeBack a _ _ | .writeByte a _ => decide (x = a.toNat)
  | .writeBlock a => decide (a.toNat ≤ x) && decide (x < a.toNat + 7)
  | .sampleReady | .probe _ | .readTmp _ | .readBlock _ => false

theorem onCell_of_not_touches {c : CmdStep} {x : Nat} (h : c.touches x = false) (o : Operand)
    (b : Byte) : c.onCell o x b = b := by
  cases c with
  | writeBack a mask val => exact if_neg (of_decide_eq_false h)
  | writeByte a v => exact if_neg (of_decide_eq_false h)
  | writeBlock a =>
    refine if_neg fun ⟨h1, h2⟩ => ?_
    simp [CmdStep.touches, h1, h2] at h
  | _ => rfl

theorem mergeBits_mergeBits (b mask val : Byte) :
    mergeBits (mergeBits b mask val) mask val = mergeBits b mask val := by
  apply BitVec.eq_of_getLsbD_eq
  intro k hk
  simp only [mergeBits, BitVec.getLsbD_and, BitVec.getLsbD_or, BitVec.getLsbD_not, hk, decide_true,
    Bool.true_and]
  cases mask.getLsbD k <;> cases b.getLsbD k <;> cases val.getLsbD k <;> rfl

/-- A step done twice leaves a register as done once. -/
theorem onCell_onCell (c : CmdStep) (o : Operand) (x : Nat) (b : Byte) :
    c.onCell o x (c.onCell o x b) = c.onCell o x b := by
  cases c with
  | writeBack a mask val =>
    simp only [CmdStep.onCell]
    split
    · exact mergeBits_mergeBits b mask val
    · rfl
  | writeByte a v =>
    simp only [CmdStep.onCell]
    split <;> rfl
  | writeBlock a =>
    simp only [CmdStep.onCell]
    split <;> rfl
  | _ => rfl

theorem foldl_onCell_of_not_touches {l : List CmdStep} {x : Nat}
    (h : ∀ c ∈ l, c.touches x = false) (o : Operand) (b : Byte) :
    l.foldl (fun b c => c.onCell o x b) b = b := by
  induction l generalizing b with
  | nil => rfl
  | cons c l ih =>
    obtain ⟨hc, hl⟩ := List.forall_mem_cons.1 h
    rw [List.foldl_cons, onCell_of_not_touches hc, ih hl]

/-- Where no register is written twice, the steps done after some of them have been done leave it as
the steps done once. -/
theorem foldl_onCell_again {l : List CmdStep} {x : Nat}
    (h : l.Pairwise fun c d => c.touches x = true → d.touches x = false) (o : Operand) (n : Nat)
    (b : Byte) : l.foldl (fun b c => c.onCell o x b) ((l.take n).foldl (fun b c => c.onCell o x b) b) =
      l.foldl (fun b c => c.onCell o x b) b := by
  induction l generalizing n b with
  | nil => rw [List.take_nil]; rfl
  | cons c l ih =>
    obtain ⟨hc, hl⟩ := List.pairwise_cons.1 h
    cases n with
    | zero => rfl
    | succ n =>
      simp only [List.take_succ_cons, List.foldl_cons]
      cases ht : c.touches x with
      | false => rw [onCell_of_not_touches ht, onCell_of_not_touches ht, ih hl]
      | true =>
        have hrest : ∀ d ∈ l, d.touches x = false := fun d hd => hc d hd ht
        rw [foldl_onCell_of_not_touches (fun d hd => hrest d (List.mem_of_mem_take hd)),
          onCell_onCell]

/-- No command writes a register in two of its steps. -/
theorem stepsOf_touches (i : Instr) (x : Nat) :
    (stepsOf i).Pairwise fun c d => c.touches x = true → d.touches x = false := by
  have h1 : x = addrCtrl2.toNat → x ≠ addrTimerValue.toNat := by rintro rfl; decide
  have h2 : x = addrCtrl2.toNat → x ≠ addrTimerMode.toNat := by rintro rfl; decide
  have h3 : x = addrTimerValue.toNat → x ≠ addrTimerMode.toNat := by rintro rfl; decide
  cases i with
  | setAlarm c a => simpa [stepsOf, update, CmdStep.touches] using ⟨⟨h1, h2⟩, h3⟩
  | cancelAlarm c a => simpa [stepsOf, update, CmdStep.touches] using h2
  | _ => simp [stepsOf, update, CmdStep.touches]

/-- A register the first steps of a command have reached becomes by the whole command what it becomes
from the start. -/
theorem cellAfter_again (i : Instr) (o : Operand) (n x : Nat) (b : Byte) :
    cellAfter i o (stepsOf i).length x (cellAfter i o n x b) =
      cellAfter i o (stepsOf i).length x b := by
  simp only [cellAfter, List.take_length]
  exact foldl_onCell_again (stepsOf_touches i x) o n b

/-! ### A run nobody interferes with -/

/-- Nobody else acting, a step that returned `Ok` is a quiet step. -/
theorem perform_done_silent {i : Instr} {c : CmdStep} (hc : c ∈ stepsOf i) {u u' : State}
    (hs : u.silent = true) (hf : u.inFlight = none) (h : c.perform u = .done u') :
    u'.advance = c.quietly u := by
  cases ht : c.txn u with
  | none =>
    rw [CmdStep.perform_noTxn ht (u := u') (by rw [h]; rfl), CmdStep.quietly, ht]
  | some t =>
    have hslot : u.nextSlot = ⟨[], u.nextSlot.answer⟩ := by rw [← before_of_silent hs]
    rw [CmdStep.perform_eq ht, transact_silent (stepsOf_inMap hc ht) hf hslot] at h
    unfold settle at h
    split at h <;> cases h
    exact (quietly_of_txn ht).symm

/-- Each register stands in `t` as after some of the steps of a quiet command begun in `s`. -/
def reachedFrom (i : Instr) (s t : State) : Prop :=
  ∀ x, ∃ n, t.mem.get x = cellAfter i s.opnd n x (s.mem.get x)

/-- The registers a step leaves that did not return `Ok`, nobody else acting and all before it
quiet. -/
theorem reachedFrom_perform {i : Instr} {c : CmdStep} {rest : List CmdStep} {s u u' : State}
    (hs : u.silent = true) (hu : u = quietAt i u.step s)
    (hd : (stepsOf i).drop u.step = c :: rest) (h : (c.perform u).state = some u') :
    reachedFrom i s u' := by
  have hget : (stepsOf i)[u.step]? = some c := by rw [← List.head?_drop, hd]; rfl
  have hmem : u.mem = (quietAt i u.step s).mem := congrArg State.mem hu
  intro x
  cases ht : c.txn u with
  | none =>
    rw [CmdStep.perform_noTxn ht h, hmem, get_quietAt]
    exact ⟨_, rfl⟩
  | some t =>
    obtain ⟨s1, hs1, -, hcase⟩ := perform_mem (drop_cons_mem hd).1 ht h
    rw [before_of_silent hs, applyEvents_nil] at hs1
    cases hs1
    have ht' : c.txn (quietAt i u.step s) = some t := by rw [← hu]; exact ht
    obtain hm | ⟨landed, hm⟩ := hcase
    · refine ⟨u.step + 1, ?_⟩
      rw [hm, ← get_quietAt, quietAt_succ hget, quietly_mem ht', ← hmem]
    · rw [hm]
      dsimp only
      rw [hmem]
      exact (get_storePart_quietAt hget ht' landed x).elim (⟨_, ·⟩) (⟨_, ·⟩)

/-- The registers a command leaves, nobody else acting. -/
theorem exec_reachedFrom {i : Instr} {s t : State} (hs : s.begun) (hsilent : s.silent = true)
    (h : exec i s = .next t) : reachedFrom i s t := by
  obtain ⟨hstep, -, hf⟩ := hs
  have hat : ∀ {u : State}, u = quietAt i u.step s → reachedFrom i s u := by
    intro u hu x
    exact ⟨u.step, by rw [← get_quietAt, ← hu]⟩
  refine exec_next (P := fun u => u.silent = true ∧ u.inFlight = none ∧ u = quietAt i u.step s)
    (Q := reachedFrom i s) ?_ ?_ ?_ ?_ ?_ ?_ ?_ h
  · rintro c rest u u' ⟨hs, hf, hu⟩ hd hp
    have hget : (stepsOf i)[u.step]? = some c := by rw [← List.head?_drop, hd]; rfl
    have hadv := perform_done_silent (drop_cons_mem hd).1 hs hf hp
    refine ⟨CmdStep.perform_silent (c := c) (u := u') (by rw [hp]; rfl) hs, ?_, ?_⟩
    · rw [hadv]; exact quietly_inFlight c hf
    · rw [hadv, quietly_step, quietAt_succ hget, ← hu]
  · rintro c rest u k u' ⟨hs, -, hu⟩ hd hp
    exact reachedFrom_perform (u' := u') hs hu hd (by rw [hp]; rfl)
  · rintro c rest u u' ⟨hs, -, hu⟩ hd hp
    exact reachedFrom_perform hs hu hd (by rw [hp]; rfl)
  · rintro c rest u u' ⟨hs, -, hu⟩ hd hp
    exact reachedFrom_perform (u' := u') hs hu hd (by rw [hp]; rfl)
  · rintro u ⟨-, -, hu⟩ - x
    exact hat hu x
  · rintro u ⟨-, -, hu⟩ - - x
    rw [finishOf_mem]
    exact hat hu x
  · refine ⟨?_, by rw [prepare_inFlight, hf], ?_⟩
    · rw [silent_iff, prepare_slots, ← silent_iff]; exact hsilent
    · rw [prepare_step, hstep]; rfl

/-- The registers a command leaves when nobody acts and the transport answers `Ok`. -/
theorem exec_alone_get {w : CmdWord} {o : Operand} {s u : State} (hready : s.busReady = true)
    (h : exec (decode w) (accept w o { s with slots := [] }) = .next u) (x : Nat) :
    u.mem.get x = cellAfter (decode w) o (stepsOf (decode w)).length x (s.mem.get x) := by
  obtain ⟨v, hv, -, -, -, -, -, hmem⟩ :=
    exec_succeeds (i := decode w) (accept_begun w o { s with slots := [] }) (.inr hready)
      (fun j _ => rfl)
  cases h.symm.trans hv
  exact hmem x

/-- Settles O56: the ended run leaves each register as some of its steps done leave it, and these done
again are done once. -/
theorem retryReachesTheSameRegisters : Obligations.RetryReachesTheSameRegisters := by
  intro w o s t u v hs ht _ hu hv hready x
  obtain ⟨hbus, -, -⟩ := exec_undisturbed (s := accept w o s) hs ht
  obtain ⟨n, hn⟩ := exec_reachedFrom (accept_begun w o s) hs ht x
  rw [exec_alone_get (hbus.trans hready) hu, exec_alone_get hready hv, hn]
  exact cellAfter_again _ _ _ _ _

end Sys2Proof.Machine
end

