-- ==== Sys2Proof/Proofs/Waiting.lean ====
section
/-! The obligation about commands that wait: a late transaction only delays, one under a power loss never
completes, one that never returns hangs (20_memory.md R79, 60_exceptions.md R229,
70_reset_and_hazards.md R266). -/

namespace Sys2Proof.Machine

/-! ### The data latches -/

/-- Only a read into a latch changes it. -/
theorem CmdStep.perform_latches {c : CmdStep} {s u : State} (h : (c.perform s).state = some u) :
    ((∀ a, c ≠ .readTmp a) → u.tmp = s.tmp) ∧ ((∀ a, c ≠ .readBlock a) → u.blk = s.blk) := by
  cases ht : c.txn s with
  | none => rw [CmdStep.perform_noTxn ht h]; exact ⟨fun _ => rfl, fun _ => rfl⟩
  | some t =>
    have htmp : ∀ v (z : State), (∀ a, c ≠ .readTmp a) → (c.latch v z).tmp = z.tmp := by
      intro v z hc
      cases c with
      | readTmp a => exact absurd rfl (hc a)
      | _ => rfl
    have hblk : ∀ v (z : State), (∀ a, c ≠ .readBlock a) → (c.latch v z).blk = z.blk := by
      intro v z hc
      cases c with
      | readBlock a => exact absurd rfl (hc a)
      | _ => rfl
    rw [CmdStep.perform_eq ht] at h
    unfold transact at h
    split at h
    · split at h
      · cases h
      · rename_i s1 hs1
        have htmp1 : s1.tmp = s.tmp := by rw [applyEvents_eq hs1]
        have hblk1 : s1.blk = s.blk := by rw [applyEvents_eq hs1]
        unfold settle at h
        split at h <;> cases h
        · exact ⟨fun hc => (htmp _ _ hc).trans htmp1, fun hc => (hblk _ _ hc).trans hblk1⟩
        all_goals exact ⟨fun _ => htmp1, fun _ => hblk1⟩
    · cases h

/-- Only SET_TIME puts something into a latch before its first step. -/
theorem prepare_eq_self_iff (i : Instr) (s : State) :
    prepare i s = s ↔ (i.op = 0x6 → s.blk = encodeTime s.opnd.time) := by
  cases i with
  | setTime c a =>
    refine ⟨fun h _ => (congrArg State.blk h).symm, fun h => ?_⟩
    show { s with blk := encodeTime s.opnd.time } = s
    rw [← h rfl]
  | _ => exact iff_of_true rfl nofun

theorem prepare_prepare (i : Instr) (s : State) : prepare i (prepare i s) = prepare i s := by
  cases i <;> rfl

/-- SET_TIME reads no block. -/
theorem readBlock_notMem {i : Instr} (hi : i.op = 0x6) (a : Byte) : .readBlock a ∉ stepsOf i := by
  cases i with
  | setTime c x => simp [stepsOf]
  | _ => cases hi

/-- What a command has put into its latches stays there through its steps. -/
theorem prepare_perform {i : Instr} {c : CmdStep} (hc : c ∈ stepsOf i) {s u : State}
    (hs : prepare i s = s) (h : (c.perform s).state = some u) : prepare i u = u := by
  rw [prepare_eq_self_iff] at hs ⊢
  intro hi
  obtain ⟨-, -, hopnd, -⟩ := CmdStep.perform_keeps h
  rw [hopnd, ← hs hi]
  exact (CmdStep.perform_latches h).2 fun a ha => readBlock_notMem hi a (ha ▸ hc)

/-! ### A late transaction -/

/-- A transaction answered `Ok` returns, unless the chip has lost power under it; then it fails. -/
theorem CmdStep.perform_ok_returns {c : CmdStep} {s u : State} (ha : s.nextSlot.answer = .ok) :
    c.perform s ≠ .waiting u := by
  intro h
  cases ht : c.txn s with
  | none =>
    cases c <;> simp only [CmdStep.txn, reduceCtorEq] at ht
    rw [CmdStep.perform_sampleReady] at h
    split at h <;> cases h
  | some t =>
    rw [CmdStep.perform_eq ht, transact, ha] at h
    split at h
    · split at h
      · cases h
      · rename_i s1 _
        cases hp : s1.powerLost <;>
          simp [State.answerFrom, hp, BusAnswer.afterPowerLoss, settle] at h
    · cases h

/-- Two states in which the next step ends alike go on alike. -/
theorem runSteps_congr {finish : State → State} {c : CmdStep} {rest : List CmdStep} {s u : State}
    (hs : s.isCut = false) (hu : u.isCut = false) (h : c.perform s = c.perform u) :
    runSteps finish (c :: rest) s = runSteps finish (c :: rest) u := by
  rw [runSteps, runSteps, hs, hu, h]
  rfl

/-- A command that stays in progress has gone on, or it waits in the present step. -/
theorem runSteps_cons_busy {finish : State → State} {c : CmdStep} {rest : List CmdStep} {s t : State}
    (h : runSteps finish (c :: rest) s = .next t) (hbusy : t.busy = true) :
    s.isCut = false ∧ ((∃ v, c.perform s = .done v ∧ runSteps finish rest v.advance = .next t) ∨
      c.perform s = .waiting t) := by
  unfold runSteps at h
  split at h
  · cases h; cases hbusy
  · rename_i hcut
    refine ⟨Bool.eq_false_iff.2 hcut, ?_⟩
    split at h
    · exact .inl ⟨_, ‹_›, h⟩
    · cases h; cases hbusy
    · cases h; exact .inr ‹_›
    · cases h; cases hbusy
    · cases h
    · cases h

/-- The state under another script. -/
def State.scripted (z : List Slot) (s : State) : State := { s with slots := z }

/-- A step in a slot answered `Ok` is the same under whatever slots follow. -/
theorem perform_scripted {i : Instr} {c : CmdStep} (hc : c ∈ stepsOf i) {u : State} {x : Txn}
    (ht : c.txn u = some x) {sl : Slot} (ha : sl.answer = .ok) (y : List Slot) :
    c.perform (u.scripted (sl :: y)) = (c.perform (u.scripted [sl])).withSlots y :=
  perform_withSlots hc (by rintro rfl; cases ht) (by rw [ha]; nofun) u [] y

/-- A transaction in a slot without an answer waits. -/
theorem perform_noAnswer {i : Instr} {c : CmdStep} (hc : c ∈ stepsOf i) {u : State} {x : Txn}
    (ht : c.txn u = some x) (y : List Slot) :
    c.perform (u.scripted (⟨[], .noAnswer⟩ :: y)) = .waiting ((u.scripted y).hold x) := by
  have ht' : c.txn (u.scripted (⟨[], .noAnswer⟩ :: y)) = some x := by rw [← ht]; cases c <;> rfl
  have ha : State.answerFrom (u.scripted y) .noAnswer = .noAnswer := by
    unfold State.answerFrom
    split <;> rfl
  rw [CmdStep.perform_eq ht', transact, if_pos (stepsOf_inMap hc ht)]
  exact congrArg (fun a => settle x c.latch a (u.scripted y)) ha

/-- The state `t` waits in a transaction of the command that was in state `u` before its steps `l`; if
the transport answers in the slots `post` that are left, and the chip keeps its power, the command goes
on as from `u` under the script `z`. -/
structure WaitsFrom (i : Instr) (l : List CmdStep) (u : State) (z post : List Slot) (t : State) :
    Prop where
  rsp : t.rsp = u.rsp
  cmd : t.cmd = u.cmd
  slots : t.slots = post
  flight : ∃ x, t.inFlight = some x
  prepared : prepare i u = u → prepare i t = t
  resumes : (∀ e ∈ t.nextSlot.before, e.isPowerEvent = false) →
    runSteps (finishOf i) ((stepsOf i).drop t.step) t = runSteps (finishOf i) l (u.scripted z)

/-- A command that waits in its next step. -/
theorem waitsFrom_hold {i : Instr} {c : CmdStep} {rest : List CmdStep} {u : State} {x : Txn}
    (hd : (stepsOf i).drop u.step = c :: rest) (hcut : u.isCut = false) (ht : c.txn u = some x)
    (post : List Slot) : WaitsFrom i (c :: rest) u post post ((u.scripted post).hold x) := by
  refine ⟨rfl, rfl, rfl, ⟨_, rfl⟩, fun hu => ?_, fun hpow => ?_⟩
  · rw [prepare_eq_self_iff] at hu ⊢
    exact hu
  · have ht' : c.txn (u.scripted post) = some x := by rw [← ht]; cases c <;> rfl
    rw [hold_step, show (u.scripted post).step = u.step from rfl, hd]
    exact runSteps_congr hcut hcut (CmdStep.perform_resumes ht' hpow)

/-- A step that returns leaves the wait for the steps behind it. -/
theorem WaitsFrom.cons {i : Instr} {c : CmdStep} {rest : List CmdStep} {u v t : State}
    {y z z' post : List Slot} (hc : c ∈ stepsOf i) (hcut : u.isCut = false)
    (hv : c.perform (u.scripted y) = .done v)
    (hz : c.perform (u.scripted z) = .done (v.scripted z'))
    (h : WaitsFrom i rest v.advance z' post t) : WaitsFrom i (c :: rest) u z post t := by
  have hstate : (c.perform (u.scripted y)).state = some v := by rw [hv]; rfl
  obtain ⟨-, hcmd, -, -, hrsp, -⟩ := CmdStep.perform_keeps hstate
  refine ⟨h.rsp.trans hrsp, h.cmd.trans hcmd, h.slots, h.flight, fun hu => h.prepared ?_,
    fun hpow => ?_⟩
  · rw [prepare_eq_self_iff] at hu
    have hv : prepare i v = v :=
      prepare_perform hc ((prepare_eq_self_iff i (u.scripted y)).2 hu) hstate
    rw [prepare_eq_self_iff] at hv ⊢
    exact hv
  · rw [h.resumes hpow, runSteps_done' (s := u.scripted z) hcut hz]
    rfl

/-- A command that stays in progress, its transactions before the late one answered `Ok`, waits in the
late one. -/
theorem runSteps_waitsFrom {i : Instr} {l : List CmdStep} {u t : State} {pre post : List Slot}
    (hd : (stepsOf i).drop u.step = l) (hpre : ∀ sl ∈ pre, sl.answer = .ok)
    (h : runSteps (finishOf i) l (u.scripted (pre ++ ⟨[], .noAnswer⟩ :: post)) = .next t)
    (hbusy : t.busy = true) : WaitsFrom i l u (pre ++ post) post t := by
  induction l generalizing u pre with
  | nil =>
    unfold runSteps at h
    split at h <;> cases h
    · cases hbusy
    · obtain ⟨hidle, -⟩ := finishOf_atRest i (u.scripted (pre ++ ⟨[], .noAnswer⟩ :: post))
      cases hidle.symm.trans hbusy
  | cons c rest ih =>
    obtain ⟨hc, -, hrest⟩ := drop_cons_mem hd
    obtain ⟨hcut, hstep⟩ := runSteps_cons_busy h hbusy
    cases ht : c.txn u with
    | none =>
      cases c <;> simp only [CmdStep.txn, reduceCtorEq] at ht
      have hsample : ∀ z, CmdStep.sampleReady.perform (u.scripted z) =
          if u.busReady then .done (u.scripted z) else .raised .notReady (u.scripted z) :=
        fun _ => rfl
      cases hready : u.busReady <;> simp only [hsample, hready] at hstep
      · obtain ⟨v, hv, -⟩ | hv := hstep <;> cases hv
      · obtain ⟨v, hv, hgo⟩ | hv := hstep <;> cases hv
        refine .cons (y := u.slots) (v := u) hc hcut ?_ ?_ (ih (u := u.advance) hrest hpre hgo)
        · rw [hsample, hready]; rfl
        · rw [hsample, hready]; rfl
    | some x =>
      cases pre with
      | nil =>
        rw [List.nil_append, perform_noAnswer hc ht] at hstep
        obtain ⟨v, hv, -⟩ | hv := hstep <;> cases hv
        exact waitsFrom_hold hd hcut ht post
      | cons sl pre =>
        obtain ⟨ha, hpre⟩ := List.forall_mem_cons.1 hpre
        have hsame := perform_scripted hc ht ha
        rw [List.cons_append, hsame] at hstep
        cases hq : c.perform (u.scripted [sl]) with
        | done v =>
          rw [hq] at hstep
          obtain ⟨v', hv, hgo⟩ | hv := hstep <;> cases hv
          have hstep' : v.step = u.step :=
            CmdStep.perform_step (s := u.scripted [sl]) (by rw [hq]; rfl)
          refine .cons hc hcut hq ?_ (ih (u := v.advance) (pre := pre) ?_ hpre hgo)
          · rw [List.cons_append, hsame, hq]; rfl
          · rw [advance_step, hstep', hrest]
        | waiting v => exact absurd hq (CmdStep.perform_ok_returns ha)
        | _ => rw [hq] at hstep; obtain ⟨v', hv, -⟩ | hv := hstep <;> cases hv

/-- A command that waits in a late transaction resumes as if that had been answered at once. -/
theorem exec_waitsFrom {i : Instr} {s t : State} {pre post : List Slot}
    (hpre : ∀ sl ∈ pre, sl.answer = .ok)
    (h : exec i (s.scripted (pre ++ ⟨[], .noAnswer⟩ :: post)) = .next t) (hbusy : t.busy = true) :
    t.rsp = s.rsp ∧ t.cmd = s.cmd ∧ t.slots = post ∧ (∃ x, t.inFlight = some x) ∧
    ((∀ e ∈ t.nextSlot.before, e.isPowerEvent = false) →
      exec i t = exec i (s.scripted (pre ++ post))) := by
  have hprepare : ∀ z, prepare i (s.scripted z) = (prepare i s).scripted z := by
    intro z
    cases i <;> rfl
  rw [exec_eq, hprepare] at h
  obtain ⟨hrsp, hcmd, hslots, hflight, hprepared, hresumes⟩ :=
    runSteps_waitsFrom (u := prepare i s) (by rw [prepare_step]; rfl) hpre h hbusy
  refine ⟨hrsp.trans (prepare_rsp i s), hcmd.trans (prepare_cmd i s), hslots, hflight,
    fun hpow => ?_⟩
  rw [exec_eq, exec_eq, hprepared (prepare_prepare i s), hprepare, hresumes hpow]
  rfl

/-! ### A power loss under the transaction -/

/-- How a command ends or waits whose transaction the chip's power loss has overtaken, by the answer of
the transport (R229). -/
def overtaken (u v : State) : BusAnswer → Prop
  | .ok | .fail _ => v.atRest ∧ v.rsp = some (.error .ioError)
  | .noAnswer | .never _ =>
    v.busy = u.busy ∧ v.rsp = u.rsp ∧ ∃ z, v.inFlight = some z ∧ z.powerLost = true
  | .blockReset _ => v.atRest ∧ v.rsp = none

/-- A transaction that is in flight without power never completes and stores nothing. -/
theorem runSteps_overtaken {i : Instr} {finish : State → State} {c : CmdStep} {rest : List CmdStep}
    {s s1 : State} {x : Txn} (hc : c ∈ stepsOf i) (ht : c.txn s = some x) (hcut : s.cut = none)
    (he : applyEvents s.nextSlot.before { s with slots := s.slots.tail } = some s1)
    (hpow : s1.powerLost = true) :
    ∃ v, runSteps finish (c :: rest) s = .next v ∧ v.mem = s1.mem ∧
      overtaken s v s.nextSlot.answer := by
  have hsettle : c.perform s = settle x c.latch s.nextSlot.answer.afterPowerLoss s1 := by
    rw [CmdStep.perform_eq ht, transact, if_pos (stepsOf_inMap hc ht), he]
    simp only [State.answerFrom, hpow, if_true]
  have hkeep := applyEvents_eq he
  have hbusy : s1.busy = s.busy := by rw [hkeep]
  have hrsp : s1.rsp = s.rsp := by rw [hkeep]
  have hmem := x.storePart_nil s1.mem
  cases ha : s.nextSlot.answer <;> rw [ha] at hsettle
  case noAnswer =>
    exact ⟨_, runSteps_waiting hcut hsettle, rfl, hbusy, hrsp, _, rfl, hpow⟩
  case never l =>
    exact ⟨_, runSteps_waiting hcut hsettle, hmem, hbusy, hrsp, _, rfl, hpow⟩
  case blockReset l =>
    exact ⟨_, runSteps_abandoned hcut hsettle, hmem, blockReset_atRest _, rfl⟩
  all_goals exact ⟨_, runSteps_raised hcut hsettle, hmem, raise_atRest _ _, rfl⟩

/-- The step a waiting command is in. -/
theorem step_of_position {i : Instr} {n : Nat} (h1 : leadSteps i ≤ n)
    (h2 : n < leadSteps i + (accesses i).length) (s : State) :
    ∃ c rest x, (stepsOf i).drop n = c :: rest ∧ c ∈ stepsOf i ∧ c.txn s = some x := by
  obtain ⟨k, rfl⟩ := Nat.exists_eq_add_of_le h1
  obtain ⟨c, rest, hd, -, hc, hshape⟩ := step_of_access (Nat.add_lt_add_iff_left.1 h2)
  rw [CmdStep.shape_eq c s] at hshape
  obtain ⟨x, hx, -⟩ := Option.map_eq_some_iff.1 hshape
  exact ⟨c, rest, x, hd, hc, hx⟩

/-- A command that waits, after events under which the chip has lost power. -/
theorem exec_overtaken {i : Instr} {s s1 : State} (hcut : s.cut = none) (h1 : leadSteps i ≤ s.step)
    (h2 : s.step < leadSteps i + (accesses i).length)
    (he : applyEvents s.nextSlot.before (prepare i { s with slots := s.slots.tail }) = some s1)
    (hpow : s1.powerLost = true) :
    ∃ v, exec i s = .next v ∧ v.mem = s1.mem ∧ overtaken s v s.nextSlot.answer := by
  obtain ⟨c, rest, x, hd, hc, hx⟩ := step_of_position h1 h2 (prepare i s)
  have hslot : (prepare i s).nextSlot = s.nextSlot := by cases i <;> rfl
  have hevents : ({ prepare i s with slots := (prepare i s).slots.tail } : State) =
      prepare i { s with slots := s.slots.tail } := by cases i <;> rfl
  obtain ⟨v, hv, hmem, hover⟩ := runSteps_overtaken (finish := finishOf i) (rest := rest) hc hx
    ((prepare_cut i s).trans hcut) (by rw [hslot, hevents, he]) hpow
  refine ⟨v, by rw [exec_eq, hd, hv], hmem, ?_⟩
  rw [hslot] at hover
  cases ha : s.nextSlot.answer <;> rw [ha] at hover <;>
    simpa only [overtaken, prepare_busy, prepare_rsp] using hover

/-- A power event under the transaction in flight (R229). -/
theorem exec_powerEvent {i : Instr} {s : State} {x : InFlight} {contents : Vector Byte 18}
    {a : BusAnswer} (hf : s.inFlight = some x) (hcut : s.cut = none) (h1 : leadSteps i ≤ s.step)
    (h2 : s.step < leadSteps i + (accesses i).length) (hs : s.nextSlot = ⟨[.powerEvent contents], a⟩) :
    ∃ v, exec i s = .next v ∧ v.mem = powerUp contents s.mem ∧ overtaken s v a := by
  have he : applyEvents s.nextSlot.before (prepare i { s with slots := s.slots.tail }) =
      some { prepare i { s with slots := s.slots.tail } with
        mem := powerUp contents s.mem, inFlight := some x.losePower } := by
    rw [hs]
    simp only [applyEvents, EnvEvent.apply, prepare_mem, prepare_inFlight, hf, Option.map_some]
  obtain ⟨v, hv, hmem, hover⟩ := exec_overtaken hcut h1 h2 he rfl
  rw [hs] at hover
  exact ⟨v, hv, hmem, hover⟩

/-- A transaction in flight that has lost its power never completes, whatever comes. -/
theorem exec_withoutPower {i : Instr} {s t : State} {x : InFlight} (hf : s.inFlight = some x)
    (hx : x.powerLost = true) (hcut : s.cut = none) (h1 : leadSteps i ≤ s.step)
    (h2 : s.step < leadSteps i + (accesses i).length) (h : exec i s = .next t) :
    ∃ a, overtaken s t a := by
  cases he : applyEvents s.nextSlot.before (prepare i { s with slots := s.slots.tail }) with
  | some s1 =>
    have hpow : s1.powerLost = true := by
      have hflight := applyEvents_inFlight he
      rw [prepare_inFlight, show ({ s with slots := s.slots.tail } : State).inFlight = some x from hf]
        at hflight
      rw [State.powerLost, hflight]
      split
      · rfl
      · exact hx
    obtain ⟨v, hv, -, hover⟩ := exec_overtaken hcut h1 h2 he hpow
    cases h.symm.trans hv
    exact ⟨_, hover⟩
  | none =>
    obtain ⟨c, rest, y, hd, hc, hy⟩ := step_of_position h1 h2 (prepare i s)
    have hevents : applyEvents (prepare i s).nextSlot.before
        { prepare i s with slots := (prepare i s).slots.tail } = none := by
      rw [← he]
      cases i <;> rfl
    have hstop : c.perform (prepare i s) = .foreignOutside := by
      rw [CmdStep.perform_eq hy, transact, if_pos (stepsOf_inMap hc hy), hevents]
    rw [exec_eq, hd, runSteps, isCut_of_none ((prepare_cut i s).trans hcut), hstop] at h
    cases h

/-! ### A transaction that never returns -/

/-- A quiet command keeps what it has put into its latches for its next step. -/
theorem prepare_quietAt {i : Instr} {n : Nat} {c : CmdStep} (hc : (stepsOf i)[n]? = some c)
    {s u : State} (hopnd : u.opnd = s.opnd) (hblk : u.blk = (quietAt i n s).blk) :
    prepare i u = u := by
  rw [prepare_eq_self_iff, hopnd, hblk]
  intro hi
  cases i with
  | setTime ch arg =>
    obtain rfl := List.mem_singleton.1 (List.mem_of_getElem? hc)
    exact quietAt_blk hc
  | _ => cases hi

/-- A command whose transaction `k` never returns: it waits, and each further step is the same. -/
theorem exec_hangs {i : Instr} {s : State} {k : Nat} {l : List Bool} (hs : s.begun)
    (hready : s.busReady = true) (hk : k < (accesses i).length) (hq : s.quietThen k (.never l)) :
    ∃ t x, exec i s = .next t ∧ t.busy = s.busy ∧ t.rsp = s.rsp ∧ t.cmd = s.cmd ∧
      t.inputs = s.inputs ∧ t.trace.length = s.trace.length + k ∧
      t.issued = t.trace ++ [⟨x, .pending⟩] ∧ (accesses i)[k]? = some x.shape ∧
      exec i t = .next t := by
  obtain ⟨c, rest, x, hget, hc, hx, hin, hshape, -, hslot, he⟩ := exec_upTo hs (.inr hready) hk hq
  obtain ⟨hstep, hcut, hf⟩ := hs
  have hn : leadSteps i + k ≤ (stepsOf i).length := by rw [length_stepsOf]; omega
  obtain ⟨hstep', hf', hcut', -, hinputs, -, -, htrace, hrsp, hbusy, hcmd, hopnd⟩ :=
    quietAt_keeps hn hstep hf
  have hwait := CmdStep.perform_never hx hin hf' hslot
  have hlen : (quietAt i (leadSteps i + k) s).trace.length = s.trace.length + k := by
    rw [htrace, List.length_append, List.length_take, length_recordsOf]
    omega
  refine ⟨_, x, he.trans (runSteps_waiting (hcut'.trans hcut) hwait), hbusy, hrsp, hcmd, hinputs,
    hlen, rfl, hshape, ?_⟩
  obtain ⟨rest', hd⟩ := drop_of_getElem? hget
  rw [exec_eq, prepare_quietAt hget (by exact hopnd) (by rfl)]
  dsimp only
  rw [hstep', hd]
  refine runSteps_waiting (hcut'.trans hcut) (CmdStep.perform_hung ?_ hin rfl rfl)
  rw [← hx]
  cases c <;> rfl

/-- Settles O57: a late transaction by the run that is suspended in it, one under a power loss by its
possible ends, one that never returns by its slot, which stays in front of the script. -/
theorem waitingCommandResumes : Obligations.WaitingCommandResumes := by
  refine ⟨?_, ?_, ?_⟩
  · intro i s t pre post _ hrsp hpre h hbusy
    obtain ⟨hrsp', hcmd, hslots, ⟨x, hx⟩, hresumes⟩ := exec_waitsFrom hpre h hbusy
    exact ⟨hrsp'.trans hrsp, hcmd, hslots, ⟨x, hx, issued_of_some hx⟩, hresumes⟩
  · intro i s x hf hcut hrsp hbusy h1 h2
    constructor
    · intro contents a hs
      obtain ⟨v, hv, hmem, hover⟩ := exec_powerEvent hf hcut h1 h2 hs
      refine ⟨v, hv, fun y hy => by rw [hmem, get_powerUp _ _ _ hy], ?_, ?_, ?_⟩
      · rintro ⟨l, rfl | rfl⟩ <;> exact hover
      · rintro ⟨l, rfl | rfl⟩ <;> simpa only [overtaken, hbusy, hrsp] using hover
      · rintro l rfl
        exact hover
    · intro hx t h
      obtain ⟨a, hover⟩ := exec_withoutPower hf hx hcut h1 h2 h
      cases a <;> simp only [overtaken, hbusy, hrsp] at hover
      case noAnswer => exact .inr hover
      case never l => exact .inr hover
      case blockReset l => exact .inl ⟨hover.1, .inl hover.2⟩
      all_goals exact .inl ⟨hover.1, .inr hover.2⟩
  · intro i s k l hs hready hrsp hk hq hbusy hi
    obtain ⟨t, x, he, hb, hr, hc, hinputs, hlen, hissued, hshape, hstay⟩ := exec_hangs hs hready hk hq
    refine ⟨t, he, hb.trans hbusy, hr.trans hrsp, hlen, ⟨x, hissued, hshape⟩, hinputs, ?_⟩
    rw [step_busy (hb.trans hbusy), hc, hi, hstay]

end Sys2Proof.Machine
end

