-- ==== Sys2Proof/Proofs/Latches.lean ====
section
/-! The obligation about the latches before a command (10_state.md R20, R22): they are dead where a
command begins, by the order in which its steps fill and use them. -/

namespace Sys2Proof.Machine

/-! ### Which latches the rest of a command uses -/

/-- Whether a command uses what stands in `tmp` before its steps `l`. -/
def usesTmp (i : Instr) : List CmdStep → Bool
  | [] => i.op == 0x9
  | .readTmp _ :: _ => false
  | .writeBack _ _ _ :: _ => true
  | .sampleReady :: l | .probe _ :: l | .writeByte _ _ :: l | .readBlock _ :: l
  | .writeBlock _ :: l => usesTmp i l

/-- Whether a command uses what stands in `blk` before its steps `l`. -/
def usesBlk (i : Instr) : List CmdStep → Bool
  | [] => i.op == 0x5
  | .readBlock _ :: _ => false
  | .writeBlock _ :: _ => true
  | .sampleReady :: l | .probe _ :: l | .readTmp _ :: l | .writeBack _ _ _ :: l
  | .writeByte _ _ :: l => usesBlk i l

/-- A command fills `tmp` before it uses it. -/
theorem usesTmp_stepsOf (i : Instr) : usesTmp i (stepsOf i) = false := by
  cases i <;> rfl

theorem usesTmp_cons {i : Instr} {c : CmdStep} {rest : List CmdStep} (hc : ∀ a, c ≠ .readTmp a)
    (h : usesTmp i rest = true) : usesTmp i (c :: rest) = true := by
  cases c with
  | readTmp a => exact absurd rfl (hc a)
  | writeBack a mask val => rfl
  | _ => exact h

theorem usesBlk_cons {i : Instr} {c : CmdStep} {rest : List CmdStep} (hc : ∀ a, c ≠ .readBlock a)
    (h : usesBlk i rest = true) : usesBlk i (c :: rest) = true := by
  cases c with
  | readBlock a => exact absurd rfl (hc a)
  | writeBlock a => rfl
  | _ => exact h

/-! ### A step under other latches -/

/-- The state with other latches. -/
def State.relatch (w : CmdWord) (v : Byte) (b : RawTimeBlock) (s : State) : State :=
  { s with cmd := w, tmp := v, blk := b }

section
variable (w : CmdWord) (v : Byte) (b : RawTimeBlock)

theorem EnvEvent.apply_relatch (e : EnvEvent) (s : State) :
    e.apply (s.relatch w v b) = (e.apply s).map (State.relatch w v b) := by
  cases e with
  | foreign n t f => simp only [EnvEvent.apply]; split <;> (try split) <;> rfl
  | _ => rfl

theorem applyEvents_relatch (es : List EnvEvent) (s : State) :
    applyEvents es (s.relatch w v b) = (applyEvents es s).map (State.relatch w v b) := by
  induction es generalizing s with
  | nil => rfl
  | cons e es ih =>
    simp only [applyEvents, EnvEvent.apply_relatch]
    cases e.apply s with
    | none => rfl
    | some u => exact ih u

/-- What `tmp` is after a step that reached `s`, where it was `v` before. -/
def CmdStep.tmpAfter (c : CmdStep) (s : State) (v : Byte) : Byte :=
  match c with
  | .readTmp _ => s.tmp
  | _ => v

/-- What `blk` is after a step that reached `s`, where it was `b` before. -/
def CmdStep.blkAfter (c : CmdStep) (s : State) (b : RawTimeBlock) : RawTimeBlock :=
  match c with
  | .readBlock _ => s.blk
  | _ => b

/-- The end of the step `c` begun with other latches. -/
def StepEnd.relatch (c : CmdStep) : StepEnd → StepEnd
  | .done s => .done (s.relatch w (c.tmpAfter s v) (c.blkAfter s b))
  | .raised k s => .raised k (s.relatch w v b)
  | .waiting s => .waiting (s.relatch w v b)
  | .abandoned s => .abandoned (s.relatch w v b)
  | .outsideMap => .outsideMap
  | .foreignOutside => .foreignOutside

theorem settle_relatch (t : Txn) (c : CmdStep) (a : BusAnswer) (s : State) :
    settle t c.latch a (s.relatch w v b) = (settle t c.latch a s).relatch w v b c := by
  cases a with
  | ok => cases c <;> rfl
  | _ => rfl

theorem transact_relatch (t : Txn) (c : CmdStep) (s : State) :
    transact t c.latch (s.relatch w v b) = (transact t c.latch s).relatch w v b c := by
  unfold transact
  split
  · have hevents := applyEvents_relatch w v b s.nextSlot.before { s with slots := s.slots.tail }
    rw [show applyEvents (s.relatch w v b).nextSlot.before
      { s.relatch w v b with slots := (s.relatch w v b).slots.tail } = _ from hevents]
    cases applyEvents s.nextSlot.before { s with slots := s.slots.tail } with
    | none => rfl
    | some s1 => exact settle_relatch w v b t c (s1.answerFrom s.nextSlot.answer) s1
  · rfl

variable {w v b}

/-- A step sees of the latches what it uses. -/
theorem perform_relatch {i : Instr} {c : CmdStep} {rest : List CmdStep} {s : State}
    (hv : usesTmp i (c :: rest) = true → v = s.tmp)
    (hb : usesBlk i (c :: rest) = true → b = s.blk) :
    c.perform (s.relatch w v b) = (c.perform s).relatch w v b c := by
  cases c with
  | sampleReady =>
    rw [CmdStep.perform_sampleReady, CmdStep.perform_sampleReady]
    show (if s.busReady then _ else _) = _
    split <;> rfl
  | writeBack a mask val =>
    obtain rfl := hv rfl
    exact transact_relatch w s.tmp b _ (.writeBack a mask val) s
  | writeBlock a =>
    obtain rfl := hb rfl
    exact transact_relatch w v s.blk _ (.writeBlock a) s
  | probe a => exact transact_relatch w v b _ (.probe a) s
  | readTmp a => exact transact_relatch w v b _ (.readTmp a) s
  | writeByte a x => exact transact_relatch w v b _ (.writeByte a x) s
  | readBlock a => exact transact_relatch w v b _ (.readBlock a) s

/-- A step leaves in `tmp` what the rest uses of it. -/
theorem tmpAfter_eq {i : Instr} {c : CmdStep} {rest : List CmdStep} {s u : State}
    (hv : usesTmp i (c :: rest) = true → v = s.tmp) (h : c.perform s = .done u)
    (hrest : usesTmp i rest = true) : c.tmpAfter u v = u.tmp := by
  cases c with
  | readTmp a => rfl
  | _ =>
    obtain ⟨htmp, -⟩ := CmdStep.perform_latches (u := u) (by rw [h]; rfl)
    exact (hv (usesTmp_cons nofun hrest)).trans (htmp nofun).symm

/-- A step leaves in `blk` what the rest uses of it. -/
theorem blkAfter_eq {i : Instr} {c : CmdStep} {rest : List CmdStep} {s u : State}
    (hb : usesBlk i (c :: rest) = true → b = s.blk) (h : c.perform s = .done u)
    (hrest : usesBlk i rest = true) : c.blkAfter u b = u.blk := by
  cases c with
  | readBlock a => rfl
  | _ =>
    obtain ⟨-, hblk⟩ := CmdStep.perform_latches (u := u) (by rw [h]; rfl)
    exact (hb (usesBlk_cons nofun hrest)).trans (hblk nofun).symm

/-! ### A command under other latches -/

/-- A response sees of the latches what it uses, and leaves none of them. -/
theorem finishOf_relatch {i : Instr} {s : State} (hv : usesTmp i [] = true → v = s.tmp)
    (hb : usesBlk i [] = true → b = s.blk) : finishOf i (s.relatch w v b) = finishOf i s := by
  have hdecoded : ∀ x, respondDecoded x (s.relatch w v b) = respondDecoded x s := by
    intro x
    unfold respondDecoded
    split
    · rfl
    · split <;> rfl
  cases i with
  | decode c a => exact hdecoded s.opnd.block
  | getTime c a =>
    obtain rfl := hb rfl
    exact hdecoded s.blk
  | getPendingInt c a =>
    obtain rfl := hv rfl
    rfl
  | _ => rfl

/-- A command that ends does so alike under all latches that agree where it uses them. -/
theorem runSteps_relatch {i : Instr} {l : List CmdStep} {s t : State}
    (hv : usesTmp i l = true → v = s.tmp) (hb : usesBlk i l = true → b = s.blk)
    (hbusy : s.busy = true) (hidle : t.busy = false) (h : runSteps (finishOf i) l s = .next t) :
    runSteps (finishOf i) l (s.relatch w v b) = .next t := by
  induction l generalizing s v b with
  | nil =>
    rw [← h, runSteps, runSteps, finishOf_relatch hv hb]
    rfl
  | cons c rest ih =>
    have hp := perform_relatch (w := w) hv hb
    have hcut : (s.relatch w v b).isCut = s.isCut := rfl
    rw [runSteps] at h ⊢
    rw [hcut, hp]
    split at h
    · cases h
      rw [if_pos ‹_›]
      rfl
    · rename_i hnow
      rw [if_neg hnow]
      cases he : c.perform s <;> rw [he] at h
      case done u =>
        obtain ⟨hbusy', -⟩ := CmdStep.perform_keeps (c := c) (s := s) (s' := u) (by rw [he]; rfl)
        exact ih (s := u.advance) (tmpAfter_eq hv he) (blkAfter_eq hb he) (hbusy'.trans hbusy) h
      case waiting u =>
        obtain ⟨hbusy', -⟩ := CmdStep.perform_keeps (c := c) (s := s) (s' := u) (by rw [he]; rfl)
        cases h
        cases hidle.symm.trans (hbusy'.trans hbusy)
      all_goals exact h

/-- A command fills `blk` before it uses it, SET_TIME before its first step. -/
theorem prepare_relatch (i : Instr) (s : State) :
    ∃ b', prepare i (s.relatch w v b) = (prepare i s).relatch w v b' ∧
      (usesBlk i (stepsOf i) = true → b' = (prepare i s).blk) := by
  cases i with
  | setTime c a => exact ⟨_, rfl, fun _ => rfl⟩
  | _ => exact ⟨b, rfl, nofun⟩

end

/-- Settles O58: where a command begins it uses no latch that it has not filled. -/
theorem earlierLatchesDoNotMatter : Obligations.EarlierLatchesDoNotMatter := by
  intro i s t w v b hstep hbusy h hidle
  obtain ⟨b', hprepare, hb⟩ := prepare_relatch (w := w) (v := v) (b := b) i s
  rw [exec_eq_start i hstep] at h
  show exec i (s.relatch w v b) = .next t
  rw [exec_eq_start (s := s.relatch w v b) i hstep, hprepare]
  refine runSteps_relatch (fun huse => ?_) hb ((prepare_busy i s).trans hbusy) hidle h
  rw [usesTmp_stepsOf] at huse
  cases huse

end Sys2Proof.Machine
end
